-- ==== Sys2Proof/Word.lean ====
section
/-! DEFINITION. The words of the CORE (00_scope.md R8, R9): bits, bit sequences, bytes, counts, command words. No value of
this block is signed. -/

namespace Sys2Proof

/-- `bit` of R9: `false` is 0, `true` is 1. -/
abbrev Bit := Bool

/-- `Bits` of R9: a finite sequence of bits, the first bit in stream order at the head. -/
abbrev Bits := List Bit

/-- `u8` of R9 (`BYTE_W` = 8). -/
abbrev Byte := BitVec 8

/-- `u64` of R9 (`COUNT_W` = 64): the width of a count. -/
abbrev Count := BitVec 64

/-- The command word `op[3:0]` of channel CMD (30_encoding.md R80). -/
abbrev CmdWord := BitVec 4

/-- The largest count, 2^64 - 1 (R113, R114). -/
def Count.max : Count := BitVec.allOnes 64

end Sys2Proof
end

