-- ==== Sys2Proof/Syntax.lean ====
section
/-! DEFINITION. The nine commands of 30_encoding.md R81, one constructor per row of spec/opcode_table.json. No command
carries an operand or an immediate in its word (R82), so no constructor has an argument. -/

namespace Sys2Proof

/-- A command of the CORE (R81). -/
inductive Instr where
  /-- CLR, start a session (R111). -/
  | clr
  /-- COUNT, the Frequency Analyzer (R113). -/
  | count
  /-- BUILD, the Tree Builder (R121). -/
  | build
  /-- SER, the Tree Codec's serializer (R141). -/
  | ser
  /-- DESER, the Tree Codec's deserializer (R146). -/
  | deser
  /-- INJ, the Sentinel Injector (R161). -/
  | inj
  /-- LUT, the Lookup Table Builder (R171). -/
  | lut
  /-- ENC, the Stream Encoder (R181). -/
  | enc
  /-- DEC, the Stream Decoder (R191). -/
  | dec
  deriving DecidableEq, Repr

end Sys2Proof
end

