-- ==== Sys2Proof/WellFormed.lean ====
section
/-! DEFINITION. Well-formedness. A command word has one field, the opcode (30_encoding.md R80), and the one check there is on
it is R83's: 0x0 and 0xA to 0xF select no command. A command, once decoded, carries nothing to check (R82). -/

namespace Sys2Proof

/-- R81, R83: the word selects one of the nine commands. -/
def CmdWord.wellFormed (w : CmdWord) : Bool :=
  decide (1 ≤ w.toNat) && decide (w.toNat ≤ 9)

/-- R82: no command has an operand or an immediate, so every command is well formed. -/
def Instr.wellFormed : Instr → Bool
  | .clr => true
  | .count => true
  | .build => true
  | .ser => true
  | .deser => true
  | .inj => true
  | .lut => true
  | .enc => true
  | .dec => true

end Sys2Proof
end

