-- ==== Sys2Proof/Decode.lean ====
section
/-! DEFINITION. Decoding and encoding of the command word (30_encoding.md R80 to R83). Decoding is total on 4-bit words and
rejects the reserved opcodes by name. The encoder below it is written from the same table. -/

namespace Sys2Proof

/-- Why a command word selects no command. -/
inductive DecodeReject where
  /-- R83: opcodes 0x0 and 0xA to 0xF select no command. -/
  | reservedOpcode (w : CmdWord)
  deriving DecidableEq, Repr

/-- The table of R81, read from word to command. -/
def decode (w : CmdWord) : Except DecodeReject Instr :=
  match w.toNat with
  | 0x1 => .ok .clr
  | 0x2 => .ok .count
  | 0x3 => .ok .build
  | 0x4 => .ok .ser
  | 0x5 => .ok .deser
  | 0x6 => .ok .inj
  | 0x7 => .ok .lut
  | 0x8 => .ok .enc
  | 0x9 => .ok .dec
  | _ => .error (.reservedOpcode w)

/-- The table of R81, read from command to word. It is also what `STATUS.FOP` records (60_exceptions.md R221). -/
def encode : Instr → CmdWord
  | .clr => 0b0001#4
  | .count => 0b0010#4
  | .build => 0b0011#4
  | .ser => 0b0100#4
  | .deser => 0b0101#4
  | .inj => 0b0110#4
  | .lut => 0b0111#4
  | .enc => 0b1000#4
  | .dec => 0b1001#4

/-- The command word whose bits the opcode table numbers `w`: bit 0 least significant, one word of 4 bits (R80). `nbits` is
the row's width in whole bytes; channel CMD carries bits 3:0 of it (log entry 3). -/
def tableWord (nbits w : Nat) : CmdWord :=
  BitVec.ofNat 4 (w % 2 ^ nbits)

/-- The command the decoder reads from the opcode table's word `w`. -/
def decodeTableWord (nbits w : Nat) : Option Instr :=
  match decode (tableWord nbits w) with
  | .ok i => some i
  | .error _ => none

end Sys2Proof
end

