-- ==== Sys2Proof/Config.lean ====
section
/-! DEFINITION. The implementation parameters of 00_scope.md R8, at the value this hardware takes. The spec leaves no value
free inside the CORE, so there is no opaque constant here: what the environment decides (packets, failing transfers) is
plain data of State. `PACK` and `PAD` belong to the external bit writer (R4, R61) and are no parameter of this model. -/

namespace Sys2Proof

/-- `REINSERT` of R8: where BUILD puts a merged node back (R128, decision D8). -/
inductive Reinsert where
  | front
  | back
  deriving DecidableEq, Repr

/-- `PAIR` of R8: which of the two removed nodes becomes the left child (R128, decision D9). -/
inductive Pair where
  | lastIsLeft
  | lastIsRight
  deriving DecidableEq, Repr

namespace Config

/-- `LEAF_CAP`: the most leaves a stored tree may have before injection (R8, decision D14). -/
def leafCap : Nat := 256

/-- `EOS_KEY`: the index of the End-of-Stream symbol in LUT (R8, R87, decision D10). -/
def eosKey : Nat := 256

/-- The value this hardware takes for `REINSERT` (R8, R128). -/
def reinsert : Reinsert := .front

/-- The value this hardware takes for `PAIR` (R8, R128). -/
def pair : Pair := .lastIsLeft

end Config

end Sys2Proof
end

