-- ==== Sys2Proof/Machine/State.lean ====
section
/-! DEFINITION. The state of the machine as plain data: the seven items of 10_state.md R20 (`Regs`), and beside them what the
host has put on the channels or taken from them (`Io`), which R14 makes a parameter of a command's transition and this
model holds as data, because a step is a function of the state alone (log entry 1). -/

namespace Sys2Proof.Machine

/-- A code tree (00_scope.md R10). Each `inner` node owns its two children; its first field is its aggregate count. -/
inductive Tree where
  | char (b : Byte) (c : Count)
  | eos
  | inner (c : Count) (l r : Tree)
  deriving DecidableEq, Repr

/-- Register PHASE (10_state.md R26). Codes 6 and 7 are never produced and have no constructor. -/
inductive Phase where
  | idle
  | counted
  | tree
  | injected
  | tabled
  | done
  deriving DecidableEq, Repr

/-- The four data channels (20_memory.md R50). -/
inductive Channel where
  | byteIn
  | byteOut
  | bitIn
  | bitOut
  deriving DecidableEq, Repr

/-- Where a bit source ran out (60_exceptions.md R222). -/
inductive EosSite where
  | hdrFlag
  | hdrByte
  | payload
  deriving DecidableEq, Repr

/-- Which command met a count overflow (R222). -/
inductive OvfSite where
  | count
  | build
  deriving DecidableEq, Repr

/-- A fault cause with its qualifier (60_exceptions.md R221, R222). Codes 9 to 15 are never produced and have no
constructor. -/
inductive Cause where
  | io (ch : Channel)
  | prematureEos (site : EosSite)
  | empty
  | lutMiss (v : Byte)
  | seq
  | illCmd
  | capacity
  | ovf (site : OvfSite)
  deriving DecidableEq, Repr

/-- A cause without its qualifier: what the response `FAULT(cause)` carries (decision D27). -/
inductive CauseName where
  | io
  | prematureEos
  | empty
  | lutMiss
  | seq
  | illCmd
  | capacity
  | ovf
  deriving DecidableEq, Repr

/-- What fault entry records in STATUS (60_exceptions.md R228): the cause with its qualifier, and `FOP`. -/
structure FaultRecord where
  cause : Cause
  op : CmdWord
  deriving DecidableEq, Repr

/-- The response to a command word on channel CMD (R50, D27). -/
inductive Response where
  | ok
  | fault (name : CauseName)
  deriving DecidableEq, Repr

/-- An item of channel BYTE_IN (20_memory.md R51): a byte, or the `End` that closes a packet. -/
inductive ByteItem where
  | byte (v : Byte)
  | packetEnd
  deriving DecidableEq, Repr

/-- An item of channel BIT_OUT (R50): a bit, or a flush request. -/
inductive BitItem where
  | bit (b : Bit)
  | flush
  deriving DecidableEq, Repr

/-- A channel event (00_scope.md R12). -/
inductive Event where
  | inByte (v : Byte)
  | inEnd
  | inBit (b : Bit)
  | inShort
  | outByte (v : Byte)
  | outBit (b : Bit)
  | outFlush
  deriving DecidableEq, Repr

/-- Register OCC (10_state.md R21): 256 counts, indexed by byte value. -/
abbrev Occ := Vector Count 256

/-- Register LUT (10_state.md R24): 257 entries, each `None` or a code; index 256 is End-of-Stream. -/
abbrev Lut := Vector (Option Bits) 257

/-- The state of the CORE: the seven items of 10_state.md R20. STATUS is held as the two things it reports, `phase` and
`fault`; its 32 bits are `State.status` (Machine/Flags.lean). -/
structure Regs where
  /-- OCC, R21. -/
  occ : Occ
  /-- TREE, R22. -/
  tree : Option Tree
  /-- WORK, R23: the Tree Builder's collection, head first. -/
  work : List Tree
  /-- LUT, R24. -/
  lut : Lut
  /-- CUR, R25: the subtree the decoder's walk stands on. -/
  cur : Option Tree
  /-- PHASE, R26. -/
  phase : Phase
  /-- STATUS.FAULT with FCAUSE, FINFO, FOP and FVAL, R27: `none` is FAULT = 0 (log entry 9). -/
  fault : Option FaultRecord
  deriving DecidableEq, Repr

/-- The environment's oracle of failing transfers (20_memory.md R69, decision D17): for each channel, whether its next
transfers report an error, the next one first; a transfer past the end of the list reports none (log entry 4). -/
structure IoErrors where
  byteIn : List Bool
  byteOut : List Bool
  bitIn : List Bool
  bitOut : List Bool
  deriving DecidableEq, Repr

/-- The host's side of the channels (20_memory.md R50). None of it is state of the CORE (R14, R31). -/
structure Io where
  /-- CMD: the words the host issues, the next one first, each after the response to the one before it (R66). -/
  cmd : List CmdWord
  /-- CMD: the responses given, oldest first. -/
  responses : List Response
  /-- BYTE_IN: the unread items, the next one first (R51). -/
  byteIn : List ByteItem
  /-- BIT_IN: the unread bits of the session's packet, the next one first (R56); no packet is the empty one (log entry 7). -/
  bitIn : List Bit
  /-- Which of the coming transfers report an error (R69). -/
  errors : IoErrors
  /-- Every channel event so far, oldest first (R7, R12, log entry 14). -/
  events : List Event
  deriving DecidableEq, Repr

/-- The machine: the CORE and the host's side of its channels. -/
structure State where
  regs : Regs
  io : Io
  deriving DecidableEq, Repr

/-- Why a step has no next state. Each is a case to which the spec gives no transition; every fault of the hardware itself
is a next state with `fault` recorded (60_exceptions.md R228). -/
inductive Fault where
  /-- Raised by COUNT and ENC where BYTE_IN holds no further item though no `End` was read: the host has not ended the
  packet, and the command does not respond (70_reset_and_hazards.md R275, U13: stuck). Safe. -/
  | byteInStarved
  /-- Raised by SER, INJ, LUT and DEC where they are admitted and TREE is `None`, which no rule produces (10_state.md
  R26). Safe: only in states no run reaches. -/
  | noTree
  /-- Raised by SER and INJ where they are admitted and TREE holds an `Eos` leaf, which no rule produces: `Ser(Eos)` and
  `Inject(Eos)` are not defined (R90, R161). Safe: only in states no run reaches. -/
  | eosInTree
  /-- Raised by ENC where it is admitted and LUT[256] is `None`, which no rule produces (R181). Safe: only in states no
  run reaches. -/
  | noTerminatorCode
  /-- Raised by BUILD where WORK is empty inside its loop, which R123 rules out. Safe: never raised. -/
  | emptyWork
  /-- Raised by DEC where the root is a Character leaf, which no rule produces: the loop emits for ever without reading
  (46_stream_decoder.md R195). Safe: only in states no run reaches. -/
  | decNeverEnds
  deriving DecidableEq, Repr

/-- Why an instruction has no meaning in this model. -/
inductive Refusal where
  /-- Raised by `exec` for an instruction that has no meaning yet; no arm uses it now. Safe. -/
  | notModelled (mnemonic : String)
  deriving DecidableEq, Repr

/-- OCC with every slot 0 (R31). -/
def Occ.zero : Occ := Vector.replicate 256 0

/-- LUT with every entry `None` (R31). -/
def Lut.empty : Lut := Vector.replicate 257 none

/-- The reset values of 10_state.md R31. -/
def Regs.reset : Regs where
  occ := Occ.zero
  tree := none
  work := []
  lut := Lut.empty
  cur := none
  phase := .idle
  fault := none

/-- No transfer reports an error. -/
def IoErrors.none : IoErrors where
  byteIn := []
  byteOut := []
  bitIn := []
  bitOut := []

/-- Channels on which the host has put nothing (DESIGN CHOICE, log entry 2: the channels are not state of the CORE and R31
gives them no value). -/
def Io.empty : Io where
  cmd := []
  responses := []
  byteIn := []
  bitIn := []
  errors := IoErrors.none
  events := []

/-- The machine right after reset (R31, R260), with nothing on its channels. -/
def State.reset : State where
  regs := Regs.reset
  io := Io.empty

end Sys2Proof.Machine
end

