-- ==== Sys2Proof/Machine/Flags.lean ====
section
/-! DEFINITION. STATUS (10_state.md R27) and its codes: PHASE (R26), FCAUSE and FINFO (60_exceptions.md R221, R222), FVAL. The
CORE has no condition flag but `STATUS.FAULT` (R29). -/

namespace Sys2Proof.Machine

/-- The 3-bit code of PHASE (R26). -/
def Phase.code : Phase → BitVec 3
  | .idle => 0
  | .counted => 1
  | .tree => 2
  | .injected => 3
  | .tabled => 4
  | .done => 5

/-- The cause without its qualifier. -/
def Cause.name : Cause → CauseName
  | .io _ => .io
  | .prematureEos _ => .prematureEos
  | .empty => .empty
  | .lutMiss _ => .lutMiss
  | .seq => .seq
  | .illCmd => .illCmd
  | .capacity => .capacity
  | .ovf _ => .ovf

/-- The cause codes of R221. -/
def CauseName.code : CauseName → BitVec 4
  | .io => 1
  | .prematureEos => 2
  | .empty => 3
  | .lutMiss => 4
  | .seq => 5
  | .illCmd => 6
  | .capacity => 7
  | .ovf => 8

/-- The `E_IO` qualifier of R222. -/
def Channel.info : Channel → BitVec 3
  | .byteIn => 1
  | .byteOut => 2
  | .bitIn => 3
  | .bitOut => 4

/-- The `E_PREMATURE_EOS` qualifier of R222. -/
def EosSite.info : EosSite → BitVec 3
  | .hdrFlag => 1
  | .hdrByte => 2
  | .payload => 3

/-- The `E_OVF` qualifier of R222. -/
def OvfSite.info : OvfSite → BitVec 3
  | .count => 1
  | .build => 2

/-- `STATUS.FCAUSE` of a cause (R221). -/
def Cause.code (c : Cause) : BitVec 4 :=
  c.name.code

/-- `STATUS.FINFO` of a cause (R222): 0 where the cause has no qualifier. -/
def Cause.info : Cause → BitVec 3
  | .io ch => ch.info
  | .prematureEos site => site.info
  | .empty => 0
  | .lutMiss _ => 0
  | .seq => 0
  | .illCmd => 0
  | .capacity => 0
  | .ovf site => site.info

/-- `STATUS.FVAL` of a cause (R27): the missing byte value, zero-extended, for `E_LUT_MISS`; 0 for every other. -/
def Cause.val : Cause → BitVec 9
  | .io _ => 0
  | .prematureEos _ => 0
  | .empty => 0
  | .lutMiss v => v.setWidth 9
  | .seq => 0
  | .illCmd => 0
  | .capacity => 0
  | .ovf _ => 0

/-- The fields of STATUS above PHASE, bits 31:3 (R27): reserved, FVAL, FOP, FINFO, FCAUSE, FAULT. -/
def faultFields : Option FaultRecord → BitVec 29
  | none => 0
  | some f => (0 : BitVec 8) ++ f.cause.val ++ f.op ++ f.cause.info ++ f.cause.code ++ (1 : BitVec 1)

/-- The 32 bits of STATUS (R27). -/
def State.status (s : State) : BitVec 32 :=
  faultFields s.regs.fault ++ s.regs.phase.code

end Sys2Proof.Machine
end

