-- ==== Sys2Proof/Machine/Operands.lean ====
section
/-! DEFINITION. The operand forms: the one multi-bit field of the bit stream (30_encoding.md R82, R89), the symbol keys (R87)
and the access to the two indexed registers OCC and LUT (00_scope.md R11). -/

namespace Sys2Proof.Machine

/-- `bits8` of R9: the 8 bits of a byte, most significant first. -/
def bits8 (v : Byte) : Bits :=
  [v.getLsbD 7, v.getLsbD 6, v.getLsbD 5, v.getLsbD 4, v.getLsbD 3, v.getLsbD 2, v.getLsbD 1, v.getLsbD 0]

/-- The number a bit sequence spells, first bit most significant. -/
def natOfBits (s : Bits) : Nat :=
  s.foldl (fun n b => 2 * n + b.toNat) 0

/-- `val8` of R9: the byte an 8-bit sequence spells, `sum of s[i] * 2^(7-i)`. -/
def val8 (s : Bits) : Byte :=
  BitVec.ofNat 8 (natOfBits s)

/-- A symbol of R87: a byte value, or End-of-Stream. -/
inductive Sym where
  | byte (b : Byte)
  | eos
  deriving DecidableEq, Repr

/-- The index of a symbol into LUT (R82, R87): `zext_9(v)` for a byte value, 256 for End-of-Stream. -/
def Sym.key : Sym → Nat
  | .byte b => b.toNat
  | .eos => Config.eosKey

theorem Sym.key_lt (s : Sym) : s.key < 257 := by
  cases s with
  | byte b => have := b.isLt; simp only [Sym.key]; omega
  | eos => decide

/-- `OCC[b]` of R11. -/
def occGet (o : Occ) (b : Byte) : Count :=
  o[b.toNat]'b.isLt

/-- `OCC[b] <- v` of R11. -/
def occSet (o : Occ) (b : Byte) (v : Count) : Occ :=
  o.set b.toNat v b.isLt

/-- `LUT[s]` of R11. -/
def lutGet (t : Lut) (s : Sym) : Option Bits :=
  t[s.key]'s.key_lt

/-- `LUT[s] <- p` of R11, for a code `p`. -/
def lutSet (t : Lut) (s : Sym) (p : Bits) : Lut :=
  t.set s.key (some p) s.key_lt

/-- The byte values 0, 1, ..., 255 in ascending order (R122). -/
def allBytes : List Byte :=
  (List.range 256).map (BitVec.ofNat 8)

end Sys2Proof.Machine
end

