-- ==== Sys2Proof/Machine/Ops.lean ====
section
/-! DEFINITION. The named operations: writes of the registers, the channel primitives (00_scope.md R12), the loop every
streaming command runs, admission (60_exceptions.md R227), fault entry (R228), the faulted state's refusal (R229), the
return from a fault (R230), and the common frame of a command (40_session_and_count.md R110). -/

namespace Sys2Proof.Machine

/-! ### Register writes -/

def State.setOcc (s : State) (v : Occ) : State :=
  { s with regs := { s.regs with occ := v } }

def State.setTree (s : State) (v : Option Tree) : State :=
  { s with regs := { s.regs with tree := v } }

def State.setWork (s : State) (v : List Tree) : State :=
  { s with regs := { s.regs with work := v } }

def State.setLut (s : State) (v : Lut) : State :=
  { s with regs := { s.regs with lut := v } }

def State.setCur (s : State) (v : Option Tree) : State :=
  { s with regs := { s.regs with cur := v } }

def State.setPhase (s : State) (v : Phase) : State :=
  { s with regs := { s.regs with phase := v } }

def State.setFault (s : State) (v : Option FaultRecord) : State :=
  { s with regs := { s.regs with fault := v } }

def State.setRegs (s : State) (v : Regs) : State :=
  { s with regs := v }

/-! ### The host's side of the channels -/

def State.setCmd (s : State) (v : List CmdWord) : State :=
  { s with io := { s.io with cmd := v } }

def State.setByteIn (s : State) (v : List ByteItem) : State :=
  { s with io := { s.io with byteIn := v } }

def State.setBitIn (s : State) (v : List Bit) : State :=
  { s with io := { s.io with bitIn := v } }

def State.setErrors (s : State) (v : IoErrors) : State :=
  { s with io := { s.io with errors := v } }

/-- Append events to the event list (R12). -/
def State.record (s : State) (es : List Event) : State :=
  { s with io := { s.io with events := s.io.events ++ es } }

/-- Give the response to the running command word (R110, decision D27). -/
def State.respond (s : State) (r : Response) : State :=
  { s with io := { s.io with responses := s.io.responses ++ [r] } }

/-- The byte an event puts on BYTE_OUT, if it does. -/
def Event.byteOut? : Event → Option Byte
  | .outByte v => some v
  | .inByte _ => none
  | .inEnd => none
  | .inBit _ => none
  | .inShort => none
  | .outBit _ => none
  | .outFlush => none

/-- The item an event puts on BIT_OUT, if it does. -/
def Event.bitOut? : Event → Option BitItem
  | .outBit b => some (.bit b)
  | .outFlush => some .flush
  | .outByte _ => none
  | .inByte _ => none
  | .inEnd => none
  | .inBit _ => none
  | .inShort => none

/-- What the host has received on BYTE_OUT, in order (20_memory.md R52). -/
def State.byteOut (s : State) : List Byte :=
  s.io.events.filterMap Event.byteOut?

/-- What the host has received on BIT_OUT, in order (20_memory.md R53 to R55). -/
def State.bitOut (s : State) : List BitItem :=
  s.io.events.filterMap Event.bitOut?

/-! ### Channel transfers -/

/-- The coming transfers of a channel (R69). -/
def IoErrors.on (e : IoErrors) : Channel → List Bool
  | .byteIn => e.byteIn
  | .byteOut => e.byteOut
  | .bitIn => e.bitIn
  | .bitOut => e.bitOut

/-- One transfer of a channel is made. -/
def IoErrors.advance (e : IoErrors) : Channel → IoErrors
  | .byteIn => { e with byteIn := e.byteIn.tail }
  | .byteOut => { e with byteOut := e.byteOut.tail }
  | .bitIn => { e with bitIn := e.bitIn.tail }
  | .bitOut => { e with bitOut := e.bitOut.tail }

/-- Whether the next transfer on the channel reports an error instead of completing (R69). -/
def State.fails (s : State) (ch : Channel) : Bool :=
  (s.io.errors.on ch).headD false

/-- The state after one transfer on the channel has been made or has reported its error. A transfer that reports an error
moves no item and records no event (DEDUCED, log entry 5). -/
def State.transfer (s : State) (ch : Channel) : State :=
  s.setErrors (s.io.errors.advance ch)

/-- The result of an input primitive: the items, too few items, or an I/O error. -/
inductive Got (α : Type) where
  | got (a : α) (s : State)
  | short (s : State)
  | failed (s : State)
  deriving Repr

/-- `ByteIn()` of R12, R51. `short` is a channel with no further item: no `End` has come (R275,
log entry 6). -/
def byteIn (s : State) : Got ByteItem :=
  let t := s.transfer .byteIn
  if s.fails .byteIn then .failed t
  else match s.io.byteIn with
    | [] => .short t
    | .byte v :: rest => .got (.byte v) ((t.setByteIn rest).record [.inByte v])
    | .packetEnd :: rest => .got .packetEnd ((t.setByteIn rest).record [.inEnd])

/-- `BitAvail()` of R12, R56: it consumes nothing, records nothing and reports no error (R69). -/
def bitAvail (s : State) : Bool :=
  !s.io.bitIn.isEmpty

/-- `BitRead()` of R12, R57. -/
def bitRead (s : State) : Got Bit :=
  let t := s.transfer .bitIn
  if s.fails .bitIn then .failed t
  else match s.io.bitIn with
    | [] => .short t
    | b :: rest => .got b ((t.setBitIn rest).record [.inBit b])

/-- `BitReadN(n)` of R12, R58: one transfer. On `Short` the packet is left unchanged (decision D21,
log entry 8). -/
def bitReadN (n : Nat) (s : State) : Got Bits :=
  let t := s.transfer .bitIn
  if s.fails .bitIn then .failed t
  else if s.io.bitIn.length < n then .short (t.record [.inShort])
  else .got (s.io.bitIn.take n) ((t.setBitIn (s.io.bitIn.drop n)).record ((s.io.bitIn.take n).map .inBit))

/-! ### Running a command -/

/-- How a running command, or a part of one, ends: it goes through, it raises a cause (R13), or the spec gives it no
transition. -/
inductive Run where
  | done (s : State)
  | raised (c : Cause) (s : State)
  | stuck (f : Fault)
  deriving Repr

/-- Go on with `k` where the part before went through. -/
def Run.andThen (r : Run) (k : State → Run) : Run :=
  match r with
  | .done s => k s
  | .raised c s => .raised c s
  | .stuck f => .stuck f

/-- An output transfer that records one event, or raises `E_IO` of its channel (R12, R224). -/
def send (ch : Channel) (e : Event) (s : State) : Run :=
  let t := s.transfer ch
  if s.fails ch then .raised (.io ch) t
  else .done (t.record [e])

/-- `ByteOut(v)` of R12, R52. -/
def byteOut (v : Byte) (s : State) : Run :=
  send .byteOut (.outByte v) s

/-- `BitWrite(b)` of R12, R53. -/
def bitWrite (b : Bit) (s : State) : Run :=
  send .bitOut (.outBit b) s

/-- `BitWriteSeq(s)` of R12, R54: `BitWrite` of each bit in order. -/
def bitWriteSeq : Bits → State → Run
  | [], s => .done s
  | b :: bs, s => (bitWrite b s).andThen (bitWriteSeq bs)

/-- `BitFlush()` of R12, R55. -/
def bitFlush (s : State) : Run :=
  send .bitOut .outFlush s

/-- One pass of a command's loop: again, or out of the loop. -/
inductive Pass where
  | again (s : State)
  | out (r : Run)
  deriving Repr

/-- Go on with `k` where a part of the pass went through; else the loop is left. -/
def Run.toPass (r : Run) (k : State → Pass) : Pass :=
  match r with
  | .done s => k s
  | .raised c s => .out (.raised c s)
  | .stuck f => .out (.stuck f)

/-- A command's loop, for at most `n` passes. `f` names what it means that the passes run out: each command gives a bound at
which that is the same as never ending (log entry 12). -/
def loop (pass : State → Pass) (f : Fault) : Nat → State → Run
  | 0, _ => .stuck f
  | n + 1, s =>
    match pass s with
    | .again t => loop pass f n t
    | .out r => r

/-! ### Admission, faults, completion -/

/-- The phases in which a command is admitted: 30_encoding.md R84, second column. -/
def admits : Instr → Phase → Bool
  | .clr, _ => true
  | .count, p => p = .idle
  | .build, p => p = .counted
  | .ser, p => p = .tree
  | .deser, p => p = .idle
  | .inj, p => p = .tree
  | .lut, p => p = .injected
  | .enc, p => p = .tabled
  | .dec, p => p = .injected || p = .tabled

/-- The phase a command leaves when it completes `OK`: R84, third column. -/
def phaseAfter : Instr → Phase
  | .clr => .idle
  | .count => .counted
  | .build => .tree
  | .ser => .tree
  | .deser => .tree
  | .inj => .injected
  | .lut => .tabled
  | .enc => .done
  | .dec => .done

/-- TAKING A FAULT (60_exceptions.md R228): STATUS records the cause and the opcode, CUR becomes `None` and WORK `[]`, PHASE
and the data registers stay, and the response is `FAULT(cause)` (log entry 10). -/
def faultEntry (op : CmdWord) (c : Cause) (s : State) : State :=
  (((s.setFault (some { cause := c, op := op })).setCur none).setWork []).respond (.fault c.name)

/-- RETURN FROM A FAULT, and the start of a session (60_exceptions.md R230, 40_session_and_count.md R111): every item of the
CORE takes its reset value (10_state.md R31). No channel is touched (R262). -/
def clearCore (s : State) : State :=
  s.setRegs Regs.reset

/-- The faulted state (60_exceptions.md R229): the recorded cause is answered and nothing changes. -/
def refuse (f : FaultRecord) (s : State) : State :=
  s.respond (.fault f.cause.name)

/-- Admission of a command other than CLR (60_exceptions.md R227, checks 2, 4 and 5; check 3 is `execReserved`). -/
def ifAdmitted (i : Instr) (s : State) (body : State → Host.Outcome State Fault Refusal) :
    Host.Outcome State Fault Refusal :=
  match s.regs.fault with
  | some f => .next (refuse f s)
  | none => if admits i s.regs.phase then body s else .next (faultEntry (encode i) .seq s)

/-- The end of a command (40_session_and_count.md R110 (c), (d)). -/
def complete (i : Instr) : Run → Host.Outcome State Fault Refusal
  | .done s => .next ((s.setPhase (phaseAfter i)).respond .ok)
  | .raised c s => .next (faultEntry (encode i) c s)
  | .stuck f => .fault f

/-- The end of a session (45_stream_encoder.md R184, 46_stream_decoder.md R197): OCC, TREE and LUT are cleared. -/
def discardData (s : State) : State :=
  ((s.setOcc Occ.zero).setTree none).setLut Lut.empty

/-- A word that selects no command (60_exceptions.md R226, R227 checks 2 and 3). -/
def execReserved (w : CmdWord) (s : State) : Host.Outcome State Fault Refusal :=
  match s.regs.fault with
  | some f => .next (refuse f s)
  | none => .next (faultEntry w .illCmd s)

/-- Take the next command word off channel CMD (20_memory.md R66 (a)): `none` while the host has issued none. -/
def takeCommand (s : State) : Option (CmdWord × State) :=
  match s.io.cmd with
  | [] => none
  | w :: rest => some (w, s.setCmd rest)

/-- Put a command word where the next one is taken from. -/
def putCommand (w : CmdWord) (s : State) : State :=
  s.setCmd (w :: s.io.cmd)

end Sys2Proof.Machine
end

