-- ==== Sys2Proof/Machine/Trees.lean ====
section
/-! DEFINITION. The helper functions of the tree type (00_scope.md R10), and the tree functions of the codec, the injector and
the table: `Ser` (30_encoding.md R90), `zero` (42_tree_codec.md R149), `Inject` (43_sentinel_injector.md R161), `Walk`
(44_lookup_table.md R171). -/

namespace Sys2Proof.Machine

/-- `count` of R10. -/
def Tree.count : Tree → Count
  | .char _ c => c
  | .eos => 0
  | .inner c _ _ => c

/-- `height` of R10. -/
def Tree.height : Tree → Nat
  | .char _ _ => 0
  | .eos => 0
  | .inner _ l r => 1 + max l.height r.height

/-- `leaves` of R10. -/
def Tree.leaves : Tree → Nat
  | .char _ _ => 1
  | .eos => 1
  | .inner _ l r => l.leaves + r.leaves

/-- `inners` of R10. -/
def Tree.inners : Tree → Nat
  | .char _ _ => 0
  | .eos => 0
  | .inner _ l r => 1 + l.inners + r.inners

/-- `hasEos` of R10. -/
def Tree.hasEos : Tree → Bool
  | .char _ _ => false
  | .eos => true
  | .inner _ l r => l.hasEos || r.hasEos

/-- `Ser` of R90, the header of a tree. `Ser(Eos)` is not defined: SER stops by name on a tree with an `Eos` leaf before it
calls this (Machine/Codec.lean, log entry 11). -/
def Tree.ser : Tree → Bits
  | .char b _ => true :: bits8 b
  | .eos => []
  | .inner _ l r => false :: (l.ser ++ r.ser)

/-- `zero` of R149: the tree with every count replaced by 0. -/
def Tree.zero : Tree → Tree
  | .char b _ => .char b 0
  | .eos => .eos
  | .inner _ l r => .inner 0 l.zero r.zero

/-- `Inject` of R161. `Inject(Eos)` is not defined: INJ stops by name on a tree with an `Eos` leaf before it calls this
(Machine/Sentinel.lean, log entry 11). -/
def Tree.inject : Tree → Tree
  | .char b c => .inner c (.char b c) .eos
  | .eos => .eos
  | .inner c l r => if l.height ≤ r.height then .inner c l r.inject else .inner c l.inject r

/-- `Walk` of R171: record the path of every leaf, left before right. -/
def Tree.walk : Tree → Bits → Lut → Lut
  | .char b _, p, t => lutSet t (.byte b) p
  | .eos, p, t => lutSet t .eos p
  | .inner _ l r, p, t => r.walk (p ++ [true]) (l.walk (p ++ [false]) t)

end Sys2Proof.Machine
end

