-- ==== Sys2Proof/Machine/Builder.lean ====
section
/-! DEFINITION. The meaning of BUILD (41_tree_builder.md). -/

namespace Sys2Proof.Machine

/-- The leaf of a byte value, where its count is not 0 (R122). -/
def leafOf (o : Occ) (b : Byte) : Option Tree :=
  if occGet o b = 0 then none else some (.char b (occGet o b))

/-- The initial collection (R122): one leaf per byte value with a nonzero count, in ascending byte-value order. -/
def initialWork (o : Occ) : List Tree :=
  allBytes.filterMap (leafOf o)

/-- Insert a tree before the first tree whose count is not larger. -/
def insertDesc (t : Tree) : List Tree → List Tree
  | [] => [t]
  | u :: us => if u.count.toNat ≤ t.count.toNat then t :: u :: us else u :: insertDesc t us

/-- `StableSortDesc` (R124): by descending count, equal counts in their order. -/
def sortDesc : List Tree → List Tree
  | [] => []
  | t :: ts => insertDesc t (sortDesc ts)

/-- The merged node of the last tree `x` and the one before it `y` (R128). -/
def mergeNodes : Pair → Tree → Tree → Tree
  | .lastIsLeft, x, y => .inner (x.count + y.count) x y
  | .lastIsRight, x, y => .inner (x.count + y.count) y x

/-- Put the merged node back into the collection (R128). -/
def putBack : Reinsert → Tree → List Tree → List Tree
  | .front, m, w => m :: w
  | .back, m, w => w ++ [m]

/-- What one pass of the loop makes of the collection. -/
inductive Merged where
  | none
  | root (t : Tree)
  | tooLarge
  | work (w : List Tree)
  deriving DecidableEq, Repr

/-- One pass over the collection (R121): sort; one node is the root (R126); else the two at the tail are removed (R127), and
merged and put back (R128) where the sum fits 64 bits (R129). -/
def mergePass (re : Reinsert) (pr : Pair) (w : List Tree) : Merged :=
  match (sortDesc w).reverse with
  | [] => .none
  | [t] => .root t
  | x :: y :: rest =>
    if 2 ^ 64 ≤ x.count.toNat + y.count.toNat then .tooLarge
    else .work (putBack re (mergeNodes pr x y) rest.reverse)

/-- One pass of BUILD's loop over register WORK. -/
def buildPass (s : State) : Pass :=
  match mergePass Config.reinsert Config.pair s.regs.work with
  | .none => .out (.stuck .emptyWork)
  | .root t => .out (.done ((s.setTree (some t)).setWork []))
  | .tooLarge => .out (.raised (.ovf .build) (s.setWork []))
  | .work w => .again (s.setWork w)

/-- BUILD's pseudocode (R121, R123). Every pass but the last leaves one tree less, so the leaves bound the passes (R126). -/
def buildRun (s : State) : Run :=
  let t := s.setWork (initialWork s.regs.occ)
  if t.regs.work = [] then .raised .empty t
  else loop buildPass .emptyWork t.regs.work.length t

/-- BUILD (R121). -/
def execBuild (s : State) : Host.Outcome State Fault Refusal :=
  ifAdmitted .build s fun s => complete .build (buildRun s)

end Sys2Proof.Machine
end

