-- ==== Sys2Proof/Machine/Codec.lean ====
section
/-! DEFINITION. The meanings of SER and DESER (42_tree_codec.md). -/

namespace Sys2Proof.Machine

/-- SER's pseudocode (R141): the bits written are exactly `Ser(TREE)`, each one transfer. -/
def serRun (s : State) : Run :=
  match s.regs.tree with
  | none => .stuck .noTree
  | some t => if t.hasEos then .stuck .eosInTree else bitWriteSeq t.ser s

/-- SER (R141). -/
def execSer (s : State) : Host.Outcome State Fault Refusal :=
  ifAdmitted .ser s fun s => complete .ser (serRun s)

/-- The result of `Parse()` of R146: the subtree and the Inner flags read so far, or a fault. -/
inductive Parsed where
  | tree (t : Tree) (ni : Nat) (s : State)
  | raised (c : Cause) (s : State)
  deriving Repr

/-- `Parse()` of R146, with the transient counter `ni` (R30). Every call reads a bit or raises, so the bits left bound the
depth of the calls: at bound 0 there is no bit where a flag is due. -/
def parse : Nat → Nat → State → Parsed
  | 0, _, s => .raised (.prematureEos .hdrFlag) s
  | n + 1, ni, s =>
    if bitAvail s = false then .raised (.prematureEos .hdrFlag) s
    else match bitRead s with
      | .failed t => .raised (.io .bitIn) t
      | .short t => .raised (.prematureEos .hdrFlag) t
      | .got true t =>
        match bitReadN 8 t with
        | .failed u => .raised (.io .bitIn) u
        | .short u => .raised (.prematureEos .hdrByte) u
        | .got g u => .tree (.char (val8 g) 0) ni u
      | .got false t =>
        if ni = Config.leafCap - 1 then .raised .capacity t
        else match parse n (ni + 1) t with
          | .raised c u => .raised c u
          | .tree l nl u =>
            match parse n nl u with
            | .raised c v => .raised c v
            | .tree r nr v => .tree (.inner 0 l r) nr v

/-- DESER's pseudocode (R146): on a fault the tree parsed so far is dropped (decision D28). -/
def deserRun (s : State) : Run :=
  match parse s.io.bitIn.length 0 s with
  | .raised c t => .raised c t
  | .tree t _ u => .done (u.setTree (some t))

/-- DESER (R146). -/
def execDeser (s : State) : Host.Outcome State Fault Refusal :=
  ifAdmitted .deser s fun s => complete .deser (deserRun s)

end Sys2Proof.Machine
end

