-- ==== Sys2Proof/Machine/Decoder.lean ====
section
/-! DEFINITION. The meaning of DEC (46_stream_decoder.md). -/

namespace Sys2Proof.Machine

/-- One pass of DEC's loop (R191), which is one step of the source's state machine: the `Eos` test, then the exhaustion test
(R192, R194) with its salvage (R193), then the leaf or the bit read. -/
def decPass (root : Tree) (s : State) : Pass :=
  match s.regs.cur with
  | none => .out (.stuck .noTree)
  | some .eos => .out (.done s)
  | some (.char b _) =>
    if bitAvail s = false then (byteOut b s).toPass fun t => .out (.raised (.prematureEos .payload) t)
    else (byteOut b s).toPass fun t => .again (t.setCur (some root))
  | some (.inner _ l r) =>
    if bitAvail s = false then .out (.raised (.prematureEos .payload) s)
    else match bitRead s with
      | .failed t => .out (.raised (.io .bitIn) t)
      | .short t => .out (.raised (.prematureEos .payload) t)
      | .got false t => .again (t.setCur (some l))
      | .got true t => .again (t.setCur (some r))

/-- A number of passes at which DEC's loop, on a root that is Inner, has ended (R195: at most two passes per bit plus one);
where the root is a Character leaf, so that every pass emits, it is past the last transfer of BYTE_OUT that can fail. -/
def decBound (s : State) : Nat :=
  2 * s.io.bitIn.length + s.io.errors.byteOut.length + 2

/-- DEC's pseudocode (R191) and the end of the session (R197). -/
def decRun (s : State) : Run :=
  match s.regs.tree with
  | none => .stuck .noTree
  | some root =>
    (loop (decPass root) .decNeverEnds (decBound s) (s.setCur (some root))).andThen
      fun t => .done (discardData (t.setCur none))

/-- DEC (R191). -/
def execDec (s : State) : Host.Outcome State Fault Refusal :=
  ifAdmitted .dec s fun s => complete .dec (decRun s)

end Sys2Proof.Machine
end

