-- ==== Sys2Proof/Machine/Encoder.lean ====
section
/-! DEFINITION. The meaning of ENC (45_stream_encoder.md). -/

namespace Sys2Proof.Machine

/-- One pass of ENC's loop (R181, R183). -/
def encPass (s : State) : Pass :=
  match byteIn s with
  | .failed t => .out (.raised (.io .byteIn) t)
  | .short _ => .out (.stuck .byteInStarved)
  | .got .packetEnd t => .out (.done t)
  | .got (.byte v) t =>
    match lutGet t.regs.lut (.byte v) with
    | none => .out (.raised (.lutMiss v) t)
    | some p => (bitWriteSeq p t).toPass .again

/-- The terminator (R181): the End-of-Stream code. -/
def encTerminator (s : State) : Run :=
  match lutGet s.regs.lut .eos with
  | none => .stuck .noTerminatorCode
  | some p => bitWriteSeq p s

/-- ENC's pseudocode (R181): the codes of the packet, the terminator, the flush, the end of the session (R184). -/
def encRun (s : State) : Run :=
  (((loop encPass .byteInStarved (s.io.byteIn.length + 1) s).andThen encTerminator).andThen bitFlush).andThen
    fun t => .done (discardData t)

/-- ENC (R181). -/
def execEnc (s : State) : Host.Outcome State Fault Refusal :=
  ifAdmitted .enc s fun s => complete .enc (encRun s)

end Sys2Proof.Machine
end

