-- ==== Sys2Proof/Machine/Sentinel.lean ====
section
/-! DEFINITION. The meaning of INJ (43_sentinel_injector.md). -/

namespace Sys2Proof.Machine

/-- INJ's pseudocode (R161): it takes a tree with Character leaves only and touches no channel. -/
def injRun (s : State) : Run :=
  match s.regs.tree with
  | none => .stuck .noTree
  | some t => if t.hasEos then .stuck .eosInTree else .done (s.setTree (some t.inject))

/-- INJ (R161). -/
def execInj (s : State) : Host.Outcome State Fault Refusal :=
  ifAdmitted .inj s fun s => complete .inj (injRun s)

end Sys2Proof.Machine
end

