-- ==== Sys2Proof/Machine/Session.lean ====
section
/-! DEFINITION. The meanings of CLR and COUNT (40_session_and_count.md). -/

namespace Sys2Proof.Machine

/-- CLR (R111): always admitted, cannot fault, touches no channel. -/
def execClr (s : State) : Host.Outcome State Fault Refusal :=
  complete .clr (.done (clearCore s))

/-- One pass of COUNT's loop (R113, R114). -/
def countPass (s : State) : Pass :=
  match byteIn s with
  | .failed t => .out (.raised (.io .byteIn) t)
  | .short _ => .out (.stuck .byteInStarved)
  | .got .packetEnd t => .out (.done t)
  | .got (.byte v) t =>
    if occGet t.regs.occ v = Count.max then .out (.raised (.ovf .count) t)
    else .again (t.setOcc (occSet t.regs.occ v (occGet t.regs.occ v + 1)))

/-- COUNT's pseudocode. Every pass but the last takes an item, so the items on BYTE_IN bound the passes. -/
def countRun (s : State) : Run :=
  loop countPass .byteInStarved (s.io.byteIn.length + 1) s

/-- COUNT (R113). -/
def execCount (s : State) : Host.Outcome State Fault Refusal :=
  ifAdmitted .count s fun s => complete .count (countRun s)

end Sys2Proof.Machine
end

