-- ==== Sys2Proof/Machine/Table.lean ====
section
/-! DEFINITION. The meaning of LUT (44_lookup_table.md). -/

namespace Sys2Proof.Machine

/-- The table of a tree (R171): cleared, then every leaf's path recorded. -/
def lutOf (t : Tree) : Lut :=
  t.walk [] Lut.empty

/-- LUT's pseudocode (R171). -/
def lutRun (s : State) : Run :=
  match s.regs.tree with
  | none => .stuck .noTree
  | some t => .done (s.setLut (lutOf t))

/-- LUT (R171). -/
def execLut (s : State) : Host.Outcome State Fault Refusal :=
  ifAdmitted .lut s fun s => complete .lut (lutRun s)

end Sys2Proof.Machine
end

