-- ==== Sys2Proof/Machine/Step.lean ====
section
/-! DEFINITION. One step: one command word, from the host's issue of it to its response (00_scope.md R7, 20_memory.md R66). -/

namespace Sys2Proof.Machine

/-- While the host has issued no word the CORE waits for one (10_state.md R31); a word selects a command (R81) or is reserved
(60_exceptions.md R226). -/
def step (s : State) : Host.Outcome State Fault Refusal :=
  match takeCommand s with
  | none => .next s
  | some (w, t) =>
    match decode w with
    | .ok i => exec i t
    | .error _ => execReserved w t

/-- The opcode table's word `w` issued as the next command word (log entry 3). -/
def State.withFetchWord (s : State) (nbits w : Nat) : State :=
  putCommand (tableWord nbits w) s

end Sys2Proof.Machine
end

