-- ==== Sys2Proof/Machine/HostSide.lean ====
section
/-! DEFINITION. What the host does between commands (60_exceptions.md R250, 70_reset_and_hazards.md R260 to R262, R272). None
of it is a step of the CORE; each is a function from the state before to the state after. -/

namespace Sys2Proof.Machine

/-- The items of one byte packet (20_memory.md R51): its bytes, then `End`. -/
def packetItems (bs : List Byte) : List ByteItem :=
  bs.map .byte ++ [.packetEnd]

/-- The host issues a command word, after the words it has issued before. -/
def hostIssue (w : CmdWord) (s : State) : State :=
  s.setCmd (s.io.cmd ++ [w])

/-- The host supplies one more byte packet on BYTE_IN (R51). -/
def hostSupplyPacket (bs : List Byte) (s : State) : State :=
  s.setByteIn (s.io.byteIn ++ packetItems bs)

/-- The items after the packet that is being read. -/
def afterPacket : List ByteItem → List ByteItem
  | [] => []
  | .byte _ :: rest => afterPacket rest
  | .packetEnd :: rest => rest

/-- The host discards what is unread of the packet on BYTE_IN (R262). -/
def hostDiscardPacket (s : State) : State :=
  s.setByteIn (afterPacket s.io.byteIn)

/-- The host discards what is unread on BIT_IN and presents a fresh packet (R272). -/
def hostPresentBits (bs : Bits) (s : State) : State :=
  s.setBitIn bs

/-- Reset between commands (R260): the state of CLR, and no item on any channel moves (R262). A reset while a command runs is
left out, as R261 lets a model do (log entry 13). -/
def hostReset (s : State) : State :=
  clearCore s

end Sys2Proof.Machine
end

