-- ==== Sys2Proof/Safety.lean ====
section
/-! DEFINITION. The terms the statements use: what holds of a stored tree and of the registers in each phase (10_state.md R22,
R26), which command can record which cause (60_exceptions.md R232), the codes of a tree (30_encoding.md R91), the
environment's good behaviour (00_scope.md R14), and the two sessions (30_encoding.md R86). -/

namespace Sys2Proof.Machine

/-! ### Trees -/

/-- The count invariant (R22, R206): every Inner node's count is the sum of its children's. -/
def Tree.countOk : Tree → Bool
  | .char _ _ => true
  | .eos => true
  | .inner c l r => decide (c.toNat = l.count.toNat + r.count.toNat) && l.countOk && r.countOk

/-- The root is an Inner node. -/
def Tree.isInner : Tree → Bool
  | .char _ _ => false
  | .eos => false
  | .inner _ _ _ => true

/-- How many `Eos` leaves a tree has. -/
def Tree.eosLeaves : Tree → Nat
  | .char _ _ => 0
  | .eos => 1
  | .inner _ l r => l.eosLeaves + r.eosLeaves

/-- No `Eos` leaf is a left child. -/
def Tree.eosRight : Tree → Bool
  | .char _ _ => true
  | .eos => true
  | .inner _ l r => decide (l ≠ .eos) && l.eosRight && r.eosRight

/-- What R26 says of TREE in `P_TREE`. -/
def Tree.builtOk (t : Tree) : Bool :=
  !t.hasEos && decide (t.leaves ≤ Config.leafCap) && t.countOk

/-- What R26 says of TREE in `P_INJECTED` and `P_TABLED`. -/
def Tree.injectedOk (t : Tree) : Bool :=
  t.isInner && decide (t.eosLeaves = 1) && t.eosRight && decide (t.leaves ≤ Config.leafCap + 1) && t.countOk

/-- The Character leaves of a tree with their counts, left to right. -/
def Tree.chars : Tree → List (Byte × Count)
  | .char b c => [(b, c)]
  | .eos => []
  | .inner _ l r => l.chars ++ r.chars

/-- The leaves of a tree with their codes (R91: left edge 0, right edge 1, first edge first), left to right. -/
def Tree.codes : Tree → List (Sym × Bits)
  | .char b _ => [(.byte b, [])]
  | .eos => [(.eos, [])]
  | .inner _ l r =>
    l.codes.map (fun e => (e.1, false :: e.2)) ++ r.codes.map (fun e => (e.1, true :: e.2))

/-- The code a table of a tree holds for a symbol (R171, R173): that of its last leaf, left to right. -/
def Tree.lastCode (t : Tree) (s : Sym) : Option Bits :=
  ((t.codes.filter fun e => e.1 = s).getLast?).map Prod.snd

/-- The sum over the leaves of count times depth (R131 (e)), for a tree whose root is at depth `d`. -/
def Tree.cost : Tree → Nat → Nat
  | .char _ c, d => c.toNat * d
  | .eos, _ => 0
  | .inner _ l r, d => l.cost (d + 1) + r.cost (d + 1)

/-- The flags of a tree's header in preorder (30_encoding.md R88, R89): the position of each in the stream, where the header
begins at position `p`, and its value. -/
def Tree.flags : Tree → Nat → List (Nat × Bit)
  | .char _ _, p => [(p, true)]
  | .eos, _ => []
  | .inner _ l r, p => (p, false) :: (l.flags (p + 1) ++ r.flags (p + 1 + l.ser.length))

/-- The positions of the Inner flags of a tree's header in preorder, where the header begins at position `p`. -/
def Tree.innerFlags (t : Tree) (p : Nat) : List Nat :=
  ((t.flags p).filter fun f => !f.2).map Prod.fst

/-- How many bits each BIT_IN transfer of a tree's header takes, in order (42_tree_codec.md R146): one for a flag, eight for a
byte value. -/
def Tree.readWidths : Tree → List Nat
  | .char _ _ => [1, 8]
  | .eos => []
  | .inner _ l r => 1 :: (l.readWidths ++ r.readWidths)

/-! ### Registers -/

/-- What R26 says holds in each phase. A COUNT that faulted leaves its increments in OCC and PHASE at `P_IDLE` (R113), so the
claim on OCC in `P_IDLE` is for no fault recorded. -/
def Regs.PhaseOk (r : Regs) : Prop :=
  match r.phase with
  | .idle => (r.fault = none → r.occ = Occ.zero) ∧ r.tree = none ∧ r.lut = Lut.empty
  | .counted => r.tree = none ∧ r.lut = Lut.empty
  | .tree => (∃ t, r.tree = some t ∧ t.builtOk = true) ∧ r.lut = Lut.empty
  | .injected => (∃ t, r.tree = some t ∧ t.injectedOk = true) ∧ r.lut = Lut.empty
  | .tabled => ∃ t, r.tree = some t ∧ t.injectedOk = true ∧ r.lut = lutOf t ∧ lutGet r.lut .eos ≠ none
  | .done => r.occ = Occ.zero ∧ r.tree = none ∧ r.lut = Lut.empty

/-- The matrix of R232, with `E_SEQ` for every command but CLR and `E_ILLCMD` for the reserved opcodes. -/
def mayRecord (op : CmdWord) (c : Cause) : Bool :=
  match decode op with
  | .error _ => c = .illCmd
  | .ok .clr => false
  | .ok .count => c = .seq || c = .io .byteIn || c = .ovf .count
  | .ok .build => c = .seq || c = .empty || c = .ovf .build
  | .ok .ser => c = .seq || c = .io .bitOut
  | .ok .deser =>
    c = .seq || c = .io .bitIn || c = .prematureEos .hdrFlag || c = .prematureEos .hdrByte || c = .capacity
  | .ok .inj => c = .seq
  | .ok .lut => c = .seq
  | .ok .enc => c = .seq || c = .io .byteIn || c = .io .bitOut || c.name = .lutMiss
  | .ok .dec => c = .seq || c = .io .bitIn || c = .io .byteOut || c = .prematureEos .payload

/-- Between commands: WORK is empty and CUR is `None` (R23, R25), the phase says what the data registers hold (R26), and a
recorded fault is one its command can raise (R232). -/
structure State.Inv (s : State) : Prop where
  work : s.regs.work = []
  cur : s.regs.cur = none
  phase : s.regs.PhaseOk
  fault : ∀ f, s.regs.fault = some f → mayRecord f.op f.cause = true

/-! ### The environment -/

/-- None of the next `n` transfers of a channel reports an error (R14, R69). -/
def IoErrors.quiet (e : IoErrors) (ch : Channel) (n : Nat) : Prop :=
  true ∉ (e.on ch).take n

/-- The transfer after the next `n` of a channel is the first to report an error (R69). -/
def IoErrors.failsAt (e : IoErrors) (ch : Channel) (n : Nat) : Prop :=
  e.quiet ch n ∧ (e.on ch)[n]? = some true

/-- No transfer reports an error: the premise of the session properties (R14, R200, R201). -/
def IoErrors.allQuiet (e : IoErrors) : Prop :=
  ∀ ch, true ∉ e.on ch

/-- The transfers left after `n` more on a channel. -/
def IoErrors.after (e : IoErrors) (ch : Channel) (n : Nat) : IoErrors :=
  match ch with
  | .byteIn => { e with byteIn := e.byteIn.drop n }
  | .byteOut => { e with byteOut := e.byteOut.drop n }
  | .bitIn => { e with bitIn := e.bitIn.drop n }
  | .bitOut => { e with bitOut := e.bitOut.drop n }

/-! ### Sessions -/

/-- Commands run one after another, up to the first that has no next state. -/
def runCmds : List Instr → State → Host.Outcome State Fault Refusal
  | [], s => .next s
  | i :: is, s =>
    match exec i s with
    | .next t => runCmds is t
    | .fault f => .fault f
    | .refused r => .refused r

/-- The pseudo-command ENCODE (R86). -/
def encodeSession : List Instr := [.clr, .count, .build, .ser, .inj, .lut, .enc]

/-- The pseudo-command DECODE (R86). -/
def decodeSession : List Instr := [.clr, .deser, .inj, .dec]

/-- The counts of a byte sequence (R113), for fewer than 2^64 bytes. -/
def occOf (bs : List Byte) : Occ :=
  Vector.ofFn fun i : Fin 256 => BitVec.ofNat 64 (bs.count (BitVec.ofNat 8 i.val))

/-- BUILD's loop on a collection, for at most `n` passes (R121). -/
def greedy : Nat → List Tree → Merged
  | 0, _ => .none
  | n + 1, w =>
    match mergePass Config.reinsert Config.pair w with
    | .work v => greedy n v
    | m => m

/-- The tree BUILD makes of a table of counts (R121), or why it makes none. -/
def builtTree (o : Occ) : Merged :=
  greedy (initialWork o).length (initialWork o)

/-- An entry of the priority queue of R130: a node, and for an Inner node when it was created. -/
structure Queued where
  node : Tree
  created : Nat
  deriving DecidableEq, Repr

/-- The order of R130: by ascending count; of equal counts leaves before Inner nodes, larger byte values first, Inner nodes
created earlier first. -/
def Queued.popsBefore (a b : Queued) : Bool :=
  decide (a.node.count.toNat < b.node.count.toNat) ||
    decide (a.node.count = b.node.count) &&
      match a.node, b.node with
      | .char x _, .char y _ => decide (y.toNat < x.toNat)
      | .char _ _, .inner _ _ _ => true
      | .inner _ _ _, .inner _ _ _ => decide (a.created < b.created)
      | .inner _ _ _, .char _ _ => false
      | .eos, _ => false
      | _, .eos => false

/-- Remove the entry that pops first. -/
def popFirst : List Queued → Option (Queued × List Queued)
  | [] => none
  | q :: qs =>
    match popFirst qs with
    | none => some (q, [])
    | some (m, rest) => if q.popsBefore m then some (q, m :: rest) else some (m, q :: rest)

/-- The greedy merge over a priority queue (R130), for at most `n` pops of a pair; `k` is the next creation number. -/
def queueBuild : Nat → Nat → List Queued → Merged
  | 0, _, _ => .none
  | n + 1, k, q =>
    match popFirst q with
    | none => .none
    | some (x, r) =>
      match popFirst r with
      | none => .root x.node
      | some (y, r') =>
        if 2 ^ 64 ≤ x.node.count.toNat + y.node.count.toNat then .tooLarge
        else queueBuild n (k + 1) ({ node := mergeNodes Config.pair x.node y.node, created := k } :: r')

/-- The codes of a byte sequence, one after another: `LUT[x[0]] ++ ... ++ LUT[x[n-1]]` (R92), where every code is present. -/
def payload (t : Lut) : List Byte → Option Bits
  | [] => some []
  | v :: vs =>
    match lutGet t (.byte v), payload t vs with
    | some p, some q => some (p ++ q)
    | _, _ => none

end Sys2Proof.Machine
end

