-- ==== Sys2Proof/Certificates/Slice0/Obligations.lean ====
section
/-! DEFINITION. The statements for the provers, from the numbered rules of spec/. No statement is about a program: the two
sessions are the pseudo-commands of 30_encoding.md R86. -/

open Sys2Proof Sys2Proof.Machine

/-! ### The command word, the step, reset -/

/-- R81: the nine opcodes, each word written out from the table. -/
def Obligations.TheNineOpcodesDecode : Prop :=
  decode 0b0001#4 = .ok .clr ∧ decode 0b0010#4 = .ok .count ∧ decode 0b0011#4 = .ok .build ∧
  decode 0b0100#4 = .ok .ser ∧ decode 0b0101#4 = .ok .deser ∧ decode 0b0110#4 = .ok .inj ∧
  decode 0b0111#4 = .ok .lut ∧ decode 0b1000#4 = .ok .enc ∧ decode 0b1001#4 = .ok .dec

/-- R80 to R83: decoding and encoding agree on every command, and a word that is no command's is reserved. -/
def Obligations.DecodeAndEncodeAgree : Prop :=
  (∀ i : Instr, decode (encode i) = .ok i) ∧
  ∀ w : CmdWord, (∃ i, decode w = .ok i ∧ encode i = w ∧ w.wellFormed = true) ∨
    ((w.toNat = 0 ∨ 10 ≤ w.toNat) ∧ decode w = .error (.reservedOpcode w) ∧ w.wellFormed = false)

/-- R66 (a), R80: a step takes the next command word and runs the command it decodes to; also for a word that
`withFetchWord` has put there. With no word issued a step changes nothing: the model's form of R31's "waits for a command"
(log entry 3). -/
def Obligations.StepRunsDecodedCommand : Prop :=
  (∀ (s : State) (w : CmdWord) (rest : List CmdWord) (i : Instr),
    s.io.cmd = w :: rest → decode w = .ok i → i.wellFormed = true →
    step s = exec i { s with io := { s.io with cmd := rest } }) ∧
  (∀ (s : State) (nbits : Nat) (i : Instr), 4 ≤ nbits → step (s.withFetchWord nbits (encode i).toNat) = exec i s) ∧
  ∀ s : State, s.io.cmd = [] → step s = .next s

/-- R226: a reserved word, with no fault recorded, raises `E_ILLCMD` with `FOP` the word, touches no data channel and changes
neither OCC, TREE nor LUT. That fault entry leaves CUR `None` and WORK `[]` is R228's, followed here for a word that is not
admitted too (DEDUCED, log entry 10). -/
def Obligations.ReservedWordRaisesIllCmd : Prop :=
  ∀ (s : State) (w : CmdWord) (rest : List CmdWord),
    s.io.cmd = w :: rest → (w.toNat = 0 ∨ 10 ≤ w.toNat) → s.regs.fault = none →
    step s = .next
      { regs := { s.regs with fault := some { cause := .illCmd, op := w }, cur := none, work := [] }
        io := { s.io with cmd := rest, responses := s.io.responses ++ [.fault .illCmd] } }

/-- R31: the value of every item after reset, between commands too (R260), and identically after CLR from any state. -/
def Obligations.ResetAndClrLeaveEverythingEmpty : Prop :=
  ∀ r : Regs, (r = State.reset.regs ∨ (∃ s, (hostReset s).regs = r) ∨ ∃ s t, exec .clr s = .next t ∧ t.regs = r) →
    (∀ b, occGet r.occ b = 0) ∧ r.tree = none ∧ r.work = [] ∧ (∀ x, lutGet r.lut x = none) ∧ r.cur = none ∧
    r.phase = .idle ∧ r.fault = none ∧ ∀ io, State.status { regs := r, io := io } = 0#32

/-- R111: CLR, word 0x1, is admitted in every state, faulted or not, gives every item of the CORE the value R111 writes and
touches no channel but its response. -/
def Obligations.ClrStartsASession : Prop :=
  ∀ s : State,
    exec .clr s = .next
      { regs := { occ := Vector.replicate 256 0, tree := none, work := [], lut := Vector.replicate 257 none, cur := none
                  phase := .idle, fault := none }
        io := { s.io with responses := s.io.responses ++ [.ok] } } ∧
    ∀ rest, s.io.cmd = 0b0001#4 :: rest → step s = .next
      { regs := { occ := Vector.replicate 256 0, tree := none, work := [], lut := Vector.replicate 257 none, cur := none
                  phase := .idle, fault := none }
        io := { s.io with cmd := rest, responses := s.io.responses ++ [.ok] } }

/-! ### STATUS -/

/-- R27: the fields of STATUS. -/
def Obligations.StatusFields : Prop :=
  ∀ s : State,
    s.status.extractLsb' 0 3 = s.regs.phase.code ∧ s.status.extractLsb' 24 8 = 0#8 ∧
    (s.regs.fault = none → s.status.extractLsb' 3 21 = 0#21) ∧
    ∀ f, s.regs.fault = some f →
      s.status.extractLsb' 3 1 = 1#1 ∧ s.status.extractLsb' 4 4 = f.cause.name.code ∧
      s.status.extractLsb' 8 3 = f.cause.info ∧ s.status.extractLsb' 11 4 = f.op ∧
      (∀ v, f.cause = .lutMiss v → s.status.extractLsb' 15 9 = v.setWidth 9) ∧
      (f.cause.name ≠ .lutMiss → s.status.extractLsb' 15 9 = 0#9)

/-- R222: the qualifiers, and 0 for every cause that has none; R221: the cause codes; R26: the phase codes. -/
def Obligations.StatusCodes : Prop :=
  ((Cause.io .byteIn).info = 1 ∧ (Cause.io .byteOut).info = 2 ∧ (Cause.io .bitIn).info = 3 ∧
    (Cause.io .bitOut).info = 4 ∧ (Cause.prematureEos .hdrFlag).info = 1 ∧ (Cause.prematureEos .hdrByte).info = 2 ∧
    (Cause.prematureEos .payload).info = 3 ∧ (Cause.ovf .count).info = 1 ∧ (Cause.ovf .build).info = 2 ∧
    ∀ c : Cause, c.name ≠ .io → c.name ≠ .prematureEos → c.name ≠ .ovf → c.info = 0) ∧
  (CauseName.io.code = 1 ∧ CauseName.prematureEos.code = 2 ∧ CauseName.empty.code = 3 ∧ CauseName.lutMiss.code = 4 ∧
    CauseName.seq.code = 5 ∧ CauseName.illCmd.code = 6 ∧ CauseName.capacity.code = 7 ∧ CauseName.ovf.code = 8) ∧
  Phase.idle.code = 0 ∧ Phase.counted.code = 1 ∧ Phase.tree.code = 2 ∧ Phase.injected.code = 3 ∧
  Phase.tabled.code = 4 ∧ Phase.done.code = 5

/-! ### Admission, faults, completion -/

/-- R229: while a fault is recorded every word but CLR answers the recorded cause and changes nothing. -/
def Obligations.FaultedStateRefuses : Prop :=
  ∀ (s : State) (f : FaultRecord), s.regs.fault = some f →
    (∀ i : Instr, i ≠ .clr → exec i s =
      .next { regs := s.regs, io := { s.io with responses := s.io.responses ++ [.fault f.cause.name] } }) ∧
    ∀ (w : CmdWord) (rest : List CmdWord), s.io.cmd = w :: rest → w ≠ encode .clr → step s =
      .next { regs := s.regs
              io := { s.io with cmd := rest, responses := s.io.responses ++ [.fault f.cause.name] } }

/-- R84, R225: a command outside the phases of the table raises `E_SEQ`, touches no channel and changes neither OCC, TREE nor
LUT. That fault entry leaves CUR `None` and WORK `[]` is R228's, followed here for a command that is not admitted too (DEDUCED,
log entry 10). -/
def Obligations.CommandOutOfPhaseRaisesSeq : Prop :=
  ∀ (s : State) (i : Instr), s.regs.fault = none → i ≠ .clr →
    (i, s.regs.phase) ∉ [(Instr.count, Phase.idle), (.build, .counted), (.ser, .tree), (.deser, .idle), (.inj, .tree),
      (.lut, .injected), (.enc, .tabled), (.dec, .injected), (.dec, .tabled)] →
    exec i s = .next
      { regs := { s.regs with fault := some { cause := .seq, op := encode i }, cur := none, work := [] }
        io := { s.io with responses := s.io.responses ++ [.fault .seq] } }

/-- R84, R110, D27: every command answers once; `OK` only where the table admits it, and then it leaves the phase of the
table and no fault; otherwise PHASE stays as it was and a fault is recorded. -/
def Obligations.PhaseAfterEachCommand : Prop :=
  ∀ (i : Instr) (s t : State), exec i s = .next t →
    ∃ r, t.io.responses = s.io.responses ++ [r] ∧
      (r = .ok → t.regs.fault = none ∧
        (i, s.regs.phase, t.regs.phase) ∈ [(Instr.count, Phase.idle, Phase.counted), (.build, .counted, .tree),
          (.ser, .tree, .tree), (.deser, .idle, .tree), (.inj, .tree, .injected), (.lut, .injected, .tabled),
          (.enc, .tabled, .done), (.dec, .injected, .done), (.dec, .tabled, .done), (.clr, s.regs.phase, .idle)] ∧
        (i = .clr ∨ s.regs.fault = none)) ∧
      (r ≠ .ok → t.regs.phase = s.regs.phase ∧ t.regs.fault ≠ none)

/-- R228: what fault entry leaves, for every command that raises a cause: the record, CUR and WORK, PHASE, TREE and LUT, and
the response. OCC too, but for the increments of COUNT (R113). -/
def Obligations.FaultEntryOfEveryCommand : Prop :=
  ∀ (i : Instr) (s t : State) (f : FaultRecord),
    exec i s = .next t → s.regs.fault = none → t.regs.fault = some f →
    f.op = encode i ∧ t.regs.cur = none ∧ t.regs.work = [] ∧ t.regs.phase = s.regs.phase ∧
    t.regs.tree = s.regs.tree ∧ t.regs.lut = s.regs.lut ∧ (i ≠ .count → t.regs.occ = s.regs.occ) ∧
    t.io.responses = s.io.responses ++ [.fault f.cause.name]

/-- R13, R66 (b), (c): a command only adds to the event list and only takes from the front of its input channels, and never
touches the words waiting on CMD. -/
def Obligations.EventsStandAndInputsAreTakenInOrder : Prop :=
  ∀ (i : Instr) (s t : State), exec i s = .next t →
    s.io.events <+: t.io.events ∧ t.io.byteIn <:+ s.io.byteIn ∧ t.io.bitIn <:+ s.io.bitIn ∧ t.io.cmd = s.io.cmd

/-! ### COUNT -/

/-- R113, R114: what COUNT does with one packet `bs`: it counts every byte; or the transfer after `k` bytes reports an error
and the counts so far stand; or the byte `v` after `bs` would pass 2^64 - 1 and raises `E_OVF`. -/
def Obligations.CountCountsOnePacket : Prop :=
  ∀ (s : State), s.regs.fault = none → s.regs.phase = .idle →
    (∀ (bs : List Byte) (rest : List ByteItem),
      s.io.byteIn = packetItems bs ++ rest → s.io.errors.quiet .byteIn (bs.length + 1) →
      (∀ b, (occGet s.regs.occ b).toNat + bs.count b < 2 ^ 64) →
      ∃ o : Occ, (∀ b, (occGet o b).toNat = (occGet s.regs.occ b).toNat + bs.count b) ∧
        exec .count s = .next
          { regs := { s.regs with occ := o, phase := .counted }
            io := { s.io with
              byteIn := rest
              errors := s.io.errors.after .byteIn (bs.length + 1)
              events := s.io.events ++ (bs.map .inByte ++ [.inEnd])
              responses := s.io.responses ++ [.ok] } }) ∧
    (∀ (bs : List Byte) (rest : List ByteItem),
      s.io.byteIn = bs.map .byte ++ rest → s.io.errors.failsAt .byteIn bs.length →
      (∀ b, (occGet s.regs.occ b).toNat + bs.count b < 2 ^ 64) →
      ∃ o : Occ, (∀ b, (occGet o b).toNat = (occGet s.regs.occ b).toNat + bs.count b) ∧
        exec .count s = .next
          { regs := { s.regs with
              occ := o
              fault := some { cause := .io .byteIn, op := 0b0010#4 }
              cur := none
              work := [] }
            io := { s.io with
              byteIn := rest
              errors := s.io.errors.after .byteIn (bs.length + 1)
              events := s.io.events ++ bs.map .inByte
              responses := s.io.responses ++ [.fault .io] } }) ∧
    (∀ (bs : List Byte) (v : Byte) (rest : List ByteItem),
      s.io.byteIn = (bs ++ [v]).map .byte ++ rest → s.io.errors.quiet .byteIn (bs.length + 1) →
      (∀ b, (occGet s.regs.occ b).toNat + bs.count b < 2 ^ 64) →
      (occGet s.regs.occ v).toNat + bs.count v = 2 ^ 64 - 1 →
      ∃ o : Occ, (∀ b, (occGet o b).toNat = (occGet s.regs.occ b).toNat + bs.count b) ∧
        exec .count s = .next
          { regs := { s.regs with
              occ := o
              fault := some { cause := .ovf .count, op := 0b0010#4 }
              cur := none
              work := [] }
            io := { s.io with
              byteIn := rest
              errors := s.io.errors.after .byteIn (bs.length + 1)
              events := s.io.events ++ (bs ++ [v]).map .inByte
              responses := s.io.responses ++ [.fault .ovf] } })

/-- R275: COUNT on bytes with no `End` after them has no next state. -/
def Obligations.CountNeedsThePacketsEnd : Prop :=
  ∀ (s : State) (bs : List Byte), s.regs.fault = none → s.regs.phase = .idle →
    s.io.byteIn = bs.map .byte → s.io.errors.quiet .byteIn (bs.length + 1) →
    (∀ b, (occGet s.regs.occ b).toNat + bs.count b < 2 ^ 64) → exec .count s = .fault .byteInStarved

/-- The frame of COUNT (R110, R113): TREE and LUT, BIT_IN, BYTE_OUT and BIT_OUT stay; CUR and WORK stay unless a fault was
entered. -/
def Obligations.CountFrame : Prop :=
  ∀ s t : State, exec .count s = .next t →
    t.regs.tree = s.regs.tree ∧ t.regs.lut = s.regs.lut ∧
    (t.regs.fault = s.regs.fault → t.regs.cur = s.regs.cur ∧ t.regs.work = s.regs.work) ∧
    t.io.bitIn = s.io.bitIn ∧ t.byteOut = s.byteOut ∧ t.bitOut = s.bitOut ∧
    ∀ ch, ch ≠ .byteIn → t.io.errors.on ch = s.io.errors.on ch

/-! ### BUILD -/

/-- R124: the stable descending sort is the one rearrangement with descending counts that keeps equal counts in order. -/
def Obligations.StableSortDescends : Prop :=
  ∀ w v : List Tree,
    v = sortDesc w ↔
      v.Perm w ∧ v.Pairwise (fun a b => b.count.toNat ≤ a.count.toNat) ∧
      ∀ c : Count, v.filter (fun t => t.count = c) = w.filter (fun t => t.count = c)

/-- R126, R127, R129: what one pass makes of a collection, named by its sorted form. -/
def Obligations.MergePassTakesTheTwoAtTheTail : Prop :=
  ∀ (w v : List Tree) (x y : Tree),
    (∀ t, w = [t] → mergePass .front .lastIsLeft w = .root t) ∧
    (sortDesc w = v ++ [y, x] → x.count.toNat + y.count.toNat < 2 ^ 64 →
      mergePass .front .lastIsLeft w = .work (.inner (x.count + y.count) x y :: v)) ∧
    (sortDesc w = v ++ [y, x] → 2 ^ 64 ≤ x.count.toNat + y.count.toNat →
      mergePass .front .lastIsLeft w = .tooLarge)

/-- R125, R128: the merged node, put at the head of a sorted collection, stands after the next sort behind every larger count
and ahead of every equal or smaller one. -/
def Obligations.MergedNodeStandsAheadOfItsPeers : Prop :=
  ∀ (m : Tree) (w : List Tree), w.Pairwise (fun a b => b.count.toNat ≤ a.count.toNat) →
    sortDesc (putBack .front m w) =
      w.filter (fun t => decide (m.count.toNat < t.count.toNat)) ++
        m :: w.filter (fun t => decide (t.count.toNat ≤ m.count.toNat))

/-- R121, R122, R131 (a) to (d): BUILD on a table that is not all 0, with fewer than 2^64 bytes counted, makes the greedy
tree: one leaf per counted byte value and no other, the count invariant, the root's count the bytes counted; only TREE,
WORK and PHASE change. -/
def Obligations.BuildMakesTheGreedyTree : Prop :=
  ∀ s : State, s.regs.fault = none → s.regs.phase = .counted → (∃ b, occGet s.regs.occ b ≠ 0) →
    (allBytes.map fun b => (occGet s.regs.occ b).toNat).sum < 2 ^ 64 →
    ∃ t : Tree, builtTree s.regs.occ = .root t ∧
      exec .build s = .next
        { regs := { s.regs with tree := some t, work := [], phase := .tree }
          io := { s.io with responses := s.io.responses ++ [.ok] } } ∧
      t.chars.Perm ((allBytes.filter fun b => occGet s.regs.occ b ≠ 0).map fun b => (b, occGet s.regs.occ b)) ∧
      t.hasEos = false ∧ t.leaves ≤ 256 ∧ t.countOk = true ∧
      t.count.toNat = (allBytes.map fun b => (occGet s.regs.occ b).toNat).sum ∧
      ∀ b, (∀ c, occGet s.regs.occ c ≠ 0 → c = b) → t = .char b (occGet s.regs.occ b)

/-- What the spec infers (R130) of the sort form of R121: a priority queue in the order of R130, its entries in any arrangement, gives BUILD's tree, or BUILD's overflow. -/
def Obligations.PriorityQueueGivesTheSameTree : Prop :=
  ∀ (o : Occ) (q : List Queued), q.Perm ((initialWork o).map fun t => { node := t, created := 0 }) →
    queueBuild q.length 0 q = builtTree o

/-- R131 (e): no tree with the same Character leaves has a smaller sum of count times depth than BUILD's. -/
def Obligations.BuildMinimisesTheCodedLength : Prop :=
  ∀ (o : Occ) (t u : Tree), builtTree o = .root t → u.hasEos = false → u.chars.Perm t.chars → t.cost 0 ≤ u.cost 0

/-- R123: with every count zero BUILD raises `E_EMPTY`. -/
def Obligations.BuildOnEmptyInputFaults : Prop :=
  ∀ s : State, s.regs.fault = none → s.regs.phase = .counted → (∀ b, occGet s.regs.occ b = 0) →
    exec .build s = .next
      { regs := { s.regs with fault := some { cause := .empty, op := 0b0011#4 }, cur := none, work := [] }
        io := { s.io with responses := s.io.responses ++ [.fault .empty] } }

/-- R129: BUILD raises `E_OVF` exactly where the counts do not add up within 64 bits. -/
def Obligations.BuildOverflowFaults : Prop :=
  ∀ s : State, s.regs.fault = none → s.regs.phase = .counted →
    2 ^ 64 ≤ (allBytes.map fun b => (occGet s.regs.occ b).toNat).sum →
    exec .build s = .next
      { regs := { s.regs with fault := some { cause := .ovf .build, op := 0b0011#4 }, cur := none, work := [] }
        io := { s.io with responses := s.io.responses ++ [.fault .ovf] } }

/-- The frames of BUILD, INJ and LUT (R110, R121, R161, R171): no channel but the response, no register but the command's
own, and CUR and WORK where a fault was entered (BUILD leaves WORK empty). -/
def Obligations.BuildInjLutFrames : Prop :=
  ∀ (i : Instr) (s t : State), (i = .build ∨ i = .inj ∨ i = .lut) → exec i s = .next t →
    t.io = { s.io with responses := t.io.responses } ∧ t.regs.occ = s.regs.occ ∧
    (i = .lut → t.regs.tree = s.regs.tree) ∧ (i ≠ .lut → t.regs.lut = s.regs.lut) ∧
    (t.regs.fault = s.regs.fault →
      t.regs.cur = s.regs.cur ∧ (i ≠ .build ∨ s.regs.fault ≠ none → t.regs.work = s.regs.work)) ∧
    (t.regs.fault ≠ none → t.regs.tree = s.regs.tree ∧ t.regs.lut = s.regs.lut)

/-! ### SER and DESER -/

/-- R88 to R90: the header of a tree, and what the spec infers from it: its length, and that no header begins another. -/
def Obligations.HeaderFormat : Prop :=
  (∀ b c, (Tree.char b c).ser = true ::
    [b.getLsbD 7, b.getLsbD 6, b.getLsbD 5, b.getLsbD 4, b.getLsbD 3, b.getLsbD 2, b.getLsbD 1, b.getLsbD 0]) ∧
  (∀ c l r, (Tree.inner c l r).ser = [false] ++ l.ser ++ r.ser) ∧
  (∀ t : Tree, t.hasEos = false → t.ser.length = t.inners + 9 * t.leaves ∧ t.ser.length = 10 * t.leaves - 1 ∧
    t.leaves = t.inners + 1) ∧
  ∀ t u : Tree, t.hasEos = false → u.hasEos = false → t.ser <+: u.ser → t.zero = u.zero ∧ t.ser = u.ser

/-- R141: SER writes exactly the header of TREE and changes no register; or the transfer after `k` bits reports an error and
the bits before it stand. -/
def Obligations.SerWritesTheHeader : Prop :=
  ∀ (s : State) (t : Tree), s.regs.fault = none → s.regs.phase = .tree → s.regs.tree = some t → t.hasEos = false →
    (s.io.errors.quiet .bitOut t.ser.length →
      exec .ser s = .next
        { regs := s.regs
          io := { s.io with
            errors := s.io.errors.after .bitOut t.ser.length
            events := s.io.events ++ t.ser.map .outBit
            responses := s.io.responses ++ [.ok] } }) ∧
    ∀ k, k < t.ser.length → s.io.errors.failsAt .bitOut k →
      exec .ser s = .next
        { regs := { s.regs with fault := some { cause := .io .bitOut, op := 0b0100#4 }, cur := none, work := [] }
          io := { s.io with
            errors := s.io.errors.after .bitOut (k + 1)
            events := s.io.events ++ (t.ser.take k).map .outBit
            responses := s.io.responses ++ [.fault .io] } }

/-- The frame of SER (R110, R141): OCC, TREE, LUT and PHASE stay, and the input channels and BYTE_OUT. -/
def Obligations.SerFrame : Prop :=
  ∀ s t : State, exec .ser s = .next t →
    t.regs.occ = s.regs.occ ∧ t.regs.tree = s.regs.tree ∧ t.regs.lut = s.regs.lut ∧ t.regs.phase = s.regs.phase ∧
    (t.regs.fault = s.regs.fault → t.regs = s.regs) ∧
    t.io.byteIn = s.io.byteIn ∧ t.io.bitIn = s.io.bitIn ∧ t.byteOut = s.byteOut ∧
    ∀ ch, ch ≠ .bitOut → t.io.errors.on ch = s.io.errors.on ch

/-- The codec's two laws, which the spec infers (R149) from R141 and R146. DESER on the header of a tree of at most 256 leaves, followed by anything, gives that tree
with every count 0 and leaves exactly the rest unread; and whatever DESER accepts is the header of the tree it stores. -/
def Obligations.DeserInvertsSer : Prop :=
  (∀ (s : State) (t : Tree) (rest : Bits), s.regs.fault = none → s.regs.phase = .idle →
    t.hasEos = false → t.leaves ≤ 256 → s.io.bitIn = t.ser ++ rest →
    s.io.errors.quiet .bitIn (t.inners + 2 * t.leaves) →
    exec .deser s = .next
      { regs := { s.regs with tree := some t.zero, phase := .tree }
        io := { s.io with
          bitIn := rest
          errors := s.io.errors.after .bitIn (t.inners + 2 * t.leaves)
          events := s.io.events ++ t.ser.map .inBit
          responses := s.io.responses ++ [.ok] } }) ∧
  ∀ s t : State, exec .deser s = .next t → t.io.responses = s.io.responses ++ [.ok] →
    ∃ u : Tree, t.regs.tree = some u ∧ u.zero = u ∧ u.hasEos = false ∧ u.leaves ≤ 256 ∧
      s.io.bitIn = u.ser ++ t.io.bitIn ∧ t.io.events = s.io.events ++ u.ser.map .inBit

/-- R146: on a header cut short DESER raises `E_PREMATURE_EOS`, and the cut says which. Cut where a flag is due: `HDR_FLAG`,
every bit being read. Cut anywhere else, which is inside the byte value of a leaf whose flag stands at some `p`: `HDR_BYTE`, the
flag being read and the bits after it left unread (R58 lets a model leave them, log entry 8). -/
def Obligations.DeserOnACutHeaderFaults : Prop :=
  ∀ (s : State) (t : Tree), s.regs.fault = none → s.regs.phase = .idle → t.hasEos = false → t.leaves ≤ 256 →
    s.io.bitIn <+: t.ser → s.io.bitIn ≠ t.ser → s.io.errors.allQuiet →
    ∃ u : State, exec .deser s = .next u ∧
      (s.io.bitIn.length ∈ (t.flags 0).map Prod.fst →
        u.regs = { s.regs with
          fault := some { cause := .prematureEos .hdrFlag, op := 0b0101#4 }
          cur := none
          work := [] } ∧
        u.io.bitIn = [] ∧ u.io.events = s.io.events ++ s.io.bitIn.map .inBit) ∧
      (s.io.bitIn.length ∉ (t.flags 0).map Prod.fst →
        u.regs = { s.regs with
          fault := some { cause := .prematureEos .hdrByte, op := 0b0101#4 }
          cur := none
          work := [] } ∧
        ∃ p, (p, true) ∈ t.flags 0 ∧ p < s.io.bitIn.length ∧ s.io.bitIn.length < p + 9 ∧
          u.io.bitIn = s.io.bitIn.drop (p + 1) ∧
          u.io.events = s.io.events ++ (s.io.bitIn.take (p + 1)).map .inBit ++ [.inShort])

/-- R148: a header that describes more than 256 leaves has a 256th Inner flag, at some position `k`, and raises `E_CAPACITY` on
reading it: the header is read up to and including that flag, and whatever follows it is left unread. -/
def Obligations.DeserRefusesOversizedHeaders : Prop :=
  (∀ t : Tree, t.hasEos = false → (256 < t.leaves ↔ ∃ k, (t.innerFlags 0)[255]? = some k)) ∧
  ∀ (s : State) (t : Tree) (k : Nat) (rest : Bits), s.regs.fault = none → s.regs.phase = .idle → t.hasEos = false →
    (t.innerFlags 0)[255]? = some k → s.io.bitIn = t.ser.take (k + 1) ++ rest → s.io.errors.allQuiet →
    ∃ u : State, exec .deser s = .next u ∧
      u.regs = { s.regs with fault := some { cause := .capacity, op := 0b0101#4 }, cur := none, work := [] } ∧
      u.io.bitIn = rest ∧ u.io.events = s.io.events ++ (t.ser.take (k + 1)).map .inBit

/-- R146: where the BIT_IN transfer after `k` transfers of a header is the first to fail, it raises `E_IO`; TREE stays as it was
and exactly the bits of those `k` transfers are read. -/
def Obligations.DeserReportsIoErrors : Prop :=
  ∀ (s : State) (t : Tree) (rest : Bits) (k : Nat), s.regs.fault = none → s.regs.phase = .idle →
    t.hasEos = false → t.leaves ≤ 256 → s.io.bitIn = t.ser ++ rest → k < t.readWidths.length →
    s.io.errors.failsAt .bitIn k →
    ∃ u : State, exec .deser s = .next u ∧
      u.regs = { s.regs with fault := some { cause := .io .bitIn, op := 0b0101#4 }, cur := none, work := [] } ∧
      u.io.bitIn = t.ser.drop (t.readWidths.take k).sum ++ rest ∧ u.io.errors = s.io.errors.after .bitIn (k + 1) ∧
      u.io.events = s.io.events ++ (t.ser.take (t.readWidths.take k).sum).map .inBit

/-- The frame of DESER (R110, R146): OCC and LUT stay, and BYTE_IN and both output channels; on a fault TREE too. -/
def Obligations.DeserFrame : Prop :=
  ∀ s t : State, exec .deser s = .next t →
    t.regs.occ = s.regs.occ ∧ t.regs.lut = s.regs.lut ∧ (t.regs.fault ≠ none → t.regs.tree = s.regs.tree) ∧
    (t.regs.fault = s.regs.fault → t.regs.cur = s.regs.cur ∧ t.regs.work = s.regs.work) ∧
    t.io.byteIn = s.io.byteIn ∧ t.byteOut = s.byteOut ∧ t.bitOut = s.bitOut ∧
    ∀ ch, ch ≠ .bitIn → t.io.errors.on ch = s.io.errors.on ch

/-! ### INJ and LUT -/

/-- R161: INJ, once admitted on a tree of Character leaves, stores `Inject(TREE)` and cannot fault. -/
def Obligations.InjStoresTheInjectedTree : Prop :=
  (∀ (s : State) (t : Tree), s.regs.fault = none → s.regs.phase = .tree → s.regs.tree = some t → t.hasEos = false →
    exec .inj s = .next
      { regs := { s.regs with tree := some t.inject, phase := .injected }
        io := { s.io with responses := s.io.responses ++ [.ok] } }) ∧
  (∀ b c, (Tree.char b c).inject = .inner c (.char b c) .eos) ∧
  ∀ c l r, (Tree.inner c l r).inject = if r.height ≥ l.height then .inner c l r.inject else .inner c l.inject r

/-- R162, R163, R166: injection keeps the Character leaves and the count invariant, adds exactly one `Eos` leaf, as a right
child, and splits the rightmost of the deepest leaves: its code grows by a 0, the End-of-Stream code is that code followed
by a 1, and every other leaf keeps its code. -/
def Obligations.InjectionSplitsTheDeepestLeaf : Prop :=
  ∀ t : Tree, t.hasEos = false →
    t.inject.isInner = true ∧ t.inject.eosLeaves = 1 ∧ t.inject.eosRight = true ∧ t.inject.chars = t.chars ∧
    (t.countOk = true → t.inject.countOk = true) ∧ t.inject.count = t.count ∧
    ∃ before b p after, t.codes = before ++ (Sym.byte b, p) :: after ∧
      t.inject.codes = before ++ (Sym.byte b, p ++ [false]) :: (Sym.eos, p ++ [true]) :: after ∧
      p.length = t.height ∧ (∀ e ∈ before, e.2.length ≤ t.height) ∧ ∀ e ∈ after, e.2.length < t.height

/-- R207: injection and the loss of the counts in the header commute. -/
def Obligations.InjectionIsTheSameOnBothSides : Prop :=
  ∀ t : Tree, t.hasEos = false → t.zero.inject = t.inject.zero

/-- R171, R173: LUT records, for every symbol, the path of its last leaf from left to right, and `None` for a symbol with no
leaf; nothing but LUT and PHASE changes. -/
def Obligations.LutRecordsTheCodes : Prop :=
  ∀ (s : State) (t : Tree), s.regs.fault = none → s.regs.phase = .injected → s.regs.tree = some t →
    ∃ m : Lut, (∀ x : Sym, lutGet m x = ((t.codes.filter fun e => e.1 = x).getLast?).map Prod.snd) ∧
      exec .lut s = .next
        { regs := { s.regs with lut := m, phase := .tabled }
          io := { s.io with responses := s.io.responses ++ [.ok] } }

/-- R208: the codes the table of an injected tree holds are pairwise different and none begins another, and the
End-of-Stream code is one bit longer than the tree before injection is high. -/
def Obligations.TableCodesArePrefixFree : Prop :=
  ∀ t : Tree, t.hasEos = false →
    (∀ x y p q, x ≠ y → lutGet (lutOf t.inject) x = some p → lutGet (lutOf t.inject) y = some q →
      p ≠ q ∧ ¬ p <+: q) ∧
    ∃ p, lutGet (lutOf t.inject) .eos = some p ∧ p.length = t.height + 1

/-! ### ENC -/

/-- R181, R182, R184: ENC on a packet whose every byte has a code writes the codes in order, the terminator and one flush, and
ends the session. -/
def Obligations.EncWritesPayloadTerminatorFlush : Prop :=
  ∀ (s : State) (bs : List Byte) (rest : List ByteItem) (p e : Bits),
    s.regs.fault = none → s.regs.phase = .tabled → s.io.byteIn = packetItems bs ++ rest →
    payload s.regs.lut bs = some p → lutGet s.regs.lut .eos = some e →
    s.io.errors.quiet .byteIn (bs.length + 1) → s.io.errors.quiet .bitOut (p.length + e.length + 1) →
    exec .enc s = .next
      { regs := { s.regs with occ := Occ.zero, tree := none, lut := Lut.empty, phase := .done }
        io := { s.io with
          byteIn := rest
          errors := (s.io.errors.after .byteIn (bs.length + 1)).after .bitOut (p.length + e.length + 1)
          events := s.io.events ++
            (bs.flatMap (fun v => .inByte v :: ((lutGet s.regs.lut (.byte v)).getD []).map .outBit) ++
              [.inEnd] ++ e.map .outBit ++ [.outFlush])
          responses := s.io.responses ++ [.ok] } }

/-- R183: the first byte with no code raises `E_LUT_MISS` with that byte in FVAL; the codes before it stand, and there is no
terminator and no flush. -/
def Obligations.EncMissingCodeFaults : Prop :=
  ∀ (s : State) (bs : List Byte) (v : Byte) (rest : List ByteItem) (p : Bits),
    s.regs.fault = none → s.regs.phase = .tabled → s.io.byteIn = (bs ++ [v]).map .byte ++ rest →
    payload s.regs.lut bs = some p → lutGet s.regs.lut (.byte v) = none →
    s.io.errors.quiet .byteIn (bs.length + 1) → s.io.errors.quiet .bitOut p.length →
    ∃ t : State, exec .enc s = .next t ∧
      t.regs = { s.regs with fault := some { cause := .lutMiss v, op := 0b1000#4 }, cur := none, work := [] } ∧
      t.status.extractLsb' 15 9 = v.setWidth 9 ∧ t.io.byteIn = rest ∧
      t.io.events = s.io.events ++
        (bs.flatMap (fun x => .inByte x :: ((lutGet s.regs.lut (.byte x)).getD []).map .outBit) ++ [.inByte v]) ∧
      t.io.responses = s.io.responses ++ [.fault .lutMiss]

/-- R181, R224: a failing transfer of ENC raises `E_IO` of its channel; the bits before it stand, and OCC, TREE, LUT and PHASE
stay. -/
def Obligations.EncReportsIoErrors : Prop :=
  ∀ (s : State) (bs : List Byte) (rest : List ByteItem) (p e : Bits),
    s.regs.fault = none → s.regs.phase = .tabled →
    payload s.regs.lut bs = some p → lutGet s.regs.lut .eos = some e →
    (s.io.byteIn = bs.map .byte ++ rest → s.io.errors.failsAt .byteIn bs.length →
      s.io.errors.quiet .bitOut p.length →
      ∃ t : State, exec .enc s = .next t ∧
        t.regs = { s.regs with fault := some { cause := .io .byteIn, op := 0b1000#4 }, cur := none, work := [] } ∧
        t.io.byteIn = rest ∧ t.bitOut = s.bitOut ++ p.map .bit) ∧
    ∀ k, s.io.byteIn = packetItems bs ++ rest → s.io.errors.quiet .byteIn (bs.length + 1) →
      k < p.length + e.length + 1 → s.io.errors.failsAt .bitOut k →
      ∃ t : State, exec .enc s = .next t ∧
        t.regs = { s.regs with fault := some { cause := .io .bitOut, op := 0b1000#4 }, cur := none, work := [] } ∧
        t.bitOut = s.bitOut ++ ((p ++ e).take k).map .bit

/-- R275: ENC on bytes with no `End` after them has no next state. -/
def Obligations.EncNeedsThePacketsEnd : Prop :=
  ∀ (s : State) (bs : List Byte) (p : Bits), s.regs.fault = none → s.regs.phase = .tabled →
    s.io.byteIn = bs.map .byte → payload s.regs.lut bs = some p → s.io.errors.quiet .byteIn (bs.length + 1) →
    s.io.errors.quiet .bitOut p.length → exec .enc s = .fault .byteInStarved

/-- The frame of ENC (R110, R181): on a fault OCC, TREE, LUT and PHASE stay; BIT_IN and BYTE_OUT stay always. -/
def Obligations.EncFrame : Prop :=
  ∀ s t : State, exec .enc s = .next t →
    (t.regs.fault ≠ none → t.regs.occ = s.regs.occ ∧ t.regs.tree = s.regs.tree ∧ t.regs.lut = s.regs.lut) ∧
    (t.regs.fault = s.regs.fault → t.regs.cur = s.regs.cur ∧ t.regs.work = s.regs.work) ∧
    t.io.bitIn = s.io.bitIn ∧ t.byteOut = s.byteOut ∧
    ∀ ch, ch ≠ .byteIn → ch ≠ .bitOut → t.io.errors.on ch = s.io.errors.on ch

/-! ### DEC -/

/-- R191, R192, R193: one pass of DEC's loop with no bit left: a Character leaf's byte is emitted and the fault is raised all the
same, or `E_IO(BYTE_OUT)` where the salvage transfer fails; on an Inner node nothing is emitted; on the `Eos` leaf the loop ends
without a fault. -/
def Obligations.DecSalvagesOnlyOnALeaf : Prop :=
  ∀ (root : Tree) (s : State), s.io.bitIn = [] →
    (∀ b c, s.regs.cur = some (.char b c) → s.io.errors.quiet .byteOut 1 →
      decPass root s = .out (.raised (.prematureEos .payload)
        { s with io := { s.io with
            errors := s.io.errors.after .byteOut 1
            events := s.io.events ++ [.outByte b] } })) ∧
    (∀ b c, s.regs.cur = some (.char b c) → s.io.errors.failsAt .byteOut 0 →
      decPass root s = .out (.raised (.io .byteOut)
        { s with io := { s.io with errors := s.io.errors.after .byteOut 1 } })) ∧
    (∀ c l r, s.regs.cur = some (.inner c l r) → decPass root s = .out (.raised (.prematureEos .payload) s)) ∧
    (s.regs.cur = some .eos → decPass root s = .out (.done s))

/-- R191, R196, R197: where the unread bits are the codes of Character leaves, then the code of the `Eos` leaf, then anything,
DEC emits the leaves' bytes in order, leaves the rest unread and ends the session. -/
def Obligations.DecEmitsTheBytesOfTheCodes : Prop :=
  ∀ (s : State) (root : Tree) (cs : List (Byte × Bits)) (e rest : Bits),
    s.regs.fault = none → s.regs.phase = .injected ∨ s.regs.phase = .tabled → s.regs.tree = some root →
    root.isInner = true → (∀ x ∈ cs, (Sym.byte x.1, x.2) ∈ root.codes) → (Sym.eos, e) ∈ root.codes →
    s.io.bitIn = cs.flatMap Prod.snd ++ e ++ rest →
    s.io.errors.quiet .bitIn (cs.flatMap Prod.snd ++ e).length → s.io.errors.quiet .byteOut cs.length →
    exec .dec s = .next
      { regs := { s.regs with occ := Occ.zero, tree := none, lut := Lut.empty, cur := none, phase := .done }
        io := { s.io with
          bitIn := rest
          errors := (s.io.errors.after .bitIn (cs.flatMap Prod.snd ++ e).length).after .byteOut cs.length
          events := s.io.events ++
            (cs.flatMap (fun x => x.2.map .inBit ++ [.outByte x.1]) ++ e.map .inBit)
          responses := s.io.responses ++ [.ok] } }

/-- R192, R193, R196: where the unread bits are the codes of Character leaves and then a proper beginning of a leaf's code,
perhaps empty, DEC emits the leaves' bytes in order and raises `E_PREMATURE_EOS(PAYLOAD)`; OCC, TREE, LUT and PHASE stay. -/
def Obligations.DecOnACutPayloadFaults : Prop :=
  ∀ (s : State) (root : Tree) (cs : List (Byte × Bits)) (q : Bits),
    s.regs.fault = none → s.regs.phase = .injected ∨ s.regs.phase = .tabled → s.regs.tree = some root →
    root.isInner = true → (∀ x ∈ cs, (Sym.byte x.1, x.2) ∈ root.codes) →
    (∃ x ∈ root.codes, q <+: x.2 ∧ q ≠ x.2) → s.io.bitIn = cs.flatMap Prod.snd ++ q →
    s.io.errors.quiet .bitIn (cs.flatMap Prod.snd ++ q).length → s.io.errors.quiet .byteOut cs.length →
    exec .dec s = .next
      { regs := { s.regs with
          fault := some { cause := .prematureEos .payload, op := 0b1001#4 }
          cur := none
          work := [] }
        io := { s.io with
          bitIn := []
          errors := (s.io.errors.after .bitIn (cs.flatMap Prod.snd ++ q).length).after .byteOut cs.length
          events := s.io.events ++
            (cs.flatMap (fun x => x.2.map .inBit ++ [.outByte x.1]) ++ q.map .inBit)
          responses := s.io.responses ++ [.fault .prematureEos] } }

/-- R196, R91: every bit sequence reads, on a tree with an Inner root, in one of the two ways of R196. -/
def Obligations.EveryPacketHasAReading : Prop :=
  ∀ (root : Tree) (bits : Bits), root.isInner = true →
    (∃ (cs : List (Byte × Bits)) (e rest : Bits), (∀ x ∈ cs, (Sym.byte x.1, x.2) ∈ root.codes) ∧
      (Sym.eos, e) ∈ root.codes ∧ bits = cs.flatMap Prod.snd ++ e ++ rest) ∨
    ∃ (cs : List (Byte × Bits)) (q : Bits), (∀ x ∈ cs, (Sym.byte x.1, x.2) ∈ root.codes) ∧
      (∃ x ∈ root.codes, q <+: x.2 ∧ q ≠ x.2) ∧ bits = cs.flatMap Prod.snd ++ q

/-- R195: on a tree with an Inner root, admitted, DEC always ends, whatever the packet and whichever transfers fail. -/
def Obligations.DecAlwaysEnds : Prop :=
  ∀ (s : State) (root : Tree), s.regs.fault = none → s.regs.phase = .injected ∨ s.regs.phase = .tabled →
    s.regs.tree = some root → root.isInner = true → ∃ t, exec .dec s = .next t

/-- R191, R193, R224: the first failing BYTE_OUT transfer of DEC raises `E_IO(BYTE_OUT)` with the bytes before it emitted, the
salvage write of a packet that ends there included; the first failing BIT_IN transfer raises `E_IO(BIT_IN)` with every byte
emitted whose code was read whole. The packet is codes of Character leaves, then a beginning `e`, perhaps the whole, perhaps
empty, of some leaf's code, then anything. -/
def Obligations.DecReportsIoErrors : Prop :=
  ∀ (s : State) (root : Tree) (cs : List (Byte × Bits)) (e rest : Bits) (k : Nat),
    s.regs.fault = none → s.regs.phase = .injected ∨ s.regs.phase = .tabled → s.regs.tree = some root →
    root.isInner = true → (∀ x ∈ cs, (Sym.byte x.1, x.2) ∈ root.codes) → (∃ x ∈ root.codes, e <+: x.2) →
    s.io.bitIn = cs.flatMap Prod.snd ++ e ++ rest →
    (k < cs.length → s.io.errors.quiet .bitIn (cs.flatMap Prod.snd).length → s.io.errors.failsAt .byteOut k →
      ∃ t : State, exec .dec s = .next t ∧
        t.regs = { s.regs with fault := some { cause := .io .byteOut, op := 0b1001#4 }, cur := none, work := [] } ∧
        t.io.bitIn = s.io.bitIn.drop ((cs.take (k + 1)).flatMap Prod.snd).length ∧
        t.byteOut = s.byteOut ++ (cs.take k).map Prod.fst) ∧
    (k < (cs.flatMap Prod.snd ++ e).length → s.io.errors.quiet .byteOut cs.length → s.io.errors.failsAt .bitIn k →
      ∃ (t : State) (j : Nat), exec .dec s = .next t ∧
        t.regs = { s.regs with fault := some { cause := .io .bitIn, op := 0b1001#4 }, cur := none, work := [] } ∧
        t.io.bitIn = s.io.bitIn.drop k ∧ t.byteOut = s.byteOut ++ (cs.take j).map Prod.fst ∧
        ((cs.take j).flatMap Prod.snd).length ≤ k ∧
        (j < cs.length → k < ((cs.take (j + 1)).flatMap Prod.snd).length))

/-- The frame of DEC (R110, R191): on a fault OCC, TREE, LUT and PHASE stay; WORK stays where no fault was entered; BYTE_IN and
BIT_OUT stay always. -/
def Obligations.DecFrame : Prop :=
  ∀ s t : State, exec .dec s = .next t →
    (t.regs.fault ≠ none → t.regs.occ = s.regs.occ ∧ t.regs.tree = s.regs.tree ∧ t.regs.lut = s.regs.lut) ∧
    (t.regs.fault = s.regs.fault → t.regs.work = s.regs.work) ∧
    t.io.byteIn = s.io.byteIn ∧ t.bitOut = s.bitOut ∧
    ∀ ch, ch ≠ .byteOut → ch ≠ .bitIn → t.io.errors.on ch = s.io.errors.on ch

/-! ### Invariants of every step -/

/-- R26, R31: what holds between commands holds at reset. -/
def Obligations.ResetMeetsThePhaseTable : Prop :=
  State.reset.Inv

/-- R22, R23, R25, R26, R232: every step keeps what the phase table says of each register, and a recorded fault is one its
command can raise. -/
def Obligations.StepKeepsThePhaseTable : Prop :=
  ∀ s t : State, s.Inv → step s = .next t → t.Inv

/-- R110, R227, R275: where the phase table holds, every word is answered: a step never refuses, and has no next state only
where COUNT or ENC is running and BYTE_IN holds no `End`. -/
def Obligations.EveryCommandIsAnswered : Prop :=
  ∀ s : State, s.Inv →
    (∃ t, step s = .next t) ∨
    (step s = .fault .byteInStarved ∧ ByteItem.packetEnd ∉ s.io.byteIn ∧
      ∃ w rest, s.io.cmd = w :: rest ∧ (w = encode .count ∨ w = encode .enc))

/-! ### Sessions -/

/-- R202: a session starts with CLR, so what it does depends on its own packets alone. From two states that agree on what is
unread on BYTE_IN and BIT_IN and on the failing transfers, whatever their registers, the words waiting, the responses and the
events before, the same commands end alike, with equal registers, equal unread items and the same events and responses added;
and packets on BYTE_IN after those it reads change nothing. -/
def Obligations.SessionsDoNotInteract : Prop :=
  (∀ (cmds : List Instr) (s t : State),
    s.io.byteIn = t.io.byteIn → s.io.bitIn = t.io.bitIn → s.io.errors = t.io.errors →
    match runCmds (.clr :: cmds) s, runCmds (.clr :: cmds) t with
    | .next u, .next v =>
      u.regs = v.regs ∧ u.io.byteIn = v.io.byteIn ∧ u.io.bitIn = v.io.bitIn ∧ u.io.errors = v.io.errors ∧
      u.io.cmd = s.io.cmd ∧ v.io.cmd = t.io.cmd ∧
      ∃ (es : List Event) (rs : List Response),
        u.io.events = s.io.events ++ es ∧ v.io.events = t.io.events ++ es ∧
        u.io.responses = s.io.responses ++ rs ∧ v.io.responses = t.io.responses ++ rs
    | .fault f, .fault g => f = g
    | .refused q, .refused r => q = r
    | _, _ => False) ∧
  ∀ (cmds : List Instr) (s u : State) (later : List ByteItem), runCmds (.clr :: cmds) s = .next u →
    runCmds (.clr :: cmds) { s with io := { s.io with byteIn := s.io.byteIn ++ later } } =
      .next { u with io := { u.io with byteIn := u.io.byteIn ++ later } }

/-- R200, R92: ENCODE of a packet of at least one and fewer than 2^64 bytes, given twice, from any state: every command
answers `OK` and the bits written are the header of BUILD's tree, the codes of the bytes, the End-of-Stream code, and one
flush. -/
def Obligations.EncodeSessionWritesTheStream : Prop :=
  ∀ (s : State) (bs : List Byte) (rest : List ByteItem),
    bs ≠ [] → bs.length < 2 ^ 64 → s.io.errors.allQuiet →
    s.io.byteIn = packetItems bs ++ (packetItems bs ++ rest) →
    ∃ (t : State) (tree : Tree) (p e : Bits), builtTree (occOf bs) = .root tree ∧
      payload (lutOf tree.inject) bs = some p ∧ lutGet (lutOf tree.inject) .eos = some e ∧
      runCmds encodeSession s = .next t ∧ t.regs = { State.reset.regs with phase := .done } ∧
      t.bitOut = s.bitOut ++ ((tree.ser ++ p ++ e).map .bit ++ [.flush]) ∧ t.io.byteIn = rest ∧
      t.io.responses = s.io.responses ++ List.replicate 7 .ok

/-- R203, R210: what ENCODE writes, followed by any pad, DECODE reads back, leaving the pad unread. -/
def Obligations.RoundTrip : Prop :=
  ∀ (s : State) (bs : List Byte) (rest : List ByteItem),
    bs ≠ [] → bs.length < 2 ^ 64 → s.io.errors.allQuiet →
    s.io.byteIn = packetItems bs ++ (packetItems bs ++ rest) →
    ∃ (t : State) (stream : Bits), runCmds encodeSession s = .next t ∧
      t.bitOut = s.bitOut ++ (stream.map .bit ++ [.flush]) ∧
      ∀ (u : State) (pad : Bits), u.io.errors.allQuiet → u.io.bitIn = stream ++ pad →
        ∃ v : State, runCmds decodeSession u = .next v ∧ v.byteOut = u.byteOut ++ bs ∧ v.io.bitIn = pad ∧
          v.regs = { State.reset.regs with phase := .done } ∧
          v.io.responses = u.io.responses ++ List.replicate 4 .ok

/-- R209: DECODE of the first `k` bits of what ENCODE writes. With the whole header kept and the End-of-Stream code cut, DEC
raises `E_PREMATURE_EOS(PAYLOAD)` having emitted exactly the bytes whose whole codes are kept; with the header cut, DESER
raises `E_PREMATURE_EOS`, `HDR_FLAG` where the cut leaves a flag due and `HDR_BYTE` elsewhere, and nothing is emitted. -/
def Obligations.TruncatedStreamsAreReported : Prop :=
  ∀ (s : State) (bs : List Byte) (rest : List ByteItem),
    bs ≠ [] → bs.length < 2 ^ 64 → s.io.errors.allQuiet →
    s.io.byteIn = packetItems bs ++ (packetItems bs ++ rest) →
    ∃ (t : State) (tree : Tree) (stream : Bits), builtTree (occOf bs) = .root tree ∧
      runCmds encodeSession s = .next t ∧ t.bitOut = s.bitOut ++ (stream.map .bit ++ [.flush]) ∧
      ∀ (u : State) (k : Nat), u.io.errors.allQuiet → k < stream.length → u.io.bitIn = stream.take k →
        ∃ v : State, runCmds decodeSession u = .next v ∧
          (k < tree.ser.length → v.byteOut = u.byteOut ∧
            v.regs.fault = some
              { cause := .prematureEos (if k ∈ (tree.flags 0).map Prod.fst then .hdrFlag else .hdrByte), op := 0b0101#4 }) ∧
          (tree.ser.length ≤ k → v.regs.fault = some { cause := .prematureEos .payload, op := 0b1001#4 } ∧
            ∃ (j : Nat) (q : Bits), v.byteOut = u.byteOut ++ bs.take j ∧
              payload (lutOf tree.inject) (bs.take j) = some q ∧ tree.ser.length + q.length ≤ k ∧
              (j < bs.length → ∀ q', payload (lutOf tree.inject) (bs.take (j + 1)) = some q' →
                k < tree.ser.length + q'.length))

/-- R204: ENCODE of the empty packet ends at BUILD with `E_EMPTY`, writes no bit, and the commands after BUILD are refused;
DECODE of the empty packet ends at DESER with `E_PREMATURE_EOS(HDR_FLAG)`. -/
def Obligations.EmptySequenceFaults : Prop :=
  ∀ s : State, s.io.errors.allQuiet →
    (∀ rest, s.io.byteIn = packetItems [] ++ rest →
      ∃ t, runCmds encodeSession s = .next t ∧ t.bitOut = s.bitOut ∧
        t.regs.fault = some { cause := .empty, op := 0b0011#4 } ∧ t.io.byteIn = rest ∧
        t.io.responses = s.io.responses ++ [.ok, .ok, .fault .empty, .fault .empty, .fault .empty, .fault .empty,
          .fault .empty]) ∧
    (s.io.bitIn = [] →
      ∃ t, runCmds decodeSession s = .next t ∧ t.byteOut = s.byteOut ∧
        t.regs.fault = some { cause := .prematureEos .hdrFlag, op := 0b0101#4 } ∧
        t.io.responses = s.io.responses ++ [.ok, .fault .prematureEos, .fault .prematureEos, .fault .prematureEos])

/-- R205: ENCODE of `n` copies of one byte writes a 1 and the byte's bits, `n` zeros, a 1, and one flush. -/
def Obligations.OneByteValueStream : Prop :=
  ∀ (s : State) (b : Byte) (n : Nat) (rest : List ByteItem),
    1 ≤ n → n < 2 ^ 64 → s.io.errors.allQuiet →
    s.io.byteIn = packetItems (List.replicate n b) ++ (packetItems (List.replicate n b) ++ rest) →
    ∃ t, runCmds encodeSession s = .next t ∧
      t.bitOut = s.bitOut ++
        ((true :: bits8 b ++ List.replicate n false ++ [true]).map .bit ++ [.flush])
end

