-- ==== Sys2Proof/Laws/State.lean ====
section
/-! SUPPORT. Every register write and channel update, seen through every field: one lemma per field per update, so that no
proof unfolds a record update. -/

namespace Sys2Proof.Machine

variable (s : State)

/-! ### setOcc -/

@[simp] theorem State.setOcc_occ (v : Occ) : (s.setOcc v).regs.occ = v := rfl
@[simp] theorem State.setOcc_tree (v : Occ) : (s.setOcc v).regs.tree = s.regs.tree := rfl
@[simp] theorem State.setOcc_work (v : Occ) : (s.setOcc v).regs.work = s.regs.work := rfl
@[simp] theorem State.setOcc_lut (v : Occ) : (s.setOcc v).regs.lut = s.regs.lut := rfl
@[simp] theorem State.setOcc_cur (v : Occ) : (s.setOcc v).regs.cur = s.regs.cur := rfl
@[simp] theorem State.setOcc_phase (v : Occ) : (s.setOcc v).regs.phase = s.regs.phase := rfl
@[simp] theorem State.setOcc_fault (v : Occ) : (s.setOcc v).regs.fault = s.regs.fault := rfl
@[simp] theorem State.setOcc_io (v : Occ) : (s.setOcc v).io = s.io := rfl

/-! ### setTree -/

@[simp] theorem State.setTree_occ (v : Option Tree) : (s.setTree v).regs.occ = s.regs.occ := rfl
@[simp] theorem State.setTree_tree (v : Option Tree) : (s.setTree v).regs.tree = v := rfl
@[simp] theorem State.setTree_work (v : Option Tree) : (s.setTree v).regs.work = s.regs.work := rfl
@[simp] theorem State.setTree_lut (v : Option Tree) : (s.setTree v).regs.lut = s.regs.lut := rfl
@[simp] theorem State.setTree_cur (v : Option Tree) : (s.setTree v).regs.cur = s.regs.cur := rfl
@[simp] theorem State.setTree_phase (v : Option Tree) : (s.setTree v).regs.phase = s.regs.phase := rfl
@[simp] theorem State.setTree_fault (v : Option Tree) : (s.setTree v).regs.fault = s.regs.fault := rfl
@[simp] theorem State.setTree_io (v : Option Tree) : (s.setTree v).io = s.io := rfl

/-! ### setWork -/

@[simp] theorem State.setWork_occ (v : List Tree) : (s.setWork v).regs.occ = s.regs.occ := rfl
@[simp] theorem State.setWork_tree (v : List Tree) : (s.setWork v).regs.tree = s.regs.tree := rfl
@[simp] theorem State.setWork_work (v : List Tree) : (s.setWork v).regs.work = v := rfl
@[simp] theorem State.setWork_lut (v : List Tree) : (s.setWork v).regs.lut = s.regs.lut := rfl
@[simp] theorem State.setWork_cur (v : List Tree) : (s.setWork v).regs.cur = s.regs.cur := rfl
@[simp] theorem State.setWork_phase (v : List Tree) : (s.setWork v).regs.phase = s.regs.phase := rfl
@[simp] theorem State.setWork_fault (v : List Tree) : (s.setWork v).regs.fault = s.regs.fault := rfl
@[simp] theorem State.setWork_io (v : List Tree) : (s.setWork v).io = s.io := rfl

/-! ### setLut -/

@[simp] theorem State.setLut_occ (v : Lut) : (s.setLut v).regs.occ = s.regs.occ := rfl
@[simp] theorem State.setLut_tree (v : Lut) : (s.setLut v).regs.tree = s.regs.tree := rfl
@[simp] theorem State.setLut_work (v : Lut) : (s.setLut v).regs.work = s.regs.work := rfl
@[simp] theorem State.setLut_lut (v : Lut) : (s.setLut v).regs.lut = v := rfl
@[simp] theorem State.setLut_cur (v : Lut) : (s.setLut v).regs.cur = s.regs.cur := rfl
@[simp] theorem State.setLut_phase (v : Lut) : (s.setLut v).regs.phase = s.regs.phase := rfl
@[simp] theorem State.setLut_fault (v : Lut) : (s.setLut v).regs.fault = s.regs.fault := rfl
@[simp] theorem State.setLut_io (v : Lut) : (s.setLut v).io = s.io := rfl

/-! ### setCur -/

@[simp] theorem State.setCur_occ (v : Option Tree) : (s.setCur v).regs.occ = s.regs.occ := rfl
@[simp] theorem State.setCur_tree (v : Option Tree) : (s.setCur v).regs.tree = s.regs.tree := rfl
@[simp] theorem State.setCur_work (v : Option Tree) : (s.setCur v).regs.work = s.regs.work := rfl
@[simp] theorem State.setCur_lut (v : Option Tree) : (s.setCur v).regs.lut = s.regs.lut := rfl
@[simp] theorem State.setCur_cur (v : Option Tree) : (s.setCur v).regs.cur = v := rfl
@[simp] theorem State.setCur_phase (v : Option Tree) : (s.setCur v).regs.phase = s.regs.phase := rfl
@[simp] theorem State.setCur_fault (v : Option Tree) : (s.setCur v).regs.fault = s.regs.fault := rfl
@[simp] theorem State.setCur_io (v : Option Tree) : (s.setCur v).io = s.io := rfl

/-! ### setPhase -/

@[simp] theorem State.setPhase_occ (v : Phase) : (s.setPhase v).regs.occ = s.regs.occ := rfl
@[simp] theorem State.setPhase_tree (v : Phase) : (s.setPhase v).regs.tree = s.regs.tree := rfl
@[simp] theorem State.setPhase_work (v : Phase) : (s.setPhase v).regs.work = s.regs.work := rfl
@[simp] theorem State.setPhase_lut (v : Phase) : (s.setPhase v).regs.lut = s.regs.lut := rfl
@[simp] theorem State.setPhase_cur (v : Phase) : (s.setPhase v).regs.cur = s.regs.cur := rfl
@[simp] theorem State.setPhase_phase (v : Phase) : (s.setPhase v).regs.phase = v := rfl
@[simp] theorem State.setPhase_fault (v : Phase) : (s.setPhase v).regs.fault = s.regs.fault := rfl
@[simp] theorem State.setPhase_io (v : Phase) : (s.setPhase v).io = s.io := rfl

/-! ### setFault -/

@[simp] theorem State.setFault_occ (v : Option FaultRecord) : (s.setFault v).regs.occ = s.regs.occ := rfl
@[simp] theorem State.setFault_tree (v : Option FaultRecord) : (s.setFault v).regs.tree = s.regs.tree := rfl
@[simp] theorem State.setFault_work (v : Option FaultRecord) : (s.setFault v).regs.work = s.regs.work := rfl
@[simp] theorem State.setFault_lut (v : Option FaultRecord) : (s.setFault v).regs.lut = s.regs.lut := rfl
@[simp] theorem State.setFault_cur (v : Option FaultRecord) : (s.setFault v).regs.cur = s.regs.cur := rfl
@[simp] theorem State.setFault_phase (v : Option FaultRecord) : (s.setFault v).regs.phase = s.regs.phase := rfl
@[simp] theorem State.setFault_fault (v : Option FaultRecord) : (s.setFault v).regs.fault = v := rfl
@[simp] theorem State.setFault_io (v : Option FaultRecord) : (s.setFault v).io = s.io := rfl

/-! ### setRegs -/

@[simp] theorem State.setRegs_regs (v : Regs) : (s.setRegs v).regs = v := rfl
@[simp] theorem State.setRegs_io (v : Regs) : (s.setRegs v).io = s.io := rfl

/-! ### setCmd -/

@[simp] theorem State.setCmd_regs (v : List CmdWord) : (s.setCmd v).regs = s.regs := rfl
@[simp] theorem State.setCmd_io_cmd (v : List CmdWord) : (s.setCmd v).io.cmd = v := rfl
@[simp] theorem State.setCmd_io_responses (v : List CmdWord) : (s.setCmd v).io.responses = s.io.responses := rfl
@[simp] theorem State.setCmd_io_byteIn (v : List CmdWord) : (s.setCmd v).io.byteIn = s.io.byteIn := rfl
@[simp] theorem State.setCmd_io_bitIn (v : List CmdWord) : (s.setCmd v).io.bitIn = s.io.bitIn := rfl
@[simp] theorem State.setCmd_io_errors (v : List CmdWord) : (s.setCmd v).io.errors = s.io.errors := rfl
@[simp] theorem State.setCmd_io_events (v : List CmdWord) : (s.setCmd v).io.events = s.io.events := rfl

/-! ### setByteIn -/

@[simp] theorem State.setByteIn_regs (v : List ByteItem) : (s.setByteIn v).regs = s.regs := rfl
@[simp] theorem State.setByteIn_io_cmd (v : List ByteItem) : (s.setByteIn v).io.cmd = s.io.cmd := rfl
@[simp] theorem State.setByteIn_io_responses (v : List ByteItem) : (s.setByteIn v).io.responses = s.io.responses := rfl
@[simp] theorem State.setByteIn_io_byteIn (v : List ByteItem) : (s.setByteIn v).io.byteIn = v := rfl
@[simp] theorem State.setByteIn_io_bitIn (v : List ByteItem) : (s.setByteIn v).io.bitIn = s.io.bitIn := rfl
@[simp] theorem State.setByteIn_io_errors (v : List ByteItem) : (s.setByteIn v).io.errors = s.io.errors := rfl
@[simp] theorem State.setByteIn_io_events (v : List ByteItem) : (s.setByteIn v).io.events = s.io.events := rfl

/-! ### setBitIn -/

@[simp] theorem State.setBitIn_regs (v : List Bit) : (s.setBitIn v).regs = s.regs := rfl
@[simp] theorem State.setBitIn_io_cmd (v : List Bit) : (s.setBitIn v).io.cmd = s.io.cmd := rfl
@[simp] theorem State.setBitIn_io_responses (v : List Bit) : (s.setBitIn v).io.responses = s.io.responses := rfl
@[simp] theorem State.setBitIn_io_byteIn (v : List Bit) : (s.setBitIn v).io.byteIn = s.io.byteIn := rfl
@[simp] theorem State.setBitIn_io_bitIn (v : List Bit) : (s.setBitIn v).io.bitIn = v := rfl
@[simp] theorem State.setBitIn_io_errors (v : List Bit) : (s.setBitIn v).io.errors = s.io.errors := rfl
@[simp] theorem State.setBitIn_io_events (v : List Bit) : (s.setBitIn v).io.events = s.io.events := rfl

/-! ### setErrors -/

@[simp] theorem State.setErrors_regs (v : IoErrors) : (s.setErrors v).regs = s.regs := rfl
@[simp] theorem State.setErrors_io_cmd (v : IoErrors) : (s.setErrors v).io.cmd = s.io.cmd := rfl
@[simp] theorem State.setErrors_io_responses (v : IoErrors) : (s.setErrors v).io.responses = s.io.responses := rfl
@[simp] theorem State.setErrors_io_byteIn (v : IoErrors) : (s.setErrors v).io.byteIn = s.io.byteIn := rfl
@[simp] theorem State.setErrors_io_bitIn (v : IoErrors) : (s.setErrors v).io.bitIn = s.io.bitIn := rfl
@[simp] theorem State.setErrors_io_errors (v : IoErrors) : (s.setErrors v).io.errors = v := rfl
@[simp] theorem State.setErrors_io_events (v : IoErrors) : (s.setErrors v).io.events = s.io.events := rfl

/-! ### record -/

@[simp] theorem State.record_regs (v : List Event) : (s.record v).regs = s.regs := rfl
@[simp] theorem State.record_io_cmd (v : List Event) : (s.record v).io.cmd = s.io.cmd := rfl
@[simp] theorem State.record_io_responses (v : List Event) : (s.record v).io.responses = s.io.responses := rfl
@[simp] theorem State.record_io_byteIn (v : List Event) : (s.record v).io.byteIn = s.io.byteIn := rfl
@[simp] theorem State.record_io_bitIn (v : List Event) : (s.record v).io.bitIn = s.io.bitIn := rfl
@[simp] theorem State.record_io_errors (v : List Event) : (s.record v).io.errors = s.io.errors := rfl
@[simp] theorem State.record_io_events (v : List Event) : (s.record v).io.events = s.io.events ++ v := rfl

/-! ### respond -/

@[simp] theorem State.respond_regs (v : Response) : (s.respond v).regs = s.regs := rfl
@[simp] theorem State.respond_io_cmd (v : Response) : (s.respond v).io.cmd = s.io.cmd := rfl
@[simp] theorem State.respond_io_responses (v : Response) : (s.respond v).io.responses = s.io.responses ++ [v] := rfl
@[simp] theorem State.respond_io_byteIn (v : Response) : (s.respond v).io.byteIn = s.io.byteIn := rfl
@[simp] theorem State.respond_io_bitIn (v : Response) : (s.respond v).io.bitIn = s.io.bitIn := rfl
@[simp] theorem State.respond_io_errors (v : Response) : (s.respond v).io.errors = s.io.errors := rfl
@[simp] theorem State.respond_io_events (v : Response) : (s.respond v).io.events = s.io.events := rfl

@[simp] theorem State.record_nil : s.record [] = s := by
  simp [State.record]

/-! ### transfer -/

@[simp] theorem State.transfer_regs (ch : Channel) : (s.transfer ch).regs = s.regs := rfl
@[simp] theorem State.transfer_io_cmd (ch : Channel) : (s.transfer ch).io.cmd = s.io.cmd := rfl
@[simp] theorem State.transfer_io_responses (ch : Channel) : (s.transfer ch).io.responses = s.io.responses := rfl
@[simp] theorem State.transfer_io_byteIn (ch : Channel) : (s.transfer ch).io.byteIn = s.io.byteIn := rfl
@[simp] theorem State.transfer_io_bitIn (ch : Channel) : (s.transfer ch).io.bitIn = s.io.bitIn := rfl
@[simp] theorem State.transfer_io_errors (ch : Channel) : (s.transfer ch).io.errors = s.io.errors.advance ch := rfl
@[simp] theorem State.transfer_io_events (ch : Channel) : (s.transfer ch).io.events = s.io.events := rfl

/-! ### Fault entry, refusal, the start and the end of a session -/

@[simp] theorem faultEntry_regs (op : CmdWord) (c : Cause) :
    (faultEntry op c s).regs =
      { s.regs with fault := some { cause := c, op := op }, cur := none, work := [] } := rfl
@[simp] theorem faultEntry_io (op : CmdWord) (c : Cause) :
    (faultEntry op c s).io = { s.io with responses := s.io.responses ++ [.fault c.name] } := rfl
@[simp] theorem refuse_regs (f : FaultRecord) : (refuse f s).regs = s.regs := rfl
@[simp] theorem refuse_io (f : FaultRecord) :
    (refuse f s).io = { s.io with responses := s.io.responses ++ [.fault f.cause.name] } := rfl
@[simp] theorem clearCore_regs : (clearCore s).regs = Regs.reset := rfl
@[simp] theorem clearCore_io : (clearCore s).io = s.io := rfl
@[simp] theorem discardData_regs :
    (discardData s).regs = { s.regs with occ := Occ.zero, tree := none, lut := Lut.empty } := rfl
@[simp] theorem discardData_io : (discardData s).io = s.io := rfl

end Sys2Proof.Machine
end

