-- ==== Sys2Proof/Laws/Channels.lean ====
section
/-! SUPPORT. What each channel primitive (00_scope.md R12) can do, and what a run of them does when no transfer reports an
error and when the first error comes after a known number of transfers. -/

namespace Sys2Proof.Machine

/-! ### The oracle of failing transfers -/

theorem IoErrors.on_advance_self (e : IoErrors) (ch : Channel) : (e.advance ch).on ch = (e.on ch).tail := by
  cases ch <;> rfl

theorem IoErrors.on_advance_ne (e : IoErrors) {ch ch' : Channel} (h : ch' ≠ ch) :
    (e.advance ch).on ch' = e.on ch' := by
  cases ch <;> cases ch' <;> first | rfl | exact absurd rfl h

@[simp] theorem IoErrors.after_zero (e : IoErrors) (ch : Channel) : e.after ch 0 = e := by
  cases ch <;> rfl

theorem IoErrors.after_succ (e : IoErrors) (ch : Channel) (n : Nat) :
    e.after ch (n + 1) = (e.advance ch).after ch n := by
  cases ch <;> simp [IoErrors.after, IoErrors.advance, List.drop_tail]

theorem IoErrors.after_one (e : IoErrors) (ch : Channel) : e.after ch 1 = e.advance ch := by
  rw [IoErrors.after_succ, IoErrors.after_zero]

theorem IoErrors.after_after (e : IoErrors) (ch : Channel) (m n : Nat) :
    (e.after ch m).after ch n = e.after ch (m + n) := by
  cases ch <;> simp [IoErrors.after, List.drop_drop]

theorem IoErrors.after_comm (e : IoErrors) {ch ch' : Channel} (h : ch ≠ ch') (m n : Nat) :
    (e.after ch m).after ch' n = (e.after ch' n).after ch m := by
  cases ch <;> cases ch' <;> first | rfl | exact absurd rfl h

theorem IoErrors.on_after_self (e : IoErrors) (ch : Channel) (n : Nat) :
    (e.after ch n).on ch = (e.on ch).drop n := by
  cases ch <;> rfl

theorem IoErrors.on_after_ne (e : IoErrors) {ch ch' : Channel} (h : ch' ≠ ch) (n : Nat) :
    (e.after ch n).on ch' = e.on ch' := by
  cases ch <;> cases ch' <;> first | rfl | exact absurd rfl h

@[simp] theorem IoErrors.quiet_zero (e : IoErrors) (ch : Channel) : e.quiet ch 0 := by
  simp [IoErrors.quiet]

theorem IoErrors.quiet_add (e : IoErrors) (ch : Channel) (m n : Nat) :
    e.quiet ch (m + n) ↔ e.quiet ch m ∧ (e.after ch m).quiet ch n := by
  simp only [IoErrors.quiet, IoErrors.on_after_self, List.take_add, List.mem_append, not_or]

theorem IoErrors.quiet_mono {e : IoErrors} {ch : Channel} {m n : Nat} (h : e.quiet ch n) (hmn : m ≤ n) :
    e.quiet ch m := by
  obtain ⟨k, rfl⟩ := Nat.exists_eq_add_of_le hmn
  exact ((e.quiet_add ch m k).1 h).1

theorem IoErrors.quiet_after_ne (e : IoErrors) {ch ch' : Channel} (h : ch' ≠ ch) (m n : Nat) :
    (e.after ch m).quiet ch' n ↔ e.quiet ch' n := by
  simp only [IoErrors.quiet, e.on_after_ne h]

theorem IoErrors.allQuiet.quiet {e : IoErrors} (h : e.allQuiet) (ch : Channel) (n : Nat) : e.quiet ch n :=
  fun hm => h ch (List.mem_of_mem_take hm)

theorem IoErrors.allQuiet.after {e : IoErrors} (h : e.allQuiet) (ch : Channel) (n : Nat) : (e.after ch n).allQuiet := by
  intro ch' hm
  by_cases hc : ch' = ch
  · subst hc
    rw [IoErrors.on_after_self] at hm
    exact h _ (List.mem_of_mem_drop hm)
  · rw [e.on_after_ne hc] at hm
    exact h _ hm

/-- The next transfer of a channel does not fail where one more is quiet. -/
theorem State.fails_of_quiet {s : State} {ch : Channel} (h : s.io.errors.quiet ch 1) : s.fails ch = false := by
  simp only [State.fails]
  simp only [IoErrors.quiet] at h
  cases he : s.io.errors.on ch with
  | nil => rfl
  | cons b bs => cases b <;> simp_all

theorem State.fails_of_failsAt_zero {s : State} {ch : Channel} (h : s.io.errors.failsAt ch 0) :
    s.fails ch = true := by
  simp only [State.fails]
  have h2 := h.2
  cases he : s.io.errors.on ch with
  | nil => simp [he] at h2
  | cons b bs => simp_all

theorem IoErrors.failsAt_succ {e : IoErrors} {ch : Channel} {n : Nat} (h : e.failsAt ch (n + 1)) :
    e.quiet ch 1 ∧ (e.after ch 1).failsAt ch n := by
  refine ⟨IoErrors.quiet_mono h.1 (by omega), ?_, ?_⟩
  · have := h.1
    rw [Nat.add_comm, IoErrors.quiet_add] at this
    exact this.2
  · rw [IoErrors.on_after_self, List.getElem?_drop, Nat.add_comm]
    exact h.2

theorem IoErrors.failsAt_add {e : IoErrors} {ch : Channel} {m n : Nat} (h : e.failsAt ch (m + n)) :
    e.quiet ch m ∧ (e.after ch m).failsAt ch n := by
  refine ⟨IoErrors.quiet_mono h.1 (by omega), ?_, ?_⟩
  · exact ((e.quiet_add ch m n).1 h.1).2
  · rw [IoErrors.on_after_self, List.getElem?_drop]
    exact h.2

theorem IoErrors.failsAt_after_ne {e : IoErrors} {ch ch' : Channel} (h : ch' ≠ ch) (m n : Nat) :
    (e.after ch m).failsAt ch' n ↔ e.failsAt ch' n := by
  simp only [IoErrors.failsAt, e.quiet_after_ne h, e.on_after_ne h]

/-! ### A run of completed transfers -/

/-- The state after `n` transfers of a channel that recorded the events `es`. -/
def State.moved (s : State) (ch : Channel) (n : Nat) (es : List Event) : State :=
  (s.setErrors (s.io.errors.after ch n)).record es

@[simp] theorem State.moved_regs (s : State) (ch : Channel) (n : Nat) (es : List Event) :
    (s.moved ch n es).regs = s.regs := rfl
@[simp] theorem State.moved_io_cmd (s : State) (ch : Channel) (n : Nat) (es : List Event) :
    (s.moved ch n es).io.cmd = s.io.cmd := rfl
@[simp] theorem State.moved_io_responses (s : State) (ch : Channel) (n : Nat) (es : List Event) :
    (s.moved ch n es).io.responses = s.io.responses := rfl
@[simp] theorem State.moved_io_byteIn (s : State) (ch : Channel) (n : Nat) (es : List Event) :
    (s.moved ch n es).io.byteIn = s.io.byteIn := rfl
@[simp] theorem State.moved_io_bitIn (s : State) (ch : Channel) (n : Nat) (es : List Event) :
    (s.moved ch n es).io.bitIn = s.io.bitIn := rfl
@[simp] theorem State.moved_io_errors (s : State) (ch : Channel) (n : Nat) (es : List Event) :
    (s.moved ch n es).io.errors = s.io.errors.after ch n := rfl
@[simp] theorem State.moved_io_events (s : State) (ch : Channel) (n : Nat) (es : List Event) :
    (s.moved ch n es).io.events = s.io.events ++ es := rfl

theorem State.moved_zero (s : State) (ch : Channel) : s.moved ch 0 [] = s := by
  simp [State.moved, State.setErrors, State.record]

theorem State.moved_moved (s : State) (ch : Channel) (m n : Nat) (es fs : List Event) :
    (s.moved ch m es).moved ch n fs = s.moved ch (m + n) (es ++ fs) := by
  simp [State.moved, State.setErrors, State.record, IoErrors.after_after]

/-! ### Output -/

/-- All an output transfer can do. -/
theorem send_cases (ch : Channel) (e : Event) (s : State) :
    (s.fails ch = false ∧ send ch e s = .done (s.moved ch 1 [e])) ∨
    (s.fails ch = true ∧ send ch e s = .raised (.io ch) (s.moved ch 1 [])) := by
  cases h : s.fails ch
  · left
    refine ⟨rfl, ?_⟩
    simp [send, h, State.moved, State.transfer, IoErrors.after_one]
  · right
    refine ⟨rfl, ?_⟩
    simp [send, h, State.moved, State.transfer, IoErrors.after_one]

theorem send_quiet {ch : Channel} {e : Event} {s : State} (h : s.io.errors.quiet ch 1) :
    send ch e s = .done (s.moved ch 1 [e]) := by
  rcases send_cases ch e s with ⟨_, h'⟩ | ⟨hf, _⟩
  · exact h'
  · rw [State.fails_of_quiet h] at hf; cases hf

theorem send_failsAt {ch : Channel} {e : Event} {s : State} (h : s.io.errors.failsAt ch 0) :
    send ch e s = .raised (.io ch) (s.moved ch 1 []) := by
  rcases send_cases ch e s with ⟨hf, _⟩ | ⟨_, h'⟩
  · rw [State.fails_of_failsAt_zero h] at hf; cases hf
  · exact h'

/-- `BitWriteSeq` with no error appends its bits in order (20_memory.md R54). -/
theorem bitWriteSeq_quiet {p : Bits} {s : State} (h : s.io.errors.quiet .bitOut p.length) :
    bitWriteSeq p s = .done (s.moved .bitOut p.length (p.map .outBit)) := by
  induction p generalizing s with
  | nil => simp [bitWriteSeq, State.moved_zero]
  | cons b bs ih =>
    rw [List.length_cons, Nat.add_comm, IoErrors.quiet_add] at h
    have hs : bitWrite b s = .done (s.moved .bitOut 1 [.outBit b]) := send_quiet h.1
    rw [bitWriteSeq, hs, Run.andThen, ih (by simpa using h.2), State.moved_moved, Nat.add_comm]
    rfl

/-- `BitWriteSeq` whose transfer after `n` fails has written the first `n` bits and raises `E_IO(BIT_OUT)` (R224). -/
theorem bitWriteSeq_failsAt {p : Bits} {s : State} {n : Nat} (h : s.io.errors.failsAt .bitOut n) (hn : n < p.length) :
    bitWriteSeq p s = .raised (.io .bitOut) (s.moved .bitOut (n + 1) ((p.take n).map .outBit)) := by
  induction p generalizing s n with
  | nil => simp at hn
  | cons b bs ih =>
    cases n with
    | zero =>
      have hs : bitWrite b s = .raised (.io .bitOut) (s.moved .bitOut 1 []) := send_failsAt h
      simp [bitWriteSeq, hs, Run.andThen]
    | succ n =>
      obtain ⟨hq, hf⟩ := IoErrors.failsAt_succ h
      have hs : bitWrite b s = .done (s.moved .bitOut 1 [.outBit b]) := send_quiet hq
      have hn' : n < bs.length := by simpa using hn
      rw [bitWriteSeq, hs, Run.andThen, ih (by simpa using hf) hn', State.moved_moved, Nat.add_comm 1]
      rfl

/-- All `BitWriteSeq` can do. -/
theorem bitWriteSeq_cases (p : Bits) (s : State) :
    bitWriteSeq p s = .done (s.moved .bitOut p.length (p.map .outBit)) ∨
    ∃ n, n < p.length ∧
      bitWriteSeq p s = .raised (.io .bitOut) (s.moved .bitOut (n + 1) ((p.take n).map .outBit)) := by
  induction p generalizing s with
  | nil => left; simp [bitWriteSeq, State.moved_zero]
  | cons b bs ih =>
    rcases send_cases .bitOut (.outBit b) s with ⟨_, hs⟩ | ⟨_, hs⟩
    · rw [bitWriteSeq, bitWrite, hs, Run.andThen]
      rcases ih (s.moved .bitOut 1 [.outBit b]) with h | ⟨n, hn, h⟩
      · left; rw [h, State.moved_moved, Nat.add_comm]; rfl
      · right
        refine ⟨n + 1, by simpa using hn, ?_⟩
        rw [h, State.moved_moved, Nat.add_comm 1]; rfl
    · right
      exact ⟨0, by simp, by simp [bitWriteSeq, bitWrite, hs, Run.andThen]⟩

/-! ### Input -/

/-- All `ByteIn()` can do. -/
theorem byteIn_cases (s : State) :
    byteIn s = .failed (s.moved .byteIn 1 []) ∨
    (s.io.byteIn = [] ∧ byteIn s = .short (s.moved .byteIn 1 [])) ∨
    (∃ v rest, s.io.byteIn = .byte v :: rest ∧
      byteIn s = .got (.byte v) ((s.moved .byteIn 1 [.inByte v]).setByteIn rest)) ∨
    (∃ rest, s.io.byteIn = .packetEnd :: rest ∧
      byteIn s = .got .packetEnd ((s.moved .byteIn 1 [.inEnd]).setByteIn rest)) := by
  have hm : s.moved .byteIn 1 [] = s.transfer .byteIn := by
    simp [State.moved, State.transfer, IoErrors.after_one]
  have hr : ∀ e rest, ((s.transfer .byteIn).setByteIn rest).record [e] =
      (s.moved .byteIn 1 [e]).setByteIn rest := by
    intro e rest
    simp [State.moved, State.transfer, IoErrors.after_one, State.record, State.setByteIn]
  cases hf : s.fails .byteIn
  · right
    cases hb : s.io.byteIn with
    | nil => left; simp [byteIn, hf, hb, hm]
    | cons x rest =>
      right
      cases x with
      | byte v => left; exact ⟨v, rest, rfl, by simp [byteIn, hf, hb, hr]⟩
      | packetEnd => right; exact ⟨rest, rfl, by simp [byteIn, hf, hb, hr]⟩
  · left; simp [byteIn, hf, hm]

theorem byteIn_failsAt {s : State} (h : s.io.errors.failsAt .byteIn 0) :
    byteIn s = .failed (s.moved .byteIn 1 []) := by
  simp [byteIn, State.fails_of_failsAt_zero h, State.moved, State.transfer, IoErrors.after_one]

theorem byteIn_byte {s : State} {v : Byte} {rest : List ByteItem} (h : s.io.errors.quiet .byteIn 1)
    (hb : s.io.byteIn = .byte v :: rest) :
    byteIn s = .got (.byte v) ((s.moved .byteIn 1 [.inByte v]).setByteIn rest) := by
  simp [byteIn, State.fails_of_quiet h, hb, State.moved, State.transfer, IoErrors.after_one, State.record,
    State.setByteIn]

theorem byteIn_end {s : State} {rest : List ByteItem} (h : s.io.errors.quiet .byteIn 1)
    (hb : s.io.byteIn = .packetEnd :: rest) :
    byteIn s = .got .packetEnd ((s.moved .byteIn 1 [.inEnd]).setByteIn rest) := by
  simp [byteIn, State.fails_of_quiet h, hb, State.moved, State.transfer, IoErrors.after_one, State.record,
    State.setByteIn]

theorem byteIn_starved {s : State} (h : s.io.errors.quiet .byteIn 1) (hb : s.io.byteIn = []) :
    byteIn s = .short (s.moved .byteIn 1 []) := by
  simp [byteIn, State.fails_of_quiet h, hb, State.moved, State.transfer, IoErrors.after_one]

@[simp] theorem bitAvail_eq_false (s : State) : bitAvail s = false ↔ s.io.bitIn = [] := by
  simp [bitAvail]

/-- All `BitRead()` can do where a bit remains (20_memory.md R57). -/
theorem bitRead_cases {s : State} {b : Bit} {rest : Bits} (hb : s.io.bitIn = b :: rest) :
    (s.fails .bitIn = true ∧ bitRead s = .failed (s.moved .bitIn 1 [])) ∨
    (s.fails .bitIn = false ∧ bitRead s = .got b ((s.moved .bitIn 1 [.inBit b]).setBitIn rest)) := by
  cases hf : s.fails .bitIn
  · right
    refine ⟨rfl, ?_⟩
    simp [bitRead, hf, hb, State.moved, State.transfer, IoErrors.after_one, State.record, State.setBitIn]
  · left
    refine ⟨rfl, ?_⟩
    simp [bitRead, hf, State.moved, State.transfer, IoErrors.after_one]

theorem bitRead_quiet {s : State} {b : Bit} {rest : Bits} (h : s.io.errors.quiet .bitIn 1)
    (hb : s.io.bitIn = b :: rest) :
    bitRead s = .got b ((s.moved .bitIn 1 [.inBit b]).setBitIn rest) := by
  rcases bitRead_cases hb with ⟨hf, _⟩ | ⟨_, h'⟩
  · rw [State.fails_of_quiet h] at hf; cases hf
  · exact h'

theorem bitRead_failsAt {s : State} {b : Bit} {rest : Bits} (h : s.io.errors.failsAt .bitIn 0)
    (hb : s.io.bitIn = b :: rest) : bitRead s = .failed (s.moved .bitIn 1 []) := by
  rcases bitRead_cases hb with ⟨_, h'⟩ | ⟨hf, _⟩
  · exact h'
  · rw [State.fails_of_failsAt_zero h] at hf; cases hf

/-- All `BitReadN(n)` can do (20_memory.md R58). -/
theorem bitReadN_cases (n : Nat) (s : State) :
    (s.fails .bitIn = true ∧ bitReadN n s = .failed (s.moved .bitIn 1 [])) ∨
    (s.fails .bitIn = false ∧ s.io.bitIn.length < n ∧ bitReadN n s = .short (s.moved .bitIn 1 [.inShort])) ∨
    (s.fails .bitIn = false ∧ n ≤ s.io.bitIn.length ∧
      bitReadN n s = .got (s.io.bitIn.take n)
        ((s.moved .bitIn 1 ((s.io.bitIn.take n).map .inBit)).setBitIn (s.io.bitIn.drop n))) := by
  cases hf : s.fails .bitIn
  · right
    by_cases hn : s.io.bitIn.length < n
    · left
      refine ⟨rfl, hn, ?_⟩
      simp [bitReadN, hf, hn, State.moved, State.transfer, IoErrors.after_one, State.record]
    · right
      refine ⟨rfl, by omega, ?_⟩
      simp [bitReadN, hf, hn, State.moved, State.transfer, IoErrors.after_one, State.record, State.setBitIn]
  · left
    refine ⟨rfl, ?_⟩
    simp [bitReadN, hf, State.moved, State.transfer, IoErrors.after_one]

theorem bitReadN_quiet {s : State} {g rest : Bits} (h : s.io.errors.quiet .bitIn 1)
    (hb : s.io.bitIn = g ++ rest) :
    bitReadN g.length s = .got g ((s.moved .bitIn 1 (g.map .inBit)).setBitIn rest) := by
  rcases bitReadN_cases g.length s with ⟨hf, _⟩ | ⟨_, hl, _⟩ | ⟨_, _, h'⟩
  · rw [State.fails_of_quiet h] at hf; cases hf
  · simp [hb] at hl
  · rw [h']; simp [hb]

end Sys2Proof.Machine
end

