-- ==== Sys2Proof/Laws/Running.lean ====
section
/-! SUPPORT. What the shared frame of a command can do: `andThen`, `toPass`, `loop`, `ifAdmitted`, `complete`. -/

namespace Sys2Proof.Machine

/-- A property of the state a run ends in, going through or raising. -/
def Run.Holds (P : State → Prop) : Run → Prop
  | .done s => P s
  | .raised _ s => P s
  | .stuck _ => True

/-- A property of the state a pass leaves. -/
def Pass.Holds (P : State → Prop) : Pass → Prop
  | .again s => P s
  | .out r => r.Holds P

@[simp] theorem Run.andThen_done (s : State) (k : State → Run) : (Run.done s).andThen k = k s := rfl
@[simp] theorem Run.andThen_raised (c : Cause) (s : State) (k : State → Run) :
    (Run.raised c s).andThen k = .raised c s := rfl
@[simp] theorem Run.andThen_stuck (f : Fault) (k : State → Run) : (Run.stuck f).andThen k = .stuck f := rfl
@[simp] theorem Run.toPass_done (s : State) (k : State → Pass) : (Run.done s).toPass k = k s := rfl
@[simp] theorem Run.toPass_raised (c : Cause) (s : State) (k : State → Pass) :
    (Run.raised c s).toPass k = .out (.raised c s) := rfl
@[simp] theorem Run.toPass_stuck (f : Fault) (k : State → Pass) : (Run.stuck f).toPass k = .out (.stuck f) := rfl

theorem Run.Holds.imp {P Q : State → Prop} {r : Run} (h : r.Holds P) (hpq : ∀ s, P s → Q s) : r.Holds Q := by
  cases r with
  | done s => exact hpq s h
  | raised c s => exact hpq s h
  | stuck f => trivial

theorem Run.Holds.andThen {P : State → Prop} {r : Run} {k : State → Run} (h : r.Holds P)
    (hk : ∀ s, P s → (k s).Holds P) : (r.andThen k).Holds P := by
  cases r with
  | done s => exact hk s h
  | raised c s => exact h
  | stuck f => trivial

theorem Run.Holds.toPass {P : State → Prop} {r : Run} {k : State → Pass} (h : r.Holds P)
    (hk : ∀ s, P s → (k s).Holds P) : (r.toPass k).Holds P := by
  cases r with
  | done s => exact hk s h
  | raised c s => exact h
  | stuck f => trivial

/-- What every pass keeps, the loop keeps. -/
theorem loop_holds {P : State → Prop} {pass : State → Pass} {f : Fault}
    (hp : ∀ s, P s → (pass s).Holds P) (n : Nat) (s : State) (hs : P s) : (loop pass f n s).Holds P := by
  induction n generalizing s with
  | zero => trivial
  | succ n ih =>
    have := hp s hs
    rw [loop]
    cases h : pass s with
    | again t => rw [h] at this; exact ih t this
    | out r => rw [h] at this; exact this

theorem loop_again {pass : State → Pass} {f : Fault} {n : Nat} {s t : State} (h : pass s = .again t) :
    loop pass f (n + 1) s = loop pass f n t := by
  rw [loop, h]

theorem loop_out {pass : State → Pass} {f : Fault} {n : Nat} {s : State} {r : Run} (h : pass s = .out r) :
    loop pass f (n + 1) s = r := by
  rw [loop, h]

/-- A loop that ends within a bound ends the same within every larger one. -/
theorem loop_mono {pass : State → Pass} {f : Fault} {n : Nat} {s : State} (h : loop pass f n s ≠ .stuck f) (k : Nat) :
    loop pass f (n + k) s = loop pass f n s := by
  induction n generalizing s with
  | zero => exact absurd rfl h
  | succ n ih =>
    rw [Nat.add_right_comm]
    simp only [loop] at h ⊢
    cases hp : pass s with
    | again t => rw [hp] at h; exact ih h
    | out r => rfl

/-- All admission can do (60_exceptions.md R227). -/
theorem ifAdmitted_cases (i : Instr) (s : State) (body : State → Host.Outcome State Fault Refusal) :
    (∃ f, s.regs.fault = some f ∧ ifAdmitted i s body = .next (refuse f s)) ∨
    (s.regs.fault = none ∧ admits i s.regs.phase = false ∧
      ifAdmitted i s body = .next (faultEntry (encode i) .seq s)) ∨
    (s.regs.fault = none ∧ admits i s.regs.phase = true ∧ ifAdmitted i s body = body s) := by
  cases hf : s.regs.fault with
  | some f => left; exact ⟨f, rfl, by simp [ifAdmitted, hf]⟩
  | none =>
    cases ha : admits i s.regs.phase
    · right; left; simp [ifAdmitted, hf, ha]
    · right; right; simp [ifAdmitted, hf, ha]

theorem ifAdmitted_admitted {i : Instr} {s : State} {body : State → Host.Outcome State Fault Refusal}
    (hf : s.regs.fault = none) (ha : admits i s.regs.phase = true) : ifAdmitted i s body = body s := by
  simp [ifAdmitted, hf, ha]

@[simp] theorem complete_done (i : Instr) (s : State) :
    complete i (.done s) = .next ((s.setPhase (phaseAfter i)).respond .ok) := rfl
@[simp] theorem complete_raised (i : Instr) (c : Cause) (s : State) :
    complete i (.raised c s) = .next (faultEntry (encode i) c s) := rfl
@[simp] theorem complete_stuck (i : Instr) (f : Fault) : complete i (.stuck f) = .fault f := rfl

/-- The pseudocode of each command, as `exec` runs it once the command is admitted. -/
def runOf : Instr → State → Run
  | .clr, s => .done (clearCore s)
  | .count, s => countRun s
  | .build, s => buildRun s
  | .ser, s => serRun s
  | .deser, s => deserRun s
  | .inj, s => injRun s
  | .lut, s => lutRun s
  | .enc, s => encRun s
  | .dec, s => decRun s

/-- Every command but CLR is admission, then its pseudocode, then completion (40_session_and_count.md R110). -/
theorem exec_eq (i : Instr) (hi : i ≠ .clr) (s : State) :
    exec i s = ifAdmitted i s fun s => complete i (runOf i s) := by
  cases i <;> first | rfl | exact absurd rfl hi

theorem exec_clr (s : State) : exec .clr s = .next ((clearCore s).respond .ok) := rfl

/-- All a command can do: CLR; the faulted state's refusal; `E_SEQ`; or its pseudocode, which goes through, raises or has no
transition. -/
theorem exec_cases {i : Instr} {s t : State} (h : exec i s = .next t) :
    (i = .clr ∧ t = (clearCore s).respond .ok) ∨
    (i ≠ .clr ∧ ∃ f, s.regs.fault = some f ∧ t = refuse f s) ∨
    (i ≠ .clr ∧ s.regs.fault = none ∧ admits i s.regs.phase = false ∧ t = faultEntry (encode i) .seq s) ∨
    (i ≠ .clr ∧ s.regs.fault = none ∧ admits i s.regs.phase = true ∧
      ((∃ u, runOf i s = .done u ∧ t = (u.setPhase (phaseAfter i)).respond .ok) ∨
       (∃ c u, runOf i s = .raised c u ∧ t = faultEntry (encode i) c u))) := by
  by_cases hi : i = .clr
  · left
    subst hi
    rw [exec_clr] at h
    exact ⟨rfl, by cases h; rfl⟩
  · right
    rw [exec_eq i hi] at h
    rcases ifAdmitted_cases i s (fun s => complete i (runOf i s)) with ⟨f, hf, ha⟩ | ⟨hf, hp, ha⟩ | ⟨hf, hp, ha⟩
    · left; rw [ha] at h; exact ⟨hi, f, hf, by cases h; rfl⟩
    · right; left; rw [ha] at h; exact ⟨hi, hf, hp, by cases h; rfl⟩
    · right; right
      refine ⟨hi, hf, hp, ?_⟩
      rw [ha] at h
      cases hr : runOf i s with
      | done u => left; simp only [hr, complete_done] at h; exact ⟨u, rfl, by cases h; rfl⟩
      | raised c u => right; simp only [hr, complete_raised] at h; exact ⟨c, u, rfl, by cases h; rfl⟩
      | stuck f => simp [hr] at h

/-- An admitted command is its pseudocode, completed. -/
theorem exec_admitted {i : Instr} {s : State} (hi : i ≠ .clr) (hf : s.regs.fault = none)
    (ha : admits i s.regs.phase = true) : exec i s = complete i (runOf i s) := by
  rw [exec_eq i hi, ifAdmitted_admitted hf ha]

end Sys2Proof.Machine
end

