-- ==== Sys2Proof/Laws/Trees.lean ====
section
/-! SUPPORT. The small lemmas of the tree functions (00_scope.md R10): sizes, `zero`, `Ser`, `Inject`, codes and `Walk`. -/

namespace Sys2Proof.Machine

/-! ### Bytes -/

theorem length_bits8 (v : Byte) : (bits8 v).length = 8 := rfl

theorem val8_bits8 (v : Byte) : val8 (bits8 v) = v := by
  revert v; decide +kernel

theorem bits8_val8 {g : Bits} (h : g.length = 8) : bits8 (val8 g) = g := by
  match g, h with
  | [a, b, c, d, e, f, x, y], _ => revert a b c d e f x y; decide +kernel

theorem mem_allBytes (b : Byte) : b ∈ allBytes := by
  simp only [allBytes, List.mem_map, List.mem_range]
  exact ⟨b.toNat, b.isLt, by simp⟩

theorem nodup_allBytes : allBytes.Nodup := by
  refine List.Nodup.map_on ?_ List.nodup_range
  intro x hx y hy h
  rw [List.mem_range] at hx hy
  have := congrArg BitVec.toNat h
  simpa [Nat.mod_eq_of_lt hx, Nat.mod_eq_of_lt hy] using this

theorem length_allBytes : allBytes.length = 256 := by simp [allBytes]

/-! ### Indexed registers -/

@[simp] theorem occGet_occSet_self (o : Occ) (b : Byte) (v : Count) : occGet (occSet o b v) b = v := by
  simp [occGet, occSet]

theorem occGet_occSet_ne (o : Occ) {b c : Byte} (v : Count) (h : c ≠ b) : occGet (occSet o b v) c = occGet o c := by
  have : b.toNat ≠ c.toNat := fun e => h (BitVec.eq_of_toNat_eq e.symm)
  simp [occGet, occSet, this]

@[simp] theorem occGet_zero (b : Byte) : occGet Occ.zero b = 0 := by
  simp [occGet, Occ.zero]

theorem occ_ext {o p : Occ} (h : ∀ b, occGet o b = occGet p b) : o = p := by
  apply Vector.ext
  intro i hi
  have := h (BitVec.ofNat 8 i)
  simpa [occGet, Nat.mod_eq_of_lt hi] using this

theorem Sym.key_injective {s t : Sym} (h : s.key = t.key) : s = t := by
  cases s with
  | byte b =>
    cases t with
    | byte c => exact congrArg Sym.byte (BitVec.eq_of_toNat_eq h)
    | eos => have := b.isLt; simp only [Sym.key, Config.eosKey] at h; omega
  | eos =>
    cases t with
    | byte c => have := c.isLt; simp only [Sym.key, Config.eosKey] at h; omega
    | eos => rfl

@[simp] theorem lutGet_lutSet_self (t : Lut) (s : Sym) (p : Bits) : lutGet (lutSet t s p) s = some p := by
  simp [lutGet, lutSet]

theorem lutGet_lutSet_ne (t : Lut) {s r : Sym} (p : Bits) (h : r ≠ s) : lutGet (lutSet t s p) r = lutGet t r := by
  have : s.key ≠ r.key := fun e => h (Sym.key_injective e.symm)
  simp [lutGet, lutSet, this]

theorem lutGet_lutSet (t : Lut) (s r : Sym) (p : Bits) :
    lutGet (lutSet t s p) r = if r = s then some p else lutGet t r := by
  split
  · subst_vars; simp
  · exact lutGet_lutSet_ne t p ‹_›

@[simp] theorem lutGet_empty (s : Sym) : lutGet Lut.empty s = none := by
  simp [lutGet, Lut.empty]

/-! ### Sizes -/

theorem Tree.leaves_eq (t : Tree) : t.leaves = t.inners + 1 := by
  induction t with
  | char b c => rfl
  | eos => rfl
  | inner c l r hl hr => simp only [Tree.leaves, Tree.inners]; omega

theorem Tree.leaves_pos (t : Tree) : 0 < t.leaves := by
  rw [Tree.leaves_eq]; omega

theorem Tree.eosLeaves_eq_zero (t : Tree) : t.eosLeaves = 0 ↔ t.hasEos = false := by
  induction t with
  | char b c => simp [Tree.eosLeaves, Tree.hasEos]
  | eos => simp [Tree.eosLeaves, Tree.hasEos]
  | inner c l r hl hr => simp [Tree.eosLeaves, Tree.hasEos, hl, hr]

theorem Tree.height_lt_leaves (t : Tree) : t.height < t.leaves := by
  induction t with
  | char b c => simp [Tree.height, Tree.leaves]
  | eos => simp [Tree.height, Tree.leaves]
  | inner c l r hl hr => simp only [Tree.height, Tree.leaves]; omega

/-! ### `zero` -/

@[simp] theorem Tree.zero_height (t : Tree) : t.zero.height = t.height := by
  induction t with
  | char b c => rfl
  | eos => rfl
  | inner c l r hl hr => simp only [Tree.zero, Tree.height, hl, hr]

@[simp] theorem Tree.zero_leaves (t : Tree) : t.zero.leaves = t.leaves := by
  induction t with
  | char b c => rfl
  | eos => rfl
  | inner c l r hl hr => simp only [Tree.zero, Tree.leaves, hl, hr]

@[simp] theorem Tree.zero_hasEos (t : Tree) : t.zero.hasEos = t.hasEos := by
  induction t with
  | char b c => rfl
  | eos => rfl
  | inner c l r hl hr => simp only [Tree.zero, Tree.hasEos, hl, hr]

@[simp] theorem Tree.zero_zero (t : Tree) : t.zero.zero = t.zero := by
  induction t with
  | char b c => rfl
  | eos => rfl
  | inner c l r hl hr => simp only [Tree.zero, hl, hr]

@[simp] theorem Tree.zero_count (t : Tree) : t.zero.count = 0 := by
  cases t <;> rfl

@[simp] theorem Tree.zero_ser (t : Tree) : t.zero.ser = t.ser := by
  induction t with
  | char b c => rfl
  | eos => rfl
  | inner c l r hl hr => simp only [Tree.zero, Tree.ser, hl, hr]

@[simp] theorem Tree.zero_codes (t : Tree) : t.zero.codes = t.codes := by
  induction t with
  | char b c => rfl
  | eos => rfl
  | inner c l r hl hr => simp only [Tree.zero, Tree.codes, hl, hr]

theorem Tree.zero_countOk (t : Tree) : t.zero.countOk = true := by
  induction t with
  | char b c => rfl
  | eos => rfl
  | inner c l r hl hr => simp [Tree.zero, Tree.countOk, hl, hr]

theorem Tree.zero_isInner (t : Tree) : t.zero.isInner = t.isInner := by
  cases t <;> rfl

/-! ### `Ser` -/

theorem Tree.length_ser {t : Tree} (h : t.hasEos = false) : t.ser.length = t.inners + 9 * t.leaves := by
  induction t with
  | char b c => rfl
  | eos => cases h
  | inner c l r hl hr =>
    simp only [Tree.hasEos, Bool.or_eq_false_iff] at h
    simp only [Tree.ser, List.length_cons, List.length_append, hl h.1, hr h.2, Tree.inners, Tree.leaves]
    omega

/-! ### `Inject` -/

theorem Tree.inject_height {t : Tree} (h : t.hasEos = false) : t.inject.height = t.height + 1 := by
  induction t with
  | char b c => rfl
  | eos => cases h
  | inner c l r hl hr =>
    simp only [Tree.hasEos, Bool.or_eq_false_iff] at h
    simp only [Tree.inject]
    split
    · simp only [Tree.height, hr h.2]; omega
    · simp only [Tree.height, hl h.1]; omega

theorem Tree.inject_leaves {t : Tree} (h : t.hasEos = false) : t.inject.leaves = t.leaves + 1 := by
  induction t with
  | char b c => rfl
  | eos => cases h
  | inner c l r hl hr =>
    simp only [Tree.hasEos, Bool.or_eq_false_iff] at h
    simp only [Tree.inject]
    split
    · simp only [Tree.leaves, hr h.2]; omega
    · simp only [Tree.leaves, hl h.1]; omega

@[simp] theorem Tree.inject_count (t : Tree) : t.inject.count = t.count := by
  cases t with
  | char b c => rfl
  | eos => rfl
  | inner c l r => simp only [Tree.inject]; split <;> rfl

theorem Tree.inject_countOk {t : Tree} (h : t.countOk = true) : t.inject.countOk = true := by
  induction t with
  | char b c => simp [Tree.inject, Tree.countOk, Tree.count]
  | eos => rfl
  | inner c l r hl hr =>
    simp only [Tree.countOk, Bool.and_eq_true, decide_eq_true_eq] at h
    simp only [Tree.inject]
    split
    · simp [Tree.countOk, h.1.1, h.1.2, hr h.2]
    · simp [Tree.countOk, h.1.1, h.2, hl h.1.2]

theorem Tree.inject_isInner {t : Tree} (h : t.hasEos = false) : t.inject.isInner = true := by
  cases t with
  | char b c => rfl
  | eos => cases h
  | inner c l r => simp only [Tree.inject]; split <;> rfl

theorem Tree.inject_eosLeaves {t : Tree} (h : t.hasEos = false) : t.inject.eosLeaves = 1 := by
  induction t with
  | char b c => rfl
  | eos => cases h
  | inner c l r hl hr =>
    simp only [Tree.hasEos, Bool.or_eq_false_iff] at h
    simp only [Tree.inject]
    split
    · simp only [Tree.eosLeaves, hr h.2, (Tree.eosLeaves_eq_zero l).2 h.1]
    · simp only [Tree.eosLeaves, hl h.1, (Tree.eosLeaves_eq_zero r).2 h.2]

theorem Tree.eosRight_of_hasEos {t : Tree} (h : t.hasEos = false) : t.eosRight = true := by
  induction t with
  | char b c => rfl
  | eos => rfl
  | inner c l r hl hr =>
    simp only [Tree.hasEos, Bool.or_eq_false_iff] at h
    have : l ≠ .eos := by rintro rfl; cases h.1
    simp [Tree.eosRight, this, hl h.1, hr h.2]

theorem Tree.ne_eos_of_isInner {t : Tree} (h : t.isInner = true) : t ≠ .eos := by
  rintro rfl; cases h

theorem Tree.inject_eosRight {t : Tree} (h : t.hasEos = false) : t.inject.eosRight = true := by
  induction t with
  | char b c => rfl
  | eos => cases h
  | inner c l r hl hr =>
    simp only [Tree.hasEos, Bool.or_eq_false_iff] at h
    have hle : l ≠ .eos := by rintro rfl; cases h.1
    simp only [Tree.inject]
    split
    · simp [Tree.eosRight, hle, Tree.eosRight_of_hasEos h.1, hr h.2]
    · simp [Tree.eosRight, Tree.ne_eos_of_isInner (Tree.inject_isInner h.1), hl h.1, Tree.eosRight_of_hasEos h.2]

/-- INJ takes a tree of `P_TREE` to a tree of `P_INJECTED` (10_state.md R26). -/
theorem Tree.inject_injectedOk {t : Tree} (h : t.builtOk = true) : t.inject.injectedOk = true := by
  simp only [Tree.builtOk, Bool.and_eq_true, Bool.not_eq_true', decide_eq_true_eq] at h
  obtain ⟨⟨h1, h2⟩, h3⟩ := h
  simp [Tree.injectedOk, Tree.inject_isInner h1, Tree.inject_eosLeaves h1, Tree.inject_eosRight h1,
    Tree.inject_leaves h1, Tree.inject_countOk h3, h2]

/-! ### Codes and `Walk` -/

/-- `Walk` records, under each symbol, the path of its last leaf (44_lookup_table.md R171, R173). -/
theorem Tree.lutGet_walk (t : Tree) (p : Bits) (m : Lut) (s : Sym) :
    lutGet (t.walk p m) s =
      match t.lastCode s with
      | some q => some (p ++ q)
      | none => lutGet m s := by
  induction t generalizing p m with
  | char b c =>
    simp only [Tree.walk, lutGet_lutSet, Tree.lastCode, Tree.codes]
    by_cases h : s = .byte b
    · subst h; simp
    · have h' : ¬ (Sym.byte b = s) := fun e => h e.symm
      simp [h, h', List.filter]
  | eos =>
    simp only [Tree.walk, lutGet_lutSet, Tree.lastCode, Tree.codes]
    by_cases h : s = .eos
    · subst h; simp
    · have h' : ¬ (Sym.eos = s) := fun e => h e.symm
      simp [h, h', List.filter]
  | inner c l r hl hr =>
    rw [Tree.walk, hr, hl]
    simp only [Tree.lastCode, Tree.codes, List.filter_append, List.filter_map, List.getLast?_append,
      List.getLast?_map, Function.comp_def]
    cases (r.codes.filter fun e => e.1 = s).getLast? <;> cases (l.codes.filter fun e => e.1 = s).getLast? <;> simp

theorem lutGet_lutOf (t : Tree) (s : Sym) : lutGet (lutOf t) s = t.lastCode s := by
  rw [lutOf, Tree.lutGet_walk]
  cases t.lastCode s <;> simp

theorem Tree.mem_of_lastCode {t : Tree} {s : Sym} {p : Bits} (h : t.lastCode s = some p) : (s, p) ∈ t.codes := by
  simp only [Tree.lastCode, Option.map_eq_some_iff] at h
  obtain ⟨e, he, rfl⟩ := h
  have := List.mem_of_getLast? he
  simp only [List.mem_filter, decide_eq_true_eq] at this
  obtain ⟨h1, rfl⟩ := this
  exact h1

theorem Tree.lastCode_isSome {t : Tree} {s : Sym} {p : Bits} (h : (s, p) ∈ t.codes) : (t.lastCode s).isSome := by
  have hm : (s, p) ∈ t.codes.filter fun e => e.1 = s := by simp [h]
  cases hf : (t.codes.filter fun e => e.1 = s) with
  | nil => rw [hf] at hm; cases hm
  | cons a as => simp [Tree.lastCode, hf, List.getLast?_cons]

theorem Tree.mem_codes_of_mem_chars {t : Tree} {b : Byte} {c : Count} (h : (b, c) ∈ t.chars) :
    ∃ p, (Sym.byte b, p) ∈ t.codes := by
  induction t with
  | char b' c' =>
    simp only [Tree.chars, List.mem_singleton, Prod.mk.injEq] at h
    exact ⟨[], by simp [Tree.codes, h.1]⟩
  | eos => simp [Tree.chars] at h
  | inner c' l r hl hr =>
    simp only [Tree.chars, List.mem_append] at h
    rcases h with h | h
    · obtain ⟨p, hp⟩ := hl h
      exact ⟨false :: p, by simp [Tree.codes, hp]⟩
    · obtain ⟨p, hp⟩ := hr h
      exact ⟨true :: p, by simp [Tree.codes, hp]⟩

/-- No code of a tree is a beginning of the code of another leaf (30_encoding.md R91). -/
theorem Tree.codes_pairwise (t : Tree) : t.codes.Pairwise fun a b => ¬ a.2 <+: b.2 ∧ ¬ b.2 <+: a.2 := by
  induction t with
  | char b c => simp [Tree.codes]
  | eos => simp [Tree.codes]
  | inner c l r hl hr =>
    simp only [Tree.codes, List.pairwise_append, List.pairwise_map, List.mem_map]
    refine ⟨hl.imp ?_, hr.imp ?_, ?_⟩
    · intro a b h; simpa [List.cons_prefix_cons] using h
    · intro a b h; simpa [List.cons_prefix_cons] using h
    · rintro _ ⟨a, _, rfl⟩ _ ⟨b, _, rfl⟩
      simp [List.cons_prefix_cons]


end Sys2Proof.Machine
end

