-- ==== Sys2Proof/Laws/Codec.lean ====
section
/-! SUPPORT. The places of a header (30_encoding.md R88, R89): its flags and the transfers that read it. DESER's `Parse`
(42_tree_codec.md R146): one call, and a whole header. -/

namespace Sys2Proof.Machine

/-! ### The places of a header -/

/-- Every flag stands inside its header. -/
theorem Tree.flags_bounds {t : Tree} {p : Nat} {f : Nat × Bit} (h : f ∈ t.flags p) : p ≤ f.1 ∧ f.1 < p + t.ser.length := by
  induction t generalizing p with
  | char b c => simp only [Tree.flags, List.mem_singleton] at h; subst h; simp [Tree.ser]
  | eos => cases h
  | inner c l r hl hr =>
    simp only [Tree.flags, List.mem_cons, List.mem_append] at h
    simp only [Tree.ser, List.length_cons, List.length_append]
    rcases h with rfl | h | h
    · simp
    · have := hl h; omega
    · have := hr h; omega

/-- The header has each flag's value at its place. -/
theorem Tree.getElem?_ser_flag {t : Tree} {p q : Nat} {b : Bit} (h : (p + q, b) ∈ t.flags p) : t.ser[q]? = some b := by
  induction t generalizing p q with
  | char v c =>
    simp only [Tree.flags, List.mem_singleton, Prod.mk.injEq] at h
    obtain ⟨hq, rfl⟩ := h
    rw [show q = 0 by omega]; rfl
  | eos => cases h
  | inner c l r hl hr =>
    simp only [Tree.flags, List.mem_cons, List.mem_append, Prod.mk.injEq] at h
    rcases h with ⟨hq, rfl⟩ | h | h
    · rw [show q = 0 by omega]; rfl
    · have hb := Tree.flags_bounds h
      obtain ⟨q, rfl⟩ : ∃ m, q = m + 1 := ⟨q - 1, by omega⟩
      have := hl (p := p + 1) (q := q) (by rwa [show p + 1 + q = p + (q + 1) by omega])
      rw [Tree.ser, List.getElem?_cons_succ, List.getElem?_append_left (by simp only at hb; omega), this]
    · have hb := Tree.flags_bounds h
      obtain ⟨m, rfl⟩ : ∃ m, q = l.ser.length + m + 1 := ⟨q - l.ser.length - 1, by simp only at hb; omega⟩
      have := hr (p := p + 1 + l.ser.length) (q := m) (by rwa [show p + 1 + l.ser.length + m = p + (l.ser.length + m + 1) by omega])
      rw [Tree.ser, List.getElem?_cons_succ, List.getElem?_append_right (by omega), Nat.add_sub_cancel_left, this]

@[simp] theorem Tree.innerFlags_char (b : Byte) (c : Count) (p : Nat) : (Tree.char b c).innerFlags p = [] := rfl

@[simp] theorem Tree.innerFlags_inner (c : Count) (l r : Tree) (p : Nat) :
    (Tree.inner c l r).innerFlags p = p :: (l.innerFlags (p + 1) ++ r.innerFlags (p + 1 + l.ser.length)) := by
  simp [Tree.innerFlags, Tree.flags]

@[simp] theorem Tree.length_innerFlags (t : Tree) (p : Nat) : (t.innerFlags p).length = t.inners := by
  induction t generalizing p with
  | char b c => rfl
  | eos => rfl
  | inner c l r hl hr => simp [Tree.inners, hl, hr]; omega

theorem Tree.innerFlags_bounds {t : Tree} {p q : Nat} (h : q ∈ t.innerFlags p) : p ≤ q ∧ q < p + t.ser.length := by
  simp only [Tree.innerFlags, List.mem_map, List.mem_filter] at h
  obtain ⟨f, ⟨hf, _⟩, rfl⟩ := h
  exact Tree.flags_bounds hf

@[simp] theorem Tree.sum_readWidths (t : Tree) : t.readWidths.sum = t.ser.length := by
  induction t with
  | char b c => rfl
  | eos => rfl
  | inner c l r hl hr => simp [Tree.readWidths, Tree.ser, hl, hr]; omega

/-! ### Parse -/

/-- The state after `n` transfers on BIT_IN that recorded `es` and left `rest` unread. -/
def State.took (s : State) (n : Nat) (es : List Event) (rest : Bits) : State := (s.moved .bitIn n es).setBitIn rest

theorem State.took_took (s : State) (m n : Nat) (es fs : List Event) (r r' : Bits) :
    (s.took m es r).took n fs r' = s.took (m + n) (es ++ fs) r' := by
  simp [State.took, State.moved, State.setErrors, State.record, State.setBitIn, IoErrors.after_after]

@[simp] theorem State.took_bitIn (s : State) (n : Nat) (es : List Event) (r : Bits) : (s.took n es r).io.bitIn = r := rfl

@[simp] theorem State.took_errors (s : State) (n : Nat) (es : List Event) (r : Bits) : (s.took n es r).io.errors = s.io.errors.after .bitIn n := rfl

@[simp] theorem State.took_events (s : State) (n : Nat) (es : List Event) (r : Bits) : (s.took n es r).io.events = s.io.events ++ es := rfl

@[simp] theorem State.took_regs (s : State) (n : Nat) (es : List Event) (r : Bits) : (s.took n es r).regs = s.regs := rfl

theorem State.took_zero (s : State) : s.took 0 [] s.io.bitIn = s := by
  rw [State.took, State.moved_zero]; rfl

theorem State.moved_eq_took {s : State} {n : Nat} {es : List Event} {r : Bits} (h : s.io.bitIn = r) : s.moved .bitIn n es = s.took n es r := by
  subst h; rfl

theorem parse_nil {s : State} (h : s.io.bitIn = []) (n ni : Nat) : parse n ni s = .raised (.prematureEos .hdrFlag) s := by
  cases n with
  | zero => rfl
  | succ n => simp [parse, h]

theorem parse_flag_error {s : State} (n ni : Nat) (hn : s.io.bitIn ≠ []) (h : s.io.errors.failsAt .bitIn 0) :
    parse (n + 1) ni s = .raised (.io .bitIn) (s.took 1 [] s.io.bitIn) := by
  obtain ⟨b, rest, hb⟩ := List.exists_cons_of_ne_nil hn
  simp only [parse, bitAvail_eq_false, hn, if_false, bitRead_failsAt h hb]
  rw [State.moved_eq_took rfl]

theorem parse_one {s : State} {rest : Bits} (n ni : Nat) (h : s.io.errors.quiet .bitIn 1) (hb : s.io.bitIn = true :: rest) :
    parse (n + 1) ni s = match bitReadN 8 (s.took 1 [.inBit true] rest) with
        | .failed u => .raised (.io .bitIn) u
        | .short u => .raised (.prematureEos .hdrByte) u
        | .got g u => .tree (.char (val8 g) 0) ni u := by
  simp only [parse, bitAvail_eq_false, hb, reduceCtorEq, if_false, bitRead_quiet h hb]
  rfl

theorem parse_zero_flag {s : State} {rest : Bits} (n ni : Nat) (h : s.io.errors.quiet .bitIn 1) (hb : s.io.bitIn = false :: rest) :
    parse (n + 1) ni s = if ni = 255 then .raised .capacity (s.took 1 [.inBit false] rest) else
       match parse n (ni + 1) (s.took 1 [.inBit false] rest) with
          | .raised c u => .raised c u
          | .tree l nl u =>
            match parse n nl u with
            | .raised c v => .raised c v
            | .tree r nr v => .tree (.inner 0 l r) nr v := by
  simp only [parse, bitAvail_eq_false, hb, reduceCtorEq, if_false, bitRead_quiet h hb]
  rfl

/-- The transfers the header of a tree takes: one per flag and one per byte value. -/
def Tree.reads (t : Tree) : Nat := t.inners + 2 * t.leaves

theorem Tree.length_readWidths {t : Tree} (h : t.hasEos = false) : t.readWidths.length = t.reads := by
  induction t with
  | char b c => rfl
  | eos => cases h
  | inner c l r hl hr =>
    simp only [Tree.hasEos, Bool.or_eq_false_iff] at h
    simp only [Tree.readWidths, List.length_cons, List.length_append, hl h.1, hr h.2, Tree.reads, Tree.inners, Tree.leaves]
    omega

/-- `Parse` on the header of a tree followed by anything. -/
theorem parse_ser {t : Tree} (ht : t.hasEos = false) {s : State} {rest : Bits} (n ni : Nat)
    (hn : t.ser.length ≤ n) (hi : ni + t.inners ≤ 255) (hb : s.io.bitIn = t.ser ++ rest)
    (hq : s.io.errors.quiet .bitIn t.reads) :
    parse n ni s = .tree t.zero (ni + t.inners) (s.took t.reads (t.ser.map .inBit) rest) := by
  induction t generalizing s rest n ni with
  | eos => cases ht
  | char b c =>
    obtain ⟨n, rfl⟩ : ∃ m, n = m + 1 := ⟨n - 1, by simp [Tree.ser] at hn; omega⟩
    have hq' := (IoErrors.quiet_add _ _ 1 1).1 hq
    rw [parse_one n ni hq'.1 (by simpa [Tree.ser] using hb)]
    have := bitReadN_quiet (s := s.took 1 [.inBit true] (bits8 b ++ rest)) (g := bits8 b) (rest := rest) (by simpa using hq'.2) rfl
    rw [length_bits8] at this
    rw [this]
    simp only [val8_bits8, Tree.zero, Tree.inners, Nat.add_zero]
    rw [← State.took, State.took_took]
    rfl
  | inner c l r hl hr =>
    simp only [Tree.hasEos, Bool.or_eq_false_iff] at ht
    simp only [Tree.ser, List.length_cons, List.length_append] at hn
    simp only [Tree.inners] at hi
    obtain ⟨n, rfl⟩ : ∃ m, n = m + 1 := ⟨n - 1, by omega⟩
    have hre : (Tree.inner c l r).reads = 1 + (l.reads + r.reads) := by simp only [Tree.reads, Tree.inners, Tree.leaves]; omega
    rw [hre] at hq ⊢
    have hq1 := (IoErrors.quiet_add _ _ _ _).1 hq
    have hq2 := (IoErrors.quiet_add _ _ _ _).1 hq1.2
    rw [parse_zero_flag n ni hq1.1 (rest := l.ser ++ (r.ser ++ rest)) (by simpa [Tree.ser] using hb), if_neg (by omega)]
    rw [hl ht.1 (rest := r.ser ++ rest) n (ni + 1) (by omega) (by omega) rfl (by simpa using hq2.1)]
    simp only
    rw [hr ht.2 (rest := rest) n _ (by omega) (by omega) rfl (by simpa [IoErrors.after_after] using hq2.2)]
    simp only [Tree.zero, State.took_took, Tree.ser, List.map_cons, List.map_append, List.cons_append, List.nil_append, Tree.inners, Nat.add_assoc]

/-- What `Parse` accepts is the header of the tree it returns. -/
theorem parse_sound (n ni : Nat) (s : State) (h : ni ≤ 255) {u : Tree} {m : Nat} {t : State} (hp : parse n ni s = .tree u m t) :
    m = ni + u.inners ∧ m ≤ 255 ∧ u.zero = u ∧ u.hasEos = false ∧ s.io.bitIn = u.ser ++ t.io.bitIn ∧
    t.io.events = s.io.events ++ u.ser.map .inBit := by
  induction n generalizing ni s u m t with
  | zero => cases hp
  | succ n ih =>
    rw [parse] at hp
    cases hb : s.io.bitIn with
    | nil => simp [hb] at hp
    | cons b rest =>
      simp only [bitAvail_eq_false, hb, reduceCtorEq, if_false] at hp
      rcases bitRead_cases hb with ⟨_, hr⟩ | ⟨_, hr⟩
      · rw [hr] at hp; cases hp
      · rw [hr] at hp
        cases b with
        | true =>
          simp only at hp
          rcases bitReadN_cases 8 ((s.moved .bitIn 1 [.inBit true]).setBitIn rest) with ⟨_, hr⟩ | ⟨_, _, hr⟩ | ⟨_, hl, hr⟩
          · rw [hr] at hp; cases hp
          · rw [hr] at hp; cases hp
          · rw [hr] at hp
            simp only [Parsed.tree.injEq] at hp
            obtain ⟨rfl, rfl, rfl⟩ := hp
            have hg : bits8 (val8 (rest.take 8)) = rest.take 8 := bits8_val8 (by simpa using hl)
            simp [Tree.inners, h, Tree.zero, Tree.hasEos, Tree.ser, hg]
        | false =>
          simp only at hp
          split at hp
          · cases hp
          · rename_i hni
            have hni : ni ≠ 255 := hni
            cases h1 : parse n (ni + 1) ((s.moved .bitIn 1 [.inBit false]).setBitIn rest) with
            | raised c u => rw [h1] at hp; cases hp
            | tree l nl u1 =>
              rw [h1] at hp; simp only at hp
              cases h2 : parse n nl u1 with
              | raised c u => rw [h2] at hp; cases hp
              | tree r nr v =>
                rw [h2] at hp
                simp only [Parsed.tree.injEq] at hp
                obtain ⟨rfl, rfl, rfl⟩ := hp
                obtain ⟨a1, a2, a3, a4, a5, a6⟩ := ih (ni + 1) _ (by omega) h1
                obtain ⟨b1, b2, b3, b4, b5, b6⟩ := ih nl _ a2 h2
                simp only [State.setBitIn_io_bitIn] at a5
                refine ⟨by simp only [Tree.inners]; omega, b2, by simp [Tree.zero, a3, b3], by simp [Tree.hasEos, a4, b4], ?_, ?_⟩
                · simp [Tree.ser, a5, b5]
                · simp [b6, a6, Tree.ser]

end Sys2Proof.Machine
end

