-- ==== Sys2Proof/Laws/Counting.lean ====
section
/-! SUPPORT. One pass of COUNT's loop (40_session_and_count.md R113), and the loop over the bytes of a packet. -/

namespace Sys2Proof.Machine

theorem countPass_byte {s : State} {v : Byte} {rest : List ByteItem} (h : s.io.errors.quiet .byteIn 1)
    (hb : s.io.byteIn = .byte v :: rest) (hv : occGet s.regs.occ v ≠ Count.max) :
    countPass s = .again (((s.moved .byteIn 1 [.inByte v]).setByteIn rest).setOcc
      (occSet s.regs.occ v (occGet s.regs.occ v + 1))) := by
  simp [countPass, byteIn_byte h hb, hv]

theorem countPass_ovf {s : State} {v : Byte} {rest : List ByteItem} (h : s.io.errors.quiet .byteIn 1)
    (hb : s.io.byteIn = .byte v :: rest) (hv : occGet s.regs.occ v = Count.max) :
    countPass s = .out (.raised (.ovf .count) ((s.moved .byteIn 1 [.inByte v]).setByteIn rest)) := by
  simp [countPass, byteIn_byte h hb, hv]

theorem countPass_end {s : State} {rest : List ByteItem} (h : s.io.errors.quiet .byteIn 1)
    (hb : s.io.byteIn = .packetEnd :: rest) :
    countPass s = .out (.done ((s.moved .byteIn 1 [.inEnd]).setByteIn rest)) := by
  simp [countPass, byteIn_end h hb]

theorem countPass_failsAt {s : State} (h : s.io.errors.failsAt .byteIn 0) :
    countPass s = .out (.raised (.io .byteIn) (s.moved .byteIn 1 [])) := by
  simp [countPass, byteIn_failsAt h]

theorem countPass_starved {s : State} (h : s.io.errors.quiet .byteIn 1) (hb : s.io.byteIn = []) :
    countPass s = .out (.stuck .byteInStarved) := by
  simp [countPass, byteIn_starved h hb]

/-- COUNT over `bs`, where no transfer fails and no slot would pass 2^64 - 1: every byte is counted and the loop goes on. -/
theorem count_loop {f : Fault} (bs : List Byte) : ∀ {s : State} {rest : List ByteItem} (n : Nat),
    s.io.byteIn = bs.map .byte ++ rest → s.io.errors.quiet .byteIn bs.length →
    (∀ b, (occGet s.regs.occ b).toNat + bs.count b < 2 ^ 64) →
    ∃ o : Occ, (∀ b, (occGet o b).toNat = (occGet s.regs.occ b).toNat + bs.count b) ∧
      loop countPass f (bs.length + n) s =
        loop countPass f n (((s.moved .byteIn bs.length (bs.map .inByte)).setByteIn rest).setOcc o) := by
  induction bs with
  | nil =>
    intro s rest n hb _ _
    refine ⟨s.regs.occ, by simp, ?_⟩
    have : ((s.moved .byteIn 0 []).setByteIn rest).setOcc s.regs.occ = s := by
      rw [State.moved_zero]
      have : rest = s.io.byteIn := by simpa using hb.symm
      subst this
      rfl
    simp [this]
  | cons v vs ih =>
    intro s rest n hb hq hc
    rw [List.length_cons, Nat.add_comm, IoErrors.quiet_add] at hq
    have hv := hc v
    rw [List.count_cons_self] at hv
    have hne : occGet s.regs.occ v ≠ Count.max := by
      intro e
      rw [e, show Count.max.toNat = 2 ^ 64 - 1 from rfl] at hv
      omega
    let t := ((s.moved .byteIn 1 [.inByte v]).setByteIn (vs.map .byte ++ rest)).setOcc
      (occSet s.regs.occ v (occGet s.regs.occ v + 1))
    have hpass : countPass s = .again t := countPass_byte hq.1 (by simpa using hb) hne
    have hocc : ∀ b, (occGet t.regs.occ b).toNat + vs.count b = (occGet s.regs.occ b).toNat + (v :: vs).count b := by
      intro b
      by_cases hbv : b = v
      · subst hbv
        have h1 : (occGet t.regs.occ b).toNat = (occGet s.regs.occ b).toNat + 1 := by
          simp only [t, State.setOcc_occ, occGet_occSet_self, BitVec.toNat_add]
          rw [show (1 : Count).toNat = 1 from rfl]
          exact Nat.mod_eq_of_lt (by omega)
        rw [h1, List.count_cons_self]; omega
      · rw [List.count_cons_of_ne (fun e => hbv e.symm)]
        simp only [t, State.setOcc_occ, occGet_occSet_ne _ _ hbv]
    obtain ⟨o, ho, hl⟩ := ih (s := t) (rest := rest) n rfl (by simpa [t] using hq.2)
      (fun b => by rw [hocc]; exact hc b)
    refine ⟨o, fun b => by rw [ho, hocc], ?_⟩
    rw [show (v :: vs).length + n = (vs.length + n) + 1 by simp; omega, loop_again hpass, hl]
    congr 1
    simp [t, State.setOcc, State.setByteIn, State.moved, State.setErrors, State.record, IoErrors.after_after, Nat.add_comm]

end Sys2Proof.Machine
end

