-- ==== Sys2Proof/Laws/Decoding.lean ====
section
/-! SUPPORT. DEC (46_stream_decoder.md R191): one pass, the walk along one code, and a sequence of codes. -/

namespace Sys2Proof.Machine

/-- The state after `i` transfers on BIT_IN and `j` on BYTE_OUT that recorded `es`, left `rest` unread and CUR at `c`. -/
def State.decd (s : State) (i j : Nat) (es : List Event) (rest : Bits) (c : Option Tree) : State :=
  { regs := { s.regs with cur := c }
    io := { s.io with bitIn := rest, errors := (s.io.errors.after .bitIn i).after .byteOut j, events := s.io.events ++ es } }

@[simp] theorem State.decd_cur (s : State) (i j es r c) : (s.decd i j es r c).regs.cur = c := rfl

@[simp] theorem State.decd_bitIn (s : State) (i j es r c) : (s.decd i j es r c).io.bitIn = r := rfl

@[simp] theorem State.decd_errors (s : State) (i j es r c) : (s.decd i j es r c).io.errors = (s.io.errors.after .bitIn i).after .byteOut j := rfl

theorem State.decd_decd (s : State) (i j i' j' es es' r r' c c') :
    (s.decd i j es r c).decd i' j' es' r' c' = s.decd (i + i') (j + j') (es ++ es') r' c' := by
  simp [State.decd, IoErrors.after]

theorem State.decd_zero (s : State) : s.decd 0 0 [] s.io.bitIn s.regs.cur = s := by simp [State.decd]

theorem quiet_decd_bitIn {s : State} {i j es r c n} : (s.decd i j es r c).io.errors.quiet .bitIn n ↔ (s.io.errors.after .bitIn i).quiet .bitIn n := by
  rw [State.decd_errors, IoErrors.quiet_after_ne _ (by decide)]

theorem quiet_decd_byteOut {s : State} {i j es r c n} : (s.decd i j es r c).io.errors.quiet .byteOut n ↔ (s.io.errors.after .byteOut j).quiet .byteOut n := by
  rw [State.decd_errors, IoErrors.after_comm _ (by decide), IoErrors.quiet_after_ne _ (by decide)]

theorem fails_decd_bitIn {s : State} {i j es r c n} : (s.decd i j es r c).io.errors.failsAt .bitIn n ↔ (s.io.errors.after .bitIn i).failsAt .bitIn n := by
  rw [State.decd_errors, IoErrors.failsAt_after_ne (by decide)]

theorem fails_decd_byteOut {s : State} {i j es r c n} : (s.decd i j es r c).io.errors.failsAt .byteOut n ↔ (s.io.errors.after .byteOut j).failsAt .byteOut n := by
  rw [State.decd_errors, IoErrors.after_comm _ (by decide), IoErrors.failsAt_after_ne (by decide)]

theorem decPass_bit {root l r : Tree} {c : Count} {s : State} {b : Bit} {rest : Bits} (hc : s.regs.cur = some (.inner c l r))
    (hb : s.io.bitIn = b :: rest) (h : s.io.errors.quiet .bitIn 1) :
    decPass root s = .again (s.decd 1 0 [.inBit b] rest (some (if b then r else l))) := by
  simp only [decPass, hc, bitAvail_eq_false, hb, reduceCtorEq, if_false, bitRead_quiet h hb]
  cases b <;> simp [State.decd, State.moved, State.setErrors, State.record, State.setBitIn, State.setCur]

theorem decPass_bit_fail {root l r : Tree} {c : Count} {s : State} (hc : s.regs.cur = some (.inner c l r))
    (hb : s.io.bitIn ≠ []) (h : s.io.errors.failsAt .bitIn 0) :
    decPass root s = .out (.raised (.io .bitIn) (s.decd 1 0 [] s.io.bitIn s.regs.cur)) := by
  obtain ⟨b, rest, hb'⟩ := List.exists_cons_of_ne_nil hb
  simp only [decPass, hc, bitAvail_eq_false, hb, if_false, bitRead_failsAt h hb']
  simp [State.decd, State.moved, State.setErrors, State.record]
  rcases s with ⟨⟨_, _, _, _, _, _, _⟩, _⟩; simp_all

theorem decPass_inner_nil {root l r : Tree} {c : Count} {s : State} (hc : s.regs.cur = some (.inner c l r))
    (hb : s.io.bitIn = []) : decPass root s = .out (.raised (.prematureEos .payload) s) := by
  simp [decPass, hc, hb]

theorem decPass_eos {root : Tree} {s : State} (hc : s.regs.cur = some .eos) : decPass root s = .out (.done s) := by
  simp [decPass, hc]

theorem decPass_char {root : Tree} {b : Byte} {c : Count} {s : State} (hc : s.regs.cur = some (.char b c))
    (hb : s.io.bitIn ≠ []) (h : s.io.errors.quiet .byteOut 1) :
    decPass root s = .again (s.decd 0 1 [.outByte b] s.io.bitIn (some root)) := by
  simp only [decPass, hc, bitAvail_eq_false, hb, if_false, byteOut, send_quiet h]
  simp [State.decd, State.moved, State.setErrors, State.record, State.setCur]

theorem decPass_char_nil {root : Tree} {b : Byte} {c : Count} {s : State} (hc : s.regs.cur = some (.char b c))
    (hb : s.io.bitIn = []) (h : s.io.errors.quiet .byteOut 1) :
    decPass root s = .out (.raised (.prematureEos .payload) (s.decd 0 1 [.outByte b] [] s.regs.cur)) := by
  simp only [decPass, hc, bitAvail_eq_false, hb, if_true, byteOut, send_quiet h]
  rw [← hb]
  simp [State.decd, State.moved, State.setErrors, State.record]
  rcases s with ⟨⟨_, _, _, _, _, _, _⟩, _⟩; simp_all

theorem decPass_char_fail {root : Tree} {b : Byte} {c : Count} {s : State} (hc : s.regs.cur = some (.char b c))
    (h : s.io.errors.failsAt .byteOut 0) :
    decPass root s = .out (.raised (.io .byteOut) (s.decd 0 1 [] s.io.bitIn s.regs.cur)) := by
  simp only [decPass, hc, bitAvail_eq_false, byteOut, send_failsAt h]
  have : s.moved .byteOut 1 [] = s.decd 0 1 [] s.io.bitIn (some (.char b c)) := by
    simp [State.decd, State.moved, State.setErrors, State.record]
    rcases s with ⟨⟨_, _, _, _, _, _, _⟩, _⟩; simp_all
  simp [this]

/-- The leaf of a symbol. -/
def Tree.isLeafOf (t : Tree) : Sym → Prop
  | .byte b => ∃ c, t = .char b c
  | .eos => t = .eos

/-- The walk along the code of a leaf ends on that leaf. -/
theorem walk_code {root : Tree} {f : Fault} {u : Tree} {x : Sym} {p rest : Bits} (n : Nat) {s : State}
    (hm : (x, p) ∈ u.codes) (hc : s.regs.cur = some u) (hb : s.io.bitIn = p ++ rest) (hq : s.io.errors.quiet .bitIn p.length) :
    ∃ leaf : Tree, leaf.isLeafOf x ∧
      loop (decPass root) f (p.length + n) s = loop (decPass root) f n (s.decd p.length 0 (p.map .inBit) rest (some leaf)) := by
  induction u generalizing p s with
  | char b c =>
    simp only [Tree.codes, List.mem_singleton, Prod.mk.injEq] at hm
    obtain ⟨rfl, rfl⟩ := hm
    refine ⟨.char b c, ⟨c, rfl⟩, ?_⟩
    have := s.decd_zero
    rw [hb, hc] at this
    simpa using congrArg (loop _ _ _) this.symm
  | eos =>
    simp only [Tree.codes, List.mem_singleton, Prod.mk.injEq] at hm
    obtain ⟨rfl, rfl⟩ := hm
    refine ⟨.eos, rfl, ?_⟩
    have := s.decd_zero
    rw [hb, hc] at this
    simpa using congrArg (loop _ _ _) this.symm
  | inner c l r hl hr =>
    simp only [Tree.codes, List.mem_append, List.mem_map, Prod.exists, Prod.mk.injEq] at hm
    obtain ⟨b, p', rfl, hm'⟩ : ∃ b p', p = b :: p' ∧ (x, p') ∈ (if b then r else l).codes := by
      rcases hm with ⟨y, q, h1, rfl, rfl⟩ | ⟨y, q, h1, rfl, rfl⟩
      · exact ⟨false, q, rfl, h1⟩
      · exact ⟨true, q, rfl, h1⟩
    rw [List.length_cons, Nat.add_comm, IoErrors.quiet_add] at hq
    have hpass := decPass_bit (root := root) hc hb hq.1
    rw [show (b :: p').length + n = (p'.length + n) + 1 by simp; omega, loop_again hpass]
    cases b with
    | false =>
      obtain ⟨leaf, h1, h2⟩ := hl (s := s.decd 1 0 [.inBit false] (p' ++ rest) (some l)) hm' rfl rfl (quiet_decd_bitIn.2 hq.2)
      refine ⟨leaf, h1, ?_⟩
      show loop _ _ _ (s.decd 1 0 [.inBit false] (p' ++ rest) (some l)) = _
      rw [h2, State.decd_decd, Nat.add_comm 1]; rfl
    | true =>
      obtain ⟨leaf, h1, h2⟩ := hr (s := s.decd 1 0 [.inBit true] (p' ++ rest) (some r)) hm' rfl rfl (quiet_decd_bitIn.2 hq.2)
      refine ⟨leaf, h1, ?_⟩
      show loop _ _ _ (s.decd 1 0 [.inBit true] (p' ++ rest) (some r)) = _
      rw [h2, State.decd_decd, Nat.add_comm 1]; rfl

/-- The events of DEC over a sequence of codes. -/
def decEvents (cs : List (Byte × Bits)) : List Event := cs.flatMap fun x => x.2.map .inBit ++ [.outByte x.1]

/-- The bits of a sequence of codes. -/
abbrev bitsOf (cs : List (Byte × Bits)) : Bits := cs.flatMap Prod.snd

/-- DEC over the codes of Character leaves with more bits after them: every byte is emitted and the walk stands on the root. -/
theorem dec_codes {root : Tree} {f : Fault} (cs : List (Byte × Bits)) {tail : Bits} (n : Nat) {s : State}
    (hcs : ∀ x ∈ cs, (Sym.byte x.1, x.2) ∈ root.codes) (hc : s.regs.cur = some root) (hb : s.io.bitIn = bitsOf cs ++ tail)
    (ht : tail ≠ []) (hq : s.io.errors.quiet .bitIn (bitsOf cs).length) (ho : s.io.errors.quiet .byteOut cs.length) :
    loop (decPass root) f ((bitsOf cs).length + cs.length + n) s =
      loop (decPass root) f n (s.decd (bitsOf cs).length cs.length (decEvents cs) tail (some root)) := by
  induction cs generalizing s with
  | nil =>
    have := s.decd_zero
    rw [hb, hc] at this
    simpa [decEvents] using congrArg (loop _ _ _) this.symm
  | cons x xs ih =>
    obtain ⟨v, p⟩ := x
    have hfl : bitsOf ((v, p) :: xs) = p ++ bitsOf xs := rfl
    rw [hfl, List.length_append, IoErrors.quiet_add] at hq
    rw [List.length_cons, Nat.add_comm, IoErrors.quiet_add] at ho
    obtain ⟨leaf, ⟨c, rfl⟩, h2⟩ := walk_code (root := root) (f := f) (rest := bitsOf xs ++ tail) (1 + ((bitsOf xs).length + xs.length + n)) (hcs (v, p) (by simp)) hc (by rw [hb, hfl, List.append_assoc]) hq.1
    rw [show (bitsOf ((v, p) :: xs)).length + ((v, p) :: xs).length + n = p.length + (1 + ((bitsOf xs).length + xs.length + n)) by rw [hfl]; simp; omega, h2]
    have hpass := decPass_char (root := root) (b := v) (c := c) (s := s.decd p.length 0 (p.map .inBit) (bitsOf xs ++ tail) (some (.char v c))) rfl (by simp [ht]) (quiet_decd_byteOut.2 (by simpa using ho.1))
    rw [Nat.add_comm 1, loop_again hpass, State.decd_decd]
    simp only [Nat.add_zero, Nat.zero_add, State.decd_bitIn]
    rw [ih (s := s.decd p.length 1 (p.map Event.inBit ++ [Event.outByte v]) (bitsOf xs ++ tail) (some root)) (fun x hx => hcs x (by simp [hx])) rfl rfl (quiet_decd_bitIn.2 hq.2) (quiet_decd_byteOut.2 (by simpa using ho.2)), State.decd_decd]
    congr 2
    · rw [hfl]; simp
    · simp; omega

theorem Tree.code_ne_nil {t : Tree} (h : t.isInner = true) {x : Sym × Bits} (hx : x ∈ t.codes) : x.2 ≠ [] := by
  cases t with
  | char b c => cases h
  | eos => cases h
  | inner c l r =>
    simp only [Tree.codes, List.mem_append, List.mem_map] at hx
    rcases hx with ⟨y, _, rfl⟩ | ⟨y, _, rfl⟩ <;> simp

theorem length_le_bitsOf {root : Tree} (h : root.isInner = true) {cs : List (Byte × Bits)} (hcs : ∀ x ∈ cs, (Sym.byte x.1, x.2) ∈ root.codes) :
    cs.length ≤ (bitsOf cs).length := by
  induction cs with
  | nil => simp
  | cons x xs ih =>
    have h1 := ih fun x hx => hcs x (by simp [hx])
    have h2 := Tree.code_ne_nil h (hcs x (by simp))
    have h3 : x.2.length ≠ 0 := by simpa using h2
    simp only [bitsOf, List.flatMap_cons, List.length_append, List.length_cons] at h1 ⊢
    omega

theorem loop_enough {pass : State → Pass} {f : Fault} {m n : Nat} {s : State} {r : Run} (h : loop pass f m s = r) (hr : r ≠ .stuck f) (hmn : m ≤ n) :
    loop pass f n s = r := by
  obtain ⟨k, rfl⟩ := Nat.exists_eq_add_of_le hmn
  rw [loop_mono (by rw [h]; exact hr), h]

/-- Any bits begin with the code of a leaf, or are a proper beginning of one. -/
theorem Tree.reading (u : Tree) (bits : Bits) : (∃ x p rest, (x, p) ∈ u.codes ∧ bits = p ++ rest) ∨ ∃ x ∈ u.codes, bits <+: x.2 ∧ bits ≠ x.2 := by
  induction u generalizing bits with
  | char b c => exact .inl ⟨.byte b, [], bits, by simp [Tree.codes], rfl⟩
  | eos => exact .inl ⟨.eos, [], bits, by simp [Tree.codes], rfl⟩
  | inner c l r hl hr =>
    cases bits with
    | nil =>
      right
      have : ∃ e, e ∈ l.codes := by
        clear hl
        induction l with
        | char b c => exact ⟨(.byte b, []), by simp [Tree.codes]⟩
        | eos => exact ⟨(.eos, []), by simp [Tree.codes]⟩
        | inner c a b ha hb => obtain ⟨e, he⟩ := ha; exact ⟨_, by rw [Tree.codes]; exact List.mem_append_left _ (List.mem_map_of_mem he)⟩
      obtain ⟨e, he⟩ := this
      exact ⟨(e.1, false :: e.2), by rw [Tree.codes]; exact List.mem_append_left _ (List.mem_map_of_mem he), by simp, by simp⟩
    | cons b bits =>
      cases b with
      | false =>
        rcases hl bits with ⟨x, p, rest, h1, rfl⟩ | ⟨x, h1, h2, h3⟩
        · exact .inl ⟨x, false :: p, rest, by simp [Tree.codes, h1], rfl⟩
        · exact .inr ⟨(x.1, false :: x.2), by simp [Tree.codes, h1], by simpa [List.cons_prefix_cons] using h2, by simpa using h3⟩
      | true =>
        rcases hr bits with ⟨x, p, rest, h1, rfl⟩ | ⟨x, h1, h2, h3⟩
        · exact .inl ⟨x, true :: p, rest, by simp [Tree.codes, h1], rfl⟩
        · exact .inr ⟨(x.1, true :: x.2), by simp [Tree.codes, h1], by simpa [List.cons_prefix_cons] using h2, by simpa using h3⟩

end Sys2Proof.Machine
end

