-- ==== Sys2Proof/Laws/Encoding.lean ====
section
/-! SUPPORT. ENC (45_stream_encoder.md R181): one pass, the loop over a packet, and what the host then has on BIT_OUT. -/

namespace Sys2Proof.Machine

/-- The state after `i` transfers on BYTE_IN and `j` on BIT_OUT that recorded `es` and left `rest` unread. -/
def State.encd (s : State) (i j : Nat) (es : List Event) (rest : List ByteItem) : State :=
  { s with io := { s.io with byteIn := rest, errors := (s.io.errors.after .byteIn i).after .bitOut j, events := s.io.events ++ es } }

@[simp] theorem State.encd_regs (s : State) (i j : Nat) (es : List Event) (rest : List ByteItem) : (s.encd i j es rest).regs = s.regs := rfl

@[simp] theorem State.encd_byteIn (s : State) (i j : Nat) (es : List Event) (rest : List ByteItem) : (s.encd i j es rest).io.byteIn = rest := rfl

@[simp] theorem State.encd_errors (s : State) (i j : Nat) (es : List Event) (rest : List ByteItem) : (s.encd i j es rest).io.errors = (s.io.errors.after .byteIn i).after .bitOut j := rfl

theorem IoErrors.after4 (e : IoErrors) (a b c d : Nat) :
    (((e.after .byteIn a).after .bitOut b).after .byteIn c).after .bitOut d = (e.after .byteIn (a + c)).after .bitOut (b + d) := by
  simp [IoErrors.after]

theorem State.encd_encd (s : State) (i j i' j' : Nat) (es es' : List Event) (r r' : List ByteItem) :
    (s.encd i j es r).encd i' j' es' r' = s.encd (i + i') (j + j') (es ++ es') r' := by
  simp [State.encd, IoErrors.after4]

theorem State.encd_zero (s : State) : s.encd 0 0 [] s.io.byteIn = s := by simp [State.encd]

theorem State.encd_moved (s : State) (i : Nat) (e : Event) (r : List ByteItem) (j : Nat) (es : List Event) :
    ((s.moved .byteIn i [e]).setByteIn r).moved .bitOut j es = s.encd i j (e :: es) r := by
  simp [State.encd, State.moved, State.setErrors, State.record, State.setByteIn]

theorem State.encd_moved' (s : State) (i : Nat) (e : Event) (r : List ByteItem) :
    ((s.moved .byteIn i [e]).setByteIn r) = s.encd i 0 [e] r := by
  simp [State.encd, State.moved, State.setErrors, State.record, State.setByteIn]

theorem State.moved_bitOut (s : State) (j : Nat) (es : List Event) :
    s.moved .bitOut j es = s.encd 0 j es s.io.byteIn := by
  simp [State.encd, State.moved, State.setErrors, State.record]

theorem State.moved_byteIn_nil (s : State) (i : Nat) :
    s.moved .byteIn i [] = s.encd i 0 [] s.io.byteIn := by
  simp [State.encd, State.moved, State.setErrors, State.record]

theorem encPass_byte {s : State} {v : Byte} {q : Bits} {rest : List ByteItem} (hb : s.io.byteIn = .byte v :: rest)
    (hl : lutGet s.regs.lut (.byte v) = some q) (h1 : s.io.errors.quiet .byteIn 1) (h2 : s.io.errors.quiet .bitOut q.length) :
    encPass s = .again (s.encd 1 q.length (.inByte v :: q.map .outBit) rest) := by
  simp only [encPass, byteIn_byte h1 hb, State.setByteIn_regs, State.moved_regs, hl]
  rw [bitWriteSeq_quiet (by simpa [IoErrors.quiet_after_ne] using h2), State.encd_moved]
  rfl

theorem encPass_fail {s : State} {v : Byte} {q : Bits} {rest : List ByteItem} {k : Nat} (hb : s.io.byteIn = .byte v :: rest)
    (hl : lutGet s.regs.lut (.byte v) = some q) (h1 : s.io.errors.quiet .byteIn 1) (h2 : s.io.errors.failsAt .bitOut k) (hk : k < q.length) :
    encPass s = .out (.raised (.io .bitOut) (s.encd 1 (k + 1) (.inByte v :: (q.take k).map .outBit) rest)) := by
  simp only [encPass, byteIn_byte h1 hb, State.setByteIn_regs, State.moved_regs, hl]
  rw [bitWriteSeq_failsAt (by simpa [IoErrors.failsAt_after_ne] using h2) hk, State.encd_moved]
  rfl

theorem encPass_end {s : State} {rest : List ByteItem} (hb : s.io.byteIn = .packetEnd :: rest) (h1 : s.io.errors.quiet .byteIn 1) :
    encPass s = .out (.done (s.encd 1 0 [.inEnd] rest)) := by
  simp only [encPass, byteIn_end h1 hb, State.encd_moved']

theorem payload_cons {t : Lut} {v : Byte} {vs : List Byte} {p : Bits} (h : payload t (v :: vs) = some p) :
    ∃ q r, lutGet t (.byte v) = some q ∧ payload t vs = some r ∧ p = q ++ r := by
  rw [payload] at h
  split at h
  · exact ⟨_, _, ‹_›, ‹_›, (Option.some.inj h).symm⟩
  · cases h

/-- The events of ENC over a byte sequence. -/
def encEvents (t : Lut) (bs : List Byte) : List Event := bs.flatMap fun x => .inByte x :: ((lutGet t (.byte x)).getD []).map .outBit

/-- ENC over bytes that all have a code, where no transfer fails. -/
theorem enc_loop {f : Fault} (bs : List Byte) {s : State} {rest : List ByteItem} {p : Bits} (n : Nat)
    (hb : s.io.byteIn = bs.map .byte ++ rest) (hp : payload s.regs.lut bs = some p)
    (h1 : s.io.errors.quiet .byteIn bs.length) (h2 : s.io.errors.quiet .bitOut p.length) :
    loop encPass f (bs.length + n) s = loop encPass f n (s.encd bs.length p.length (encEvents s.regs.lut bs) rest) := by
  induction bs generalizing s p with
  | nil =>
    have : rest = s.io.byteIn := by simpa using hb.symm
    subst this
    simp only [payload, Option.some.injEq] at hp
    subst hp
    simp [encEvents, State.encd_zero]
  | cons v vs ih =>
    obtain ⟨q, r, hq, hr, rfl⟩ := payload_cons hp
    rw [List.length_cons, Nat.add_comm, IoErrors.quiet_add] at h1
    rw [List.length_append, IoErrors.quiet_add] at h2
    have hpass := encPass_byte (rest := vs.map .byte ++ rest) (by simpa using hb) hq h1.1 h2.1
    rw [show (v :: vs).length + n = (vs.length + n) + 1 by simp; omega, loop_again hpass,
      ih (s := s.encd 1 q.length (.inByte v :: q.map .outBit) (vs.map ByteItem.byte ++ rest)) rfl (p := r) hr (by simpa [IoErrors.quiet_after_ne] using h1.2) (by
        simp only [State.encd_errors]; rw [IoErrors.after_comm _ (by decide)]; simpa [IoErrors.quiet_after_ne] using h2.2)]
    rw [State.encd_encd]
    congr 2
    · simp; omega
    · simp
    · simp [encEvents, hq]

/-- ENC over a whole packet. -/
theorem enc_packet (bs : List Byte) {s : State} {rest : List ByteItem} {p : Bits}
    (hb : s.io.byteIn = packetItems bs ++ rest) (hp : payload s.regs.lut bs = some p)
    (h1 : s.io.errors.quiet .byteIn (bs.length + 1)) (h2 : s.io.errors.quiet .bitOut p.length) :
    loop encPass .byteInStarved (s.io.byteIn.length + 1) s =
      .done (s.encd (bs.length + 1) p.length (encEvents s.regs.lut bs ++ [.inEnd]) rest) := by
  rw [IoErrors.quiet_add] at h1
  rw [show s.io.byteIn.length + 1 = bs.length + ((rest.length + 1) + 1) by simp [hb, packetItems]; omega,
    enc_loop bs _ (rest := .packetEnd :: rest) (by simpa [packetItems] using hb) hp h1.1 h2,
    loop_out (encPass_end rfl (by simpa [IoErrors.quiet_after_ne] using h1.2)), State.encd_encd]
  rfl

theorem bitOut_encd (s : State) (i j : Nat) (es : List Event) (r : List ByteItem) : (s.encd i j es r).bitOut = s.bitOut ++ es.filterMap Event.bitOut? := by
  simp [State.bitOut, State.encd]

theorem filterMap_outBit (l : Bits) : (l.map Event.outBit).filterMap Event.bitOut? = l.map .bit := by
  induction l with
  | nil => rfl
  | cons b bs ih => rw [List.map_cons, List.filterMap_cons_some (f := Event.bitOut?) (b := BitItem.bit b) rfl, ih]; rfl

theorem encEvents_bitOut {t : Lut} {bs : List Byte} {p : Bits} (h : payload t bs = some p) :
    (encEvents t bs).filterMap Event.bitOut? = p.map .bit := by
  induction bs generalizing p with
  | nil => simp only [payload, Option.some.injEq] at h; subst h; rfl
  | cons v vs ih =>
    obtain ⟨q, r, hq, hr, rfl⟩ := payload_cons h
    have := ih hr
    rw [encEvents] at this
    rw [encEvents, List.flatMap_cons, List.filterMap_append, this, List.filterMap_cons_none rfl, filterMap_outBit, hq]
    simp

end Sys2Proof.Machine
end

