-- ==== Sys2Proof/Laws/Frames.lean ====
section
/-! SUPPORT. What a command's pseudocode leaves as it was: the relation `State.Kept` (events, inputs and responses only move
one way, PHASE and the fault stay), the relation `State.Uses` (only the named channels are used), and for each command the
registers its pseudocode writes. -/

namespace Sys2Proof.Machine

/-- Between two states of a running command: events are only added, inputs only taken from the front, and CMD, the responses,
PHASE and the fault stay. -/
structure State.Kept (s t : State) : Prop where
  events : s.io.events <+: t.io.events
  byteIn : t.io.byteIn <:+ s.io.byteIn
  bitIn : t.io.bitIn <:+ s.io.bitIn
  cmd : t.io.cmd = s.io.cmd
  responses : t.io.responses = s.io.responses
  phase : t.regs.phase = s.regs.phase
  fault : t.regs.fault = s.regs.fault

theorem State.Kept.refl (s : State) : s.Kept s := ⟨List.prefix_rfl, List.suffix_rfl, List.suffix_rfl, rfl, rfl, rfl, rfl⟩

theorem State.Kept.trans {s t u : State} (h : s.Kept t) (k : t.Kept u) : s.Kept u :=
  ⟨h.events.trans k.events, k.byteIn.trans h.byteIn, k.bitIn.trans h.bitIn, k.cmd.trans h.cmd, k.responses.trans h.responses, k.phase.trans h.phase, k.fault.trans h.fault⟩

theorem State.kept_moved (s : State) (ch : Channel) (n : Nat) (es : List Event) : s.Kept (s.moved ch n es) :=
  ⟨by simp, by simp, by simp, rfl, rfl, rfl, rfl⟩

theorem send_kept (ch : Channel) (e : Event) (s : State) : (send ch e s).Holds s.Kept := by
  rcases send_cases ch e s with ⟨_, h⟩ | ⟨_, h⟩ <;> rw [h] <;> exact s.kept_moved _ _ _

theorem bitWriteSeq_kept (p : Bits) (s : State) : (bitWriteSeq p s).Holds s.Kept := by
  rcases bitWriteSeq_cases p s with h | ⟨n, _, h⟩ <;> rw [h] <;> exact s.kept_moved _ _ _

theorem byteIn_kept (s : State) : match byteIn s with
    | .got _ t => s.Kept t
    | .short t => s.Kept t
    | .failed t => s.Kept t := by
  rcases byteIn_cases s with h | ⟨_, h⟩ | ⟨v, rest, hb, h⟩ | ⟨rest, hb, h⟩ <;> rw [h]
  · exact s.kept_moved _ _ _
  · exact s.kept_moved _ _ _
  · exact ⟨by simp, by simp [hb], by simp, rfl, rfl, rfl, rfl⟩
  · exact ⟨by simp, by simp [hb], by simp, rfl, rfl, rfl, rfl⟩

theorem Run.Holds.after {s t : State} {r : Run} (h : s.Kept t) (hr : r.Holds t.Kept) : r.Holds s.Kept :=
  hr.imp fun _ k => h.trans k

theorem Pass.Holds.imp {P Q : State → Prop} {p : Pass} (h : p.Holds P) (hpq : ∀ s, P s → Q s) : p.Holds Q := by
  cases p with
  | again t => exact hpq t h
  | out r => exact Run.Holds.imp (r := r) h hpq

theorem loop_kept {pass : State → Pass} {f : Fault} (hp : ∀ s, (pass s).Holds s.Kept) (n : Nat) (s : State) :
    (loop pass f n s).Holds s.Kept :=
  loop_holds (P := s.Kept) (fun t ht => (hp t).imp fun _ k => ht.trans k) n s (.refl s)

theorem countPass_kept (s : State) : (countPass s).Holds s.Kept := by
  have := byteIn_kept s
  unfold countPass
  split <;> rename_i h <;> rw [h] at this
  · exact this
  · trivial
  · exact this
  · split
    · exact this
    · exact this.trans ⟨by simp, by simp, by simp, rfl, rfl, rfl, rfl⟩

theorem encPass_kept (s : State) : (encPass s).Holds s.Kept := by
  have := byteIn_kept s
  unfold encPass
  split <;> rename_i h <;> rw [h] at this
  · exact this
  · trivial
  · exact this
  · split
    · exact this
    · rename_i t v p hp
      exact (((bitWriteSeq_kept p _).imp fun _ k => this.trans k)).toPass (P := s.Kept) fun _ k => k

theorem buildPass_kept (s : State) : (buildPass s).Holds s.Kept := by
  unfold buildPass
  split
  · trivial
  all_goals exact ⟨by simp, by simp, by simp, rfl, rfl, rfl, rfl⟩

theorem decPass_kept (root : Tree) (s : State) : (decPass root s).Holds s.Kept := by
  unfold decPass
  split
  · trivial
  · exact .refl s
  · rename_i b c hc
    split
    · exact (send_kept _ _ s).toPass (P := s.Kept) fun _ k => k
    · exact (send_kept _ _ s).toPass (P := s.Kept) fun _ k => k.trans ⟨by simp, by simp, by simp, rfl, rfl, rfl, rfl⟩
  · split
    · exact .refl s
    · rename_i hb
      obtain ⟨b, rest, hbr⟩ : ∃ b rest, s.io.bitIn = b :: rest := by
        cases hbb : s.io.bitIn with
        | nil => simp [hbb] at hb
        | cons b rest => exact ⟨b, rest, rfl⟩
      have hk : s.Kept ((s.moved .bitIn 1 [.inBit b]).setBitIn rest) :=
        ⟨by simp, by simp, by simp [hbr], rfl, rfl, rfl, rfl⟩
      rcases bitRead_cases hbr with ⟨_, h⟩ | ⟨_, h⟩
      · rw [h]; exact s.kept_moved _ _ _
      · rw [h]; cases b
        · exact hk.trans ⟨by simp, by simp, by simp, rfl, rfl, rfl, rfl⟩
        · exact hk.trans ⟨by simp, by simp, by simp, rfl, rfl, rfl, rfl⟩

/-- A property of the state `parse` ends in. -/
def Parsed.Holds (P : State → Prop) : Parsed → Prop
  | .tree _ _ s => P s
  | .raised _ s => P s

theorem parse_kept (n ni : Nat) (s : State) : (parse n ni s).Holds s.Kept := by
  induction n generalizing ni s with
  | zero => exact .refl s
  | succ n ih =>
    rw [parse]
    cases hb : s.io.bitIn with
    | nil => simp [bitAvail, hb]; exact .refl s
    | cons b rest =>
      have hk : s.Kept ((s.moved .bitIn 1 [.inBit b]).setBitIn rest) :=
        ⟨by simp, by simp, by simp [hb], rfl, rfl, rfl, rfl⟩
      rcases bitRead_cases hb with ⟨_, h⟩ | ⟨_, h⟩
      · simp only [bitAvail_eq_false, hb, h, reduceCtorEq, if_false]; exact s.kept_moved _ _ _
      · simp only [bitAvail_eq_false, hb, h, reduceCtorEq, if_false]
        generalize (s.moved .bitIn 1 [.inBit b]).setBitIn rest = t at hk
        cases b with
        | true =>
          simp only
          rcases bitReadN_cases 8 t with ⟨_, h'⟩ | ⟨_, _, h'⟩ | ⟨_, _, h'⟩ <;> rw [h']
          · exact hk.trans (t.kept_moved _ _ _)
          · exact hk.trans (t.kept_moved _ _ _)
          · exact hk.trans ⟨by simp, by simp, by simp [List.drop_suffix], rfl, rfl, rfl, rfl⟩
        | false =>
          simp only
          split
          · exact hk
          · have h1 := ih (ni + 1) t
            cases hp : parse n (ni + 1) t with
            | raised c u => rw [hp] at h1; exact hk.trans h1
            | tree l nl u =>
              rw [hp] at h1
              have h2 := ih nl u
              have h1' : t.Kept u := h1
              simp only
              cases hp2 : parse n nl u with
              | raised c v => rw [hp2] at h2; exact (hk.trans h1').trans h2
              | tree r nr v => rw [hp2] at h2; exact (hk.trans h1').trans h2

/-- What the pseudocode of every command but CLR keeps. -/
theorem runOf_kept {i : Instr} (hi : i ≠ .clr) (s : State) : (runOf i s).Holds fun t =>
    s.io.events <+: t.io.events ∧ t.io.byteIn <:+ s.io.byteIn ∧ t.io.bitIn <:+ s.io.bitIn ∧ t.io.cmd = s.io.cmd ∧
    t.io.responses = s.io.responses ∧ t.regs.phase = s.regs.phase ∧ t.regs.fault = s.regs.fault := by
  have hk : (runOf i s).Holds s.Kept := by
    cases i with
    | clr => exact absurd rfl hi
    | count => exact loop_kept countPass_kept _ s
    | build =>
      have h0 : s.Kept (s.setWork (initialWork s.regs.occ)) := ⟨by simp, by simp, by simp, rfl, rfl, rfl, rfl⟩
      simp only [runOf, buildRun]
      split
      · exact h0
      · exact (loop_kept buildPass_kept _ _).after h0
    | ser =>
      simp only [runOf, serRun]
      split
      · trivial
      · split
        · trivial
        · exact bitWriteSeq_kept _ s
    | deser =>
      have := parse_kept s.io.bitIn.length 0 s
      simp only [runOf, deserRun]
      cases hp : parse s.io.bitIn.length 0 s <;> rw [hp] at this
      rotate_left
      · exact this
      · exact State.Kept.trans this ⟨by simp, by simp, by simp, rfl, rfl, rfl, rfl⟩
    | inj =>
      simp only [runOf, injRun]
      split
      · trivial
      · split
        · trivial
        · exact ⟨by simp, by simp, by simp, rfl, rfl, rfl, rfl⟩
    | lut =>
      simp only [runOf, lutRun]
      split
      · trivial
      · exact ⟨by simp, by simp, by simp, rfl, rfl, rfl, rfl⟩
    | enc =>
      refine Run.Holds.andThen (Run.Holds.andThen (Run.Holds.andThen (loop_kept encPass_kept _ s) ?_) ?_) ?_
      · intro t ht
        simp only [encTerminator]
        split
        · trivial
        · exact (bitWriteSeq_kept _ t).after ht
      · intro t ht
        exact (send_kept _ _ t).after ht
      · intro t ht
        exact ht.trans ⟨by simp, by simp, by simp, rfl, rfl, rfl, rfl⟩
    | dec =>
      simp only [runOf, decRun]
      split
      · trivial
      · have h0 : ∀ u, s.Kept (s.setCur u) := fun u => ⟨by simp, by simp, by simp, rfl, rfl, rfl, rfl⟩
        refine Run.Holds.andThen ((loop_kept (decPass_kept _) _ _).after (h0 _)) ?_
        intro t ht
        exact ht.trans ⟨by simp, by simp, by simp, rfl, rfl, rfl, rfl⟩
  exact hk.imp fun t h => ⟨h.1, h.2, h.3, h.4, h.5, h.6, h.7⟩

/-- What the use of a channel can be seen by: the transfers it has left, its unread items, what the host received on it. -/
def State.seenOn (s : State) : Channel → List Bool × List ByteItem × List Bit × List Byte × List BitItem
  | .byteIn => (s.io.errors.byteIn, s.io.byteIn, [], [], [])
  | .byteOut => (s.io.errors.byteOut, [], [], s.byteOut, [])
  | .bitIn => (s.io.errors.bitIn, [], s.io.bitIn, [], [])
  | .bitOut => (s.io.errors.bitOut, [], [], [], s.bitOut)

/-- Only the channels `chs` are used between two states. -/
def State.Uses (chs : List Channel) (s t : State) : Prop :=
  ∀ ch, ch ∉ chs → t.seenOn ch = s.seenOn ch

theorem State.Uses.refl (chs : List Channel) (s : State) : s.Uses chs s := fun _ _ => rfl

theorem State.Uses.trans {chs : List Channel} {s t u : State} (h : s.Uses chs t) (k : t.Uses chs u) : s.Uses chs u :=
  fun ch hc => (k ch hc).trans (h ch hc)

/-- A property of the state a run goes through in, and one of the state it raises in. -/
def Run.Ends (D R : State → Prop) : Run → Prop
  | .done s => D s
  | .raised _ s => R s
  | .stuck _ => True

/-- An invariant of the passes gives what the loop ends in. -/
theorem loop_ends {I D R : State → Prop} {pass : State → Pass} {f : Fault}
    (hp : ∀ s, I s → match pass s with | .again t => I t | .out r => r.Ends D R) (n : Nat) (s : State) (hs : I s) :
    (loop pass f n s).Ends D R := by
  induction n generalizing s with
  | zero => trivial
  | succ n ih =>
    have := hp s hs
    rw [loop]
    cases h : pass s with
    | again t => rw [h] at this; exact ih t this
    | out r => rw [h] at this; exact this

theorem State.uses_moved (s : State) (ch : Channel) (n : Nat) (es : List Event)
    (h : ∀ e ∈ es, match ch with | .byteOut => e.bitOut? = none | .bitOut => e.byteOut? = none | _ => e.byteOut? = none ∧ e.bitOut? = none) :
    s.Uses [ch] (s.moved ch n es) := by
  intro ch' hc
  have h1 : ch ≠ .byteOut → es.filterMap Event.byteOut? = [] := by
    intro hne
    rw [List.filterMap_eq_nil_iff]
    intro e he
    have := h e he
    cases ch <;> simp_all
  have h2 : ch ≠ .bitOut → es.filterMap Event.bitOut? = [] := by
    intro hne
    rw [List.filterMap_eq_nil_iff]
    intro e he
    have := h e he
    cases ch <;> simp_all
  cases ch <;> cases ch' <;> simp_all [State.seenOn, IoErrors.after, State.byteOut, State.bitOut]

theorem State.uses_of_io {chs : List Channel} {s t u : State} (h : s.Uses chs t) (e : u.io = t.io) : s.Uses chs u := by
  intro ch hc
  rw [← h ch hc]
  cases ch <;> simp [State.seenOn, e, State.byteOut, State.bitOut]

theorem State.uses_setByteIn {chs : List Channel} {s t : State} (h : s.Uses chs t) (hm : Channel.byteIn ∈ chs) (v) :
    s.Uses chs (t.setByteIn v) := by
  intro ch hc
  rw [← h ch hc]
  cases ch
  · exact absurd hm hc
  all_goals simp [State.seenOn, State.byteOut, State.bitOut]

theorem State.uses_setBitIn {chs : List Channel} {s t : State} (h : s.Uses chs t) (hm : Channel.bitIn ∈ chs) (v) :
    s.Uses chs (t.setBitIn v) := by
  intro ch hc
  rw [← h ch hc]
  cases ch
  case bitIn => exact absurd hm hc
  all_goals simp [State.seenOn, State.byteOut, State.bitOut]

theorem State.Uses.mono {c1 c2 : List Channel} {s t : State} (h : s.Uses c1 t) (hs : ∀ c ∈ c1, c ∈ c2) : s.Uses c2 t :=
  fun ch hc => h ch fun hm => hc (hs ch hm)

theorem send_uses (ch : Channel) (e : Event) (s : State)
    (h : match ch with | .byteOut => e.bitOut? = none | .bitOut => e.byteOut? = none | _ => e.byteOut? = none ∧ e.bitOut? = none) :
    (send ch e s).Holds fun t => s.Uses [ch] t ∧ t.regs = s.regs := by
  rcases send_cases ch e s with ⟨_, h'⟩ | ⟨_, h'⟩ <;> rw [h']
  · exact ⟨s.uses_moved _ _ _ (by simpa using h), rfl⟩
  · exact ⟨s.uses_moved _ _ _ (by simp), rfl⟩

theorem bitWriteSeq_uses (p : Bits) (s : State) :
    (bitWriteSeq p s).Holds fun t => s.Uses [.bitOut] t ∧ t.regs = s.regs := by
  rcases bitWriteSeq_cases p s with h | ⟨n, _, h⟩ <;> rw [h]
  · exact ⟨s.uses_moved _ _ _ (by intro e he; obtain ⟨b, _, rfl⟩ := List.mem_map.1 he; rfl), rfl⟩
  · exact ⟨s.uses_moved _ _ _ (by intro e he; obtain ⟨b, _, rfl⟩ := List.mem_map.1 he; rfl), rfl⟩

/-- What the fields say where a channel is not used. -/
theorem State.Uses.views {chs : List Channel} {s t : State} (h : s.Uses chs t) :
    (Channel.byteIn ∉ chs → t.io.byteIn = s.io.byteIn) ∧ (Channel.bitIn ∉ chs → t.io.bitIn = s.io.bitIn) ∧
    (Channel.byteOut ∉ chs → t.byteOut = s.byteOut) ∧ (Channel.bitOut ∉ chs → t.bitOut = s.bitOut) ∧
    ∀ ch, ch ∉ chs → t.io.errors.on ch = s.io.errors.on ch := by
  refine ⟨fun hc => ?_, fun hc => ?_, fun hc => ?_, fun hc => ?_, fun ch hc => ?_⟩
  · have := h _ hc; simp [State.seenOn] at this; exact this.2
  · have := h _ hc; simp [State.seenOn] at this; exact this.2
  · have := h _ hc; simp [State.seenOn] at this; exact this.2
  · have := h _ hc; simp [State.seenOn] at this; exact this.2
  · have := h _ hc; cases ch <;> simp [State.seenOn] at this <;> exact this.1

theorem uses_respond {chs : List Channel} {s t : State} (h : s.Uses chs t) (r : Response) : s.Uses chs (t.respond r) := by
  intro ch hc
  rw [← h ch hc]
  cases ch <;> rfl

theorem uses_faultEntry {chs : List Channel} {s t : State} (h : s.Uses chs t) (op c) : s.Uses chs (faultEntry op c t) := by
  intro ch hc
  rw [← h ch hc]
  cases ch <;> rfl

theorem Run.Ends.andThen {D R D' : State → Prop} {r : Run} {k : State → Run} (h : r.Ends D R)
    (hk : ∀ s, D s → (k s).Ends D' R) : (r.andThen k).Ends D' R := by
  cases r with
  | done s => exact hk s h
  | raised c s => exact h
  | stuck f => trivial

theorem Run.Holds.ends {P : State → Prop} {r : Run} (h : r.Holds P) : r.Ends P P := by
  cases r <;> exact h

theorem Run.Ends.imp {D R D' R' : State → Prop} {r : Run} (h : r.Ends D R) (h1 : ∀ s, D s → D' s) (h2 : ∀ s, R s → R' s) : r.Ends D' R' := by
  cases r with
  | done s => exact h1 s h
  | raised c s => exact h2 s h
  | stuck f => trivial

/-- COUNT writes OCC alone and uses BYTE_IN alone. -/
theorem countRun_frame (s : State) : (countRun s).Holds fun t =>
    s.Uses [.byteIn] t ∧ ∃ o, t.regs = { s.regs with occ := o } := by
  refine loop_holds ?_ _ s ⟨.refl _ _, _, rfl⟩
  rintro t ⟨h1, o, h2⟩
  have hm : ∀ es : List Event, (∀ e ∈ es, e.byteOut? = none ∧ e.bitOut? = none) → s.Uses [.byteIn] (t.moved .byteIn 1 es) :=
    fun es he => h1.trans (t.uses_moved _ _ _ he)
  rcases byteIn_cases t with h | ⟨_, h⟩ | ⟨v, rest, hb, h⟩ | ⟨rest, hb, h⟩ <;> simp only [countPass, h]
  · exact ⟨hm _ (by simp), o, h2⟩
  · trivial
  · split
    · exact ⟨State.uses_setByteIn (hm _ (by simp [Event.byteOut?, Event.bitOut?])) (by simp) _, o, h2⟩
    · refine ⟨State.uses_of_io (State.uses_setByteIn (hm [.inByte v] (by simp [Event.byteOut?, Event.bitOut?])) (by simp) rest) rfl, occSet o v (occGet o v + 1), ?_⟩
      simp only [State.setOcc, State.setByteIn_regs, State.moved_regs]
      rw [h2]
  · exact ⟨State.uses_setByteIn (hm _ (by simp [Event.byteOut?, Event.bitOut?])) (by simp) _, o, h2⟩

/-- BUILD writes TREE and WORK, on a fault WORK alone, and uses no channel. -/
theorem buildRun_ends (s : State) : (buildRun s).Ends
    (fun t => t.io = s.io ∧ ∃ x, t.regs = { s.regs with tree := x, work := [] })
    (fun t => t.io = s.io ∧ ∃ w, t.regs = { s.regs with work := w }) := by
  simp only [buildRun]
  split
  · exact ⟨rfl, _, rfl⟩
  · refine loop_ends (I := fun t => t.io = s.io ∧ ∃ w, t.regs = { s.regs with work := w }) ?_ _ _ ⟨rfl, _, rfl⟩
    rintro t ⟨h1, w, h2⟩
    simp only [buildPass]
    cases mergePass Config.reinsert Config.pair t.regs.work with
    | none => trivial
    | root r => exact ⟨h1, _, by simp only [State.setWork, State.setTree]; rw [h2]⟩
    | tooLarge => exact ⟨h1, _, by simp only [State.setWork]; rw [h2]⟩
    | work w => exact ⟨h1, _, by simp only [State.setWork]; rw [h2]⟩

/-- INJ writes TREE alone and never raises. -/
theorem injRun_ends (s : State) : (injRun s).Ends
    (fun t => t.io = s.io ∧ ∃ x, t.regs = { s.regs with tree := x }) (fun _ => False) := by
  simp only [injRun]
  split
  · trivial
  · split
    · trivial
    · exact ⟨rfl, _, rfl⟩

/-- LUT writes LUT alone and never raises. -/
theorem lutRun_ends (s : State) : (lutRun s).Ends
    (fun t => t.io = s.io ∧ ∃ x, t.regs = { s.regs with lut := x }) (fun _ => False) := by
  simp only [lutRun]
  split
  · trivial
  · exact ⟨rfl, _, rfl⟩

/-- SER writes no register and uses BIT_OUT alone. -/
theorem serRun_frame (s : State) : (serRun s).Holds fun t => s.Uses [.bitOut] t ∧ t.regs = s.regs := by
  simp only [serRun]
  split
  · trivial
  · split
    · trivial
    · exact bitWriteSeq_uses _ s

theorem parse_uses (n ni : Nat) (s : State) : (parse n ni s).Holds fun t => s.Uses [.bitIn] t ∧ t.regs = s.regs := by
  induction n generalizing ni s with
  | zero => exact ⟨.refl _ s, rfl⟩
  | succ n ih =>
    rw [parse]
    cases hb : s.io.bitIn with
    | nil => simp [bitAvail, hb]; exact ⟨.refl _ s, rfl⟩
    | cons b rest =>
      have hk : s.Uses [.bitIn] ((s.moved .bitIn 1 [.inBit b]).setBitIn rest) :=
        State.uses_setBitIn (s.uses_moved .bitIn 1 [.inBit b] (by simp [Event.byteOut?, Event.bitOut?])) (by simp) _
      have hg : ((s.moved .bitIn 1 [.inBit b]).setBitIn rest).regs = s.regs := rfl
      rcases bitRead_cases hb with ⟨_, h⟩ | ⟨_, h⟩
      · simp only [bitAvail_eq_false, hb, h, reduceCtorEq, if_false]; exact ⟨s.uses_moved _ _ _ (by simp), rfl⟩
      · simp only [bitAvail_eq_false, hb, h, reduceCtorEq, if_false]
        generalize (s.moved .bitIn 1 [.inBit b]).setBitIn rest = t at hk hg
        cases b with
        | true =>
          simp only
          rcases bitReadN_cases 8 t with ⟨_, h'⟩ | ⟨_, _, h'⟩ | ⟨_, _, h'⟩ <;> rw [h']
          · exact ⟨hk.trans (t.uses_moved _ _ _ (by simp)), hg⟩
          · exact ⟨hk.trans (t.uses_moved _ _ _ (by simp [Event.byteOut?, Event.bitOut?])), hg⟩
          · exact ⟨State.uses_setBitIn (hk.trans (t.uses_moved _ _ _ (by intro e he; obtain ⟨b, _, rfl⟩ := List.mem_map.1 he; exact ⟨rfl, rfl⟩))) (by simp) _, hg⟩
        | false =>
          simp only
          split
          · exact ⟨hk, hg⟩
          · have h1 := ih (ni + 1) t
            cases hp : parse n (ni + 1) t with
            | raised c u => rw [hp] at h1; exact ⟨hk.trans h1.1, h1.2.trans hg⟩
            | tree l nl u =>
              rw [hp] at h1
              have h2 := ih nl u
              have h1' : t.Uses [.bitIn] u ∧ u.regs = t.regs := h1
              simp only
              cases hp2 : parse n nl u with
              | raised c v => rw [hp2] at h2; exact ⟨(hk.trans h1'.1).trans h2.1, (h2.2.trans h1'.2).trans hg⟩
              | tree r nr v => rw [hp2] at h2; exact ⟨(hk.trans h1'.1).trans h2.1, (h2.2.trans h1'.2).trans hg⟩

/-- DESER writes TREE, on a fault nothing, and uses BIT_IN alone. -/
theorem deserRun_ends (s : State) : (deserRun s).Ends
    (fun t => s.Uses [.bitIn] t ∧ ∃ x, t.regs = { s.regs with tree := x })
    (fun t => s.Uses [.bitIn] t ∧ t.regs = s.regs) := by
  have := parse_uses s.io.bitIn.length 0 s
  simp only [deserRun]
  cases hp : parse s.io.bitIn.length 0 s with
  | raised c t => rw [hp] at this; exact this
  | tree t n u =>
    rw [hp] at this
    obtain ⟨h1, h2⟩ := this
    exact ⟨State.uses_of_io h1 rfl, _, by simp only [State.setTree, h2]; rfl⟩

theorem encLoop_frame (n : Nat) (f : Fault) (s : State) : (loop encPass f n s).Holds fun t =>
    s.Uses [.byteIn, .bitOut] t ∧ t.regs = s.regs := by
  refine loop_holds ?_ _ s ⟨.refl _ _, rfl⟩
  rintro t ⟨h1, h2⟩
  have hm : ∀ es : List Event, (∀ e ∈ es, e.byteOut? = none ∧ e.bitOut? = none) → s.Uses [.byteIn, .bitOut] (t.moved .byteIn 1 es) :=
    fun es he => h1.trans ((t.uses_moved .byteIn _ _ he).mono (by simp))
  rcases byteIn_cases t with h | ⟨_, h⟩ | ⟨v, rest, hb, h⟩ | ⟨rest, hb, h⟩ <;> simp only [encPass, h]
  · exact ⟨hm _ (by simp), h2⟩
  · trivial
  · have hu := State.uses_setByteIn (hm [.inByte v] (by simp [Event.byteOut?, Event.bitOut?])) (by simp) rest
    split
    · exact ⟨hu, h2⟩
    · rename_i p hp
      refine Run.Holds.toPass (P := fun t => s.Uses [.byteIn, .bitOut] t ∧ t.regs = s.regs) ((bitWriteSeq_uses p _).imp ?_) (fun _ k => k)
      rintro u ⟨k1, k2⟩
      exact ⟨hu.trans (k1.mono (by simp)), k2.trans h2⟩
  · exact ⟨State.uses_setByteIn (hm _ (by simp [Event.byteOut?, Event.bitOut?])) (by simp) _, h2⟩

/-- ENC clears OCC, TREE and LUT, on a fault it writes nothing, and uses BYTE_IN and BIT_OUT alone. -/
theorem encRun_ends (s : State) : (encRun s).Ends
    (fun t => s.Uses [.byteIn, .bitOut] t ∧ t.regs = { s.regs with occ := Occ.zero, tree := none, lut := Lut.empty })
    (fun t => s.Uses [.byteIn, .bitOut] t ∧ t.regs = s.regs) := by
  refine Run.Ends.andThen (D := fun t => s.Uses [.byteIn, .bitOut] t ∧ t.regs = s.regs) (Run.Ends.andThen (D := fun t => s.Uses [.byteIn, .bitOut] t ∧ t.regs = s.regs)
    (Run.Ends.andThen (encLoop_frame _ _ s).ends ?_) ?_) ?_
  · rintro t ⟨h1, h2⟩
    simp only [encTerminator]
    split
    · trivial
    · exact ((bitWriteSeq_uses _ t).imp fun u k => ⟨h1.trans (k.1.mono (by simp)), k.2.trans h2⟩).ends
  · rintro t ⟨h1, h2⟩
    exact ((send_uses .bitOut .outFlush t rfl).imp fun u k => ⟨h1.trans (k.1.mono (by simp)), k.2.trans h2⟩).ends
  · rintro t ⟨h1, h2⟩
    exact ⟨State.uses_of_io h1 rfl, by simp [h2]⟩

theorem decLoop_frame (root : Tree) (n : Nat) (f : Fault) (s : State) : (loop (decPass root) f n s).Holds fun t =>
    s.Uses [.bitIn, .byteOut] t ∧ ∃ c, t.regs = { s.regs with cur := c } := by
  refine loop_holds ?_ _ s ⟨.refl _ _, _, rfl⟩
  rintro t ⟨h1, c0, h2⟩
  have hc : ∀ u : State, s.Uses [.bitIn, .byteOut] u → u.regs = t.regs → ∀ c, s.Uses [.bitIn, .byteOut] (u.setCur c) ∧ ∃ x, (u.setCur c).regs = { s.regs with cur := x } := by
    intro u k1 k2 c
    refine ⟨State.uses_of_io k1 rfl, c, ?_⟩
    simp only [State.setCur]; rw [k2, h2]
  have hs : ∀ u : State, s.Uses [.bitIn, .byteOut] u → u.regs = t.regs → s.Uses [.bitIn, .byteOut] u ∧ ∃ x, u.regs = { s.regs with cur := x } := by
    intro u k1 k2
    exact ⟨k1, _, by rw [k2]; exact h2⟩
  have hsend : ∀ b, (byteOut b t).Holds fun u => s.Uses [.bitIn, .byteOut] u ∧ u.regs = t.regs := by
    intro b
    exact (send_uses .byteOut (.outByte b) t rfl).imp fun u k => ⟨h1.trans (k.1.mono (by simp)), k.2⟩
  unfold decPass
  split
  · trivial
  · exact ⟨h1, _, h2⟩
  · rename_i b c hcur
    split
    · cases hb : byteOut b t with
      | done u => have := hsend b; rw [hb] at this; exact hs u this.1 this.2
      | raised c u => have := hsend b; rw [hb] at this; exact hs u this.1 this.2
      | stuck f => trivial
    · cases hb : byteOut b t with
      | done u => have := hsend b; rw [hb] at this; exact hc u this.1 this.2 _
      | raised c u => have := hsend b; rw [hb] at this; exact hs u this.1 this.2
      | stuck f => trivial
  · split
    · exact ⟨h1, _, h2⟩
    · rename_i hb
      obtain ⟨b, rest, hbr⟩ : ∃ b rest, t.io.bitIn = b :: rest := by
        cases hbb : t.io.bitIn with
        | nil => simp [hbb] at hb
        | cons b rest => exact ⟨b, rest, rfl⟩
      have hk : s.Uses [.bitIn, .byteOut] ((t.moved .bitIn 1 [.inBit b]).setBitIn rest) :=
        State.uses_setBitIn (h1.trans ((t.uses_moved .bitIn 1 [.inBit b] (by simp [Event.byteOut?, Event.bitOut?])).mono (by simp))) (by simp) _
      rcases bitRead_cases hbr with ⟨_, h⟩ | ⟨_, h⟩
      · rw [h]; exact hs _ (h1.trans ((t.uses_moved .bitIn 1 [] (by simp)).mono (by simp))) rfl
      · rw [h]; cases b
        · exact hc _ hk rfl _
        · exact hc _ hk rfl _

/-- DEC clears OCC, TREE, LUT and CUR, on a fault it writes CUR alone, and uses BIT_IN and BYTE_OUT alone. -/
theorem decRun_ends (s : State) : (decRun s).Ends
    (fun t => s.Uses [.bitIn, .byteOut] t ∧ t.regs = { s.regs with occ := Occ.zero, tree := none, lut := Lut.empty, cur := none })
    (fun t => s.Uses [.bitIn, .byteOut] t ∧ ∃ c, t.regs = { s.regs with cur := c }) := by
  simp only [decRun]
  split
  · trivial
  · rename_i root hroot
    have h0 : s.Uses [.bitIn, .byteOut] (s.setCur (some root)) := State.uses_of_io (.refl _ _) rfl
    have := (decLoop_frame root (decBound s) .decNeverEnds (s.setCur (some root))).ends
    refine Run.Ends.andThen (D := fun t => s.Uses [.bitIn, .byteOut] t ∧ ∃ c, t.regs = { s.regs with cur := c }) (this.imp ?_ ?_) ?_
    · rintro t ⟨h1, c, h2⟩
      exact ⟨h0.trans h1, c, h2⟩
    · rintro t ⟨h1, c, h2⟩
      exact ⟨h0.trans h1, c, h2⟩
    · rintro t ⟨h1, c, h2⟩
      exact ⟨State.uses_of_io h1 rfl, by simp only [discardData_regs, State.setCur]; rw [h2]⟩

/-- The data registers a raising command leaves (60_exceptions.md R228). -/
theorem runOf_raised {i : Instr} {s u : State} {c : Cause} (hr : runOf i s = .raised c u) :
    u.regs.tree = s.regs.tree ∧ u.regs.lut = s.regs.lut ∧ (i ≠ .count → u.regs.occ = s.regs.occ) := by
  cases i with
  | clr => cases hr
  | count => have := countRun_frame s; rw [show countRun s = _ from hr] at this; obtain ⟨_, x, h⟩ := this; simp [h]
  | build => have := buildRun_ends s; rw [show buildRun s = _ from hr] at this; obtain ⟨_, x, h⟩ := this; simp [h]
  | ser => have := serRun_frame s; rw [show serRun s = _ from hr] at this; rw [this.2]; simp
  | deser => have := deserRun_ends s; rw [show deserRun s = _ from hr] at this; rw [this.2]; simp
  | inj => have := injRun_ends s; rw [show injRun s = _ from hr] at this; exact this.elim
  | lut => have := lutRun_ends s; rw [show lutRun s = _ from hr] at this; exact this.elim
  | enc => have := encRun_ends s; rw [show encRun s = _ from hr] at this; rw [this.2]; simp
  | dec => have := decRun_ends s; rw [show decRun s = _ from hr] at this; obtain ⟨_, x, h⟩ := this; simp [h]

end Sys2Proof.Machine
end

