-- ==== Sys2Proof/Laws/Merging.lean ====
section
/-! SUPPORT. The Tree Builder (41_tree_builder.md): the sort, one pass over the collection, the loop, the initial collection. -/

namespace Sys2Proof.Machine

theorem insertDesc_perm (t : Tree) (w : List Tree) : (insertDesc t w).Perm (t :: w) := by
  induction w with
  | nil => exact List.Perm.refl _
  | cons u us ih =>
    rw [insertDesc]
    split
    · exact List.Perm.refl _
    · exact (ih.cons u).trans (List.Perm.swap t u us)

theorem sortDesc_perm (w : List Tree) : (sortDesc w).Perm w := by
  induction w with
  | nil => exact List.Perm.refl _
  | cons t ts ih => exact (insertDesc_perm t _).trans (ih.cons t)

/-- Descending counts. -/
abbrev SortedDesc (w : List Tree) : Prop := w.Pairwise fun a b => b.count.toNat ≤ a.count.toNat

theorem insertDesc_sorted {t : Tree} {w : List Tree} (h : SortedDesc w) : SortedDesc (insertDesc t w) := by
  induction w with
  | nil => simp [SortedDesc, insertDesc]
  | cons u us ih =>
    rw [SortedDesc, List.pairwise_cons] at h
    rw [insertDesc]
    split
    · rename_i hut
      simp only [SortedDesc, List.pairwise_cons, List.mem_cons]
      refine ⟨?_, h.1, h.2⟩
      rintro a (rfl | ha)
      · exact hut
      · exact (h.1 a ha).trans hut
    · rename_i hut
      simp only [SortedDesc, List.pairwise_cons]
      refine ⟨fun a ha => ?_, ih h.2⟩
      rcases List.mem_cons.1 ((insertDesc_perm t us).mem_iff.1 ha) with rfl | ha
      · omega
      · exact h.1 a ha

theorem sortDesc_sorted (w : List Tree) : SortedDesc (sortDesc w) := by
  induction w with
  | nil => exact List.Pairwise.nil
  | cons t ts ih => exact insertDesc_sorted ih

theorem insertDesc_filter (t : Tree) (w : List Tree) (c : Count) :
    (insertDesc t w).filter (fun u => u.count = c) = (t :: w).filter (fun u => u.count = c) := by
  induction w with
  | nil => rfl
  | cons u us ih =>
    rw [insertDesc]
    split
    · rfl
    · rename_i hut
      rw [List.filter_cons, ih]
      by_cases ht : t.count = c <;> by_cases hu : u.count = c
      · exact absurd (by rw [ht, hu]) hut
      all_goals simp [ht, hu]

/-- Trees of one count keep their order. -/
theorem sortDesc_filter (w : List Tree) (c : Count) :
    (sortDesc w).filter (fun u => u.count = c) = w.filter (fun u => u.count = c) := by
  induction w with
  | nil => rfl
  | cons t ts ih => rw [sortDesc, insertDesc_filter, List.filter_cons, List.filter_cons, ih]

/-- The sum of the counts of a collection. -/
def totalCount (w : List Tree) : Nat := (w.map fun t => t.count.toNat).sum

theorem totalCount_perm {v w : List Tree} (h : v.Perm w) : totalCount v = totalCount w := (h.map _).sum_eq

theorem totalCount_cons (t : Tree) (w : List Tree) : totalCount (t :: w) = t.count.toNat + totalCount w := rfl

/-- All a pass can make of a collection: the pair it removes is two of the smallest. -/
theorem mergePass_cases (w : List Tree) :
    (w = [] ∧ mergePass Config.reinsert Config.pair w = .none) ∨
    (∃ t, w = [t] ∧ mergePass Config.reinsert Config.pair w = .root t) ∨
    (∃ x y v, w.Perm (x :: y :: v) ∧ (∀ u ∈ y :: v, x.count.toNat ≤ u.count.toNat) ∧
      (∀ u ∈ v, y.count.toNat ≤ u.count.toNat) ∧
      ((2 ^ 64 ≤ x.count.toNat + y.count.toNat ∧ mergePass Config.reinsert Config.pair w = .tooLarge) ∨
       (x.count.toNat + y.count.toNat < 2 ^ 64 ∧
        mergePass Config.reinsert Config.pair w = .work (.inner (x.count + y.count) x y :: v)))) := by
  have hp : (sortDesc w).reverse.Perm w := (List.reverse_perm _).trans (sortDesc_perm w)
  have hs : (sortDesc w).reverse.Pairwise fun a b => a.count.toNat ≤ b.count.toNat := by
    rw [List.pairwise_reverse]; exact sortDesc_sorted w
  simp only [mergePass]
  cases h : (sortDesc w).reverse with
  | nil =>
    left
    rw [h] at hp
    exact ⟨hp.symm.eq_nil, rfl⟩
  | cons x l =>
    rw [h] at hp hs
    cases l with
    | nil =>
      right; left
      exact ⟨x, List.perm_singleton.1 hp.symm, rfl⟩
    | cons y rest =>
      right; right
      rw [List.pairwise_cons, List.pairwise_cons] at hs
      refine ⟨x, y, rest.reverse, hp.symm.trans (((List.reverse_perm rest).symm.cons y).cons x),
        fun u hu => hs.1 u (by simpa using hu), fun u hu => hs.2.1 u (by simpa using hu), ?_⟩
      simp only
      split
      · left; exact ⟨‹_›, rfl⟩
      · right; exact ⟨by omega, rfl⟩

/-- What the loop makes of a collection: one tree with its leaves, its counts and their sum; or an overflow, where the sum does not
fit 64 bits. -/
theorem greedy_spec (n : Nat) (w : List Tree) (hn : w.length ≤ n) (hw : w ≠ []) :
    (∃ t, greedy n w = .root t ∧ t.count.toNat = totalCount w ∧ t.chars.Perm (w.flatMap Tree.chars) ∧
      t.leaves = (w.map Tree.leaves).sum ∧ ((∀ u ∈ w, u.hasEos = false) → t.hasEos = false) ∧
      ((∀ u ∈ w, u.countOk = true) → t.countOk = true)) ∨
    (greedy n w = .tooLarge ∧ 2 ^ 64 ≤ totalCount w) := by
  induction n generalizing w with
  | zero => exact absurd (List.length_eq_zero_iff.1 (by omega)) hw
  | succ n ih =>
    rcases mergePass_cases w with ⟨h, _⟩ | ⟨t, rfl, h⟩ | ⟨x, y, v, hp, _, _, ⟨hs, h⟩ | ⟨hs, h⟩⟩
    · exact absurd h hw
    · left; exact ⟨t, by simp [greedy, h], by simp [totalCount], by simp, by simp, by simp, by simp⟩
    · right
      refine ⟨by simp [greedy, h], ?_⟩
      rw [totalCount_perm hp, totalCount_cons, totalCount_cons]; omega
    · have hsum : (x.count + y.count).toNat = x.count.toNat + y.count.toNat := by
        rw [BitVec.toNat_add, Nat.mod_eq_of_lt hs]
      have ht' : totalCount (.inner (x.count + y.count) x y :: v) = totalCount w := by
        rw [totalCount_perm hp, totalCount_cons, totalCount_cons, totalCount_cons, Tree.count, hsum]; omega
      have hl := hp.length_eq
      simp only [List.length_cons] at hl
      have hg : greedy (n + 1) w = greedy n (.inner (x.count + y.count) x y :: v) := by simp [greedy, h]
      rw [hg]
      rcases ih (.inner (x.count + y.count) x y :: v) (by simp; omega) (by simp) with ⟨t, h1, h2, h3, h4, h5, h6⟩ | ⟨h1, h2⟩
      · left
        refine ⟨t, h1, by rw [h2, ht'], ?_, ?_, ?_, ?_⟩
        · refine h3.trans ?_
          have := hp.flatMap_right Tree.chars
          simpa [Tree.chars] using this.symm
        · rw [h4, (hp.map Tree.leaves).sum_eq]; simp [Tree.leaves]; omega
        · intro hu
          apply h5
          intro u hm
          rcases List.mem_cons.1 hm with rfl | hm
          · simp [Tree.hasEos, hu x (hp.mem_iff.2 (by simp)), hu y (hp.mem_iff.2 (by simp))]
          · exact hu u (hp.mem_iff.2 (by simp [hm]))
        · intro hu
          apply h6
          intro u hm
          rcases List.mem_cons.1 hm with rfl | hm
          · simp [Tree.countOk, hsum, hu x (hp.mem_iff.2 (by simp)), hu y (hp.mem_iff.2 (by simp))]
          · exact hu u (hp.mem_iff.2 (by simp [hm]))
      · right
        exact ⟨h1, by rw [← ht']; exact h2⟩

/-- BUILD's loop over WORK is `greedy` over its contents. -/
theorem build_loop (n : Nat) (w : List Tree) (hn : w.length ≤ n) (hw : w ≠ []) (s : State) :
    loop buildPass .emptyWork n (s.setWork w) =
      match greedy n w with
      | .root t => .done ((s.setTree (some t)).setWork [])
      | .tooLarge => .raised (.ovf .build) (s.setWork [])
      | .none => .stuck .emptyWork
      | .work _ => .stuck .emptyWork := by
  induction n generalizing w with
  | zero => exact absurd (List.length_eq_zero_iff.1 (by omega)) hw
  | succ n ih =>
    rcases mergePass_cases w with ⟨h, _⟩ | ⟨t, rfl, h⟩ | ⟨x, y, v, hp, _, _, ⟨hs, h⟩ | ⟨hs, h⟩⟩
    · exact absurd h hw
    · simp only [loop, buildPass, State.setWork, h, greedy]; rfl
    · simp only [loop, buildPass, State.setWork, h, greedy]
    · have hl := hp.length_eq
      simp only [List.length_cons] at hl
      have := ih (.inner (x.count + y.count) x y :: v) (by simp; omega) (by simp)
      simp only [loop, buildPass, State.setWork, h, greedy] at this ⊢
      exact this

theorem leafOf_zero {o : Occ} {b : Byte} (h : occGet o b = 0) : leafOf o b = none := if_pos h

theorem leafOf_ne {o : Occ} {b : Byte} (h : occGet o b ≠ 0) : leafOf o b = some (.char b (occGet o b)) := if_neg h

theorem chars_initialWork (o : Occ) : (initialWork o).flatMap Tree.chars =
    (allBytes.filter fun b => occGet o b ≠ 0).map fun b => (b, occGet o b) := by
  simp only [initialWork]
  induction allBytes with
  | nil => rfl
  | cons b bs ih =>
    by_cases h : occGet o b = 0
    · rw [List.filterMap_cons_none (leafOf_zero h), List.filter_cons_of_neg (by simpa using h), ih]
    · rw [List.filterMap_cons_some (leafOf_ne h), List.filter_cons_of_pos (by simpa using h), List.flatMap_cons, ih]; rfl

theorem total_initialWork (o : Occ) : totalCount (initialWork o) = (allBytes.map fun b => (occGet o b).toNat).sum := by
  simp only [initialWork, totalCount]
  induction allBytes with
  | nil => rfl
  | cons b bs ih =>
    by_cases h : occGet o b = 0
    · rw [List.filterMap_cons_none (leafOf_zero h), ih]; simp [h]
    · rw [List.filterMap_cons_some (leafOf_ne h), List.map_cons, List.sum_cons, ih]; rfl

theorem mem_initialWork {o : Occ} {t : Tree} (h : t ∈ initialWork o) : ∃ b, occGet o b ≠ 0 ∧ t = .char b (occGet o b) := by
  simp only [initialWork, List.mem_filterMap, leafOf] at h
  obtain ⟨b, _, h⟩ := h
  split at h
  · cases h
  · exact ⟨b, ‹_›, by cases h; rfl⟩

theorem initialWork_ne_nil {o : Occ} {b : Byte} (h : occGet o b ≠ 0) : initialWork o ≠ [] := by
  have : Tree.char b (occGet o b) ∈ initialWork o := by
    simp only [initialWork, List.mem_filterMap]
    exact ⟨b, mem_allBytes b, leafOf_ne h⟩
  intro e; rw [e] at this; cases this

theorem leaves_initialWork (o : Occ) : ((initialWork o).map Tree.leaves).sum = (initialWork o).length := by
  have : ∀ w : List Tree, (∀ t ∈ w, t.leaves = 1) → (w.map Tree.leaves).sum = w.length := by
    intro w
    induction w with
    | nil => simp
    | cons t ts ih =>
      intro h
      rw [List.map_cons, List.sum_cons, ih fun u hu => h u (by simp [hu]), h t (by simp), List.length_cons, Nat.add_comm]
  apply this
  intro t ht
  obtain ⟨b, _, rfl⟩ := mem_initialWork ht
  rfl

theorem length_initialWork (o : Occ) : (initialWork o).length ≤ 256 := by
  rw [← length_allBytes]; exact List.length_filterMap_le _ _

theorem initialWork_single {o : Occ} {b : Byte} (hb : occGet o b ≠ 0) (h : ∀ c, occGet o c ≠ 0 → c = b) :
    initialWork o = [.char b (occGet o b)] := by
  have hl : initialWork o = (allBytes.filter fun c => occGet o c ≠ 0).map fun c => .char c (occGet o c) := by
    simp only [initialWork]
    induction allBytes with
    | nil => rfl
    | cons b bs ih =>
      by_cases h : occGet o b = 0
      · rw [List.filterMap_cons_none (leafOf_zero h), List.filter_cons_of_neg (by simpa using h), ih]
      · rw [List.filterMap_cons_some (leafOf_ne h), List.filter_cons_of_pos (by simpa using h), ih]; rfl
  have hf : (allBytes.filter fun c => occGet o c ≠ 0) = [b] := by
    have he : (fun c => decide (occGet o c ≠ 0)) = fun c => c == b := by
      funext c
      by_cases hc : c = b
      · subst hc; simpa using hb
      · have : occGet o c = 0 := by
          by_contra hn; exact hc (h c hn)
        simp [this, hc]
    have := nodup_allBytes
    rw [he, List.filter_beq, List.count_eq_one_of_mem this (mem_allBytes b)]
    rfl
  rw [hl, hf]; rfl

/-- BUILD on a table that is not all 0. -/
theorem buildRun_eq {s : State} (h : ∃ b, occGet s.regs.occ b ≠ 0) :
    buildRun s = match builtTree s.regs.occ with
      | .root t => .done ((s.setTree (some t)).setWork [])
      | .tooLarge => .raised (.ovf .build) (s.setWork [])
      | .none => .stuck .emptyWork
      | .work _ => .stuck .emptyWork := by
  obtain ⟨b, hb⟩ := h
  have hne := initialWork_ne_nil hb
  simp only [buildRun]
  rw [if_neg (by simpa using hne)]
  exact build_loop _ _ (Nat.le_refl _) hne s

end Sys2Proof.Machine
end

