-- ==== Sys2Proof/Laws/Optimal.lean ====
section
/-! SUPPORT. The exchange argument behind 41_tree_builder.md R131 (e), on binary trees with a weight at each leaf: from any tree,
two smallest weights can be brought together as siblings at no cost. -/

namespace Sys2Proof.Machine

/-- A binary tree with a weight at each leaf. -/
inductive WeightTree where
  | leaf (w : Nat)
  | node (l r : WeightTree)

/-- The weights with their depths, left to right, the root at depth `d`. -/
def WeightTree.leafDepths : WeightTree → Nat → List (Nat × Nat)
  | .leaf w, d => [(w, d)]
  | .node l r, d => l.leafDepths (d + 1) ++ r.leafDepths (d + 1)

/-- The sum of weight times depth. -/
def weightedDepth (L : List (Nat × Nat)) : Nat := (L.map fun x => x.1 * x.2).sum

theorem weightedDepth_append (L M : List (Nat × Nat)) : weightedDepth (L ++ M) = weightedDepth L + weightedDepth M := by simp [weightedDepth]

theorem weightedDepth_cons (x : Nat × Nat) (M : List (Nat × Nat)) : weightedDepth (x :: M) = x.1 * x.2 + weightedDepth M := by simp [weightedDepth]

/-- Any weights can stand at the leaves of a tree. -/
theorem WeightTree.relabel (T : WeightTree) (d : Nat) (ws : List Nat) (h : ws.length = (T.leafDepths d).length) :
    ∃ T' : WeightTree, T'.leafDepths d = ws.zip ((T.leafDepths d).map Prod.snd) := by
  induction T generalizing d ws with
  | leaf w =>
    match ws, h with
    | [v], _ => exact ⟨.leaf v, rfl⟩
  | node l r hl hr =>
    simp only [WeightTree.leafDepths, List.length_append] at h
    obtain ⟨l', h1⟩ := hl (d + 1) (ws.take (l.leafDepths (d + 1)).length) (by simp; omega)
    obtain ⟨r', h2⟩ := hr (d + 1) (ws.drop (l.leafDepths (d + 1)).length) (by simp; omega)
    refine ⟨.node l' r', ?_⟩
    rw [WeightTree.leafDepths, h1, h2, WeightTree.leafDepths, List.map_append, ← List.zip_append (by simp; omega), List.take_append_drop]

/-- Two deepest leaves are siblings, and one leaf can take their place. -/
theorem WeightTree.deepest (l r : WeightTree) (d : Nat) : ∃ (pre post : List (Nat × Nat)) (p q e : Nat), d ≤ e ∧
    (WeightTree.node l r).leafDepths d = pre ++ (p, e + 1) :: (q, e + 1) :: post ∧ (∀ x ∈ (WeightTree.node l r).leafDepths d, x.2 ≤ e + 1) ∧
    ∀ s, ∃ T' : WeightTree, T'.leafDepths d = pre ++ (s, e) :: post := by
  have key : ∀ (T : WeightTree) (d : Nat), (∃ w, T = .leaf w) ∨ ∃ (pre post : List (Nat × Nat)) (p q e : Nat), d ≤ e ∧
      T.leafDepths d = pre ++ (p, e + 1) :: (q, e + 1) :: post ∧ (∀ x ∈ T.leafDepths d, x.2 ≤ e + 1) ∧
      ∀ s, ∃ T' : WeightTree, T'.leafDepths d = pre ++ (s, e) :: post := by
    intro T
    induction T with
    | leaf w => exact fun d => .inl ⟨w, rfl⟩
    | node l r hl hr =>
      intro d
      right
      rcases hl (d + 1) with ⟨v, rfl⟩ | ⟨pre, post, p, q, e, h0, h1, h2, h3⟩
      · rcases hr (d + 1) with ⟨w, rfl⟩ | ⟨pre', post', p', q', e', h0', h1', h2', h3'⟩
        · exact ⟨[], [], v, w, d, Nat.le_refl _, rfl, by simp [WeightTree.leafDepths], fun s => ⟨.leaf s, rfl⟩⟩
        · refine ⟨(v, d + 1) :: pre', post', p', q', e', by omega, by simp [WeightTree.leafDepths, h1'], ?_, ?_⟩
          · intro x hx
            simp only [WeightTree.leafDepths, List.cons_append, List.nil_append, List.mem_cons] at hx
            rcases hx with rfl | hx
            · simp; omega
            · exact h2' x hx
          · intro s
            obtain ⟨T', hT⟩ := h3' s
            exact ⟨.node (.leaf v) T', by simp [WeightTree.leafDepths, hT]⟩
      · by_cases hc : ∀ x ∈ r.leafDepths (d + 1), x.2 ≤ e + 1
        · refine ⟨pre, post ++ r.leafDepths (d + 1), p, q, e, by omega, by simp [WeightTree.leafDepths, h1], ?_, ?_⟩
          · intro x hx
            simp only [WeightTree.leafDepths, List.mem_append] at hx
            rcases hx with hx | hx
            · exact h2 x hx
            · exact hc x hx
          · intro s
            obtain ⟨T', hT⟩ := h3 s
            exact ⟨.node T' r, by simp [WeightTree.leafDepths, hT]⟩
        · rcases hr (d + 1) with ⟨w, rfl⟩ | ⟨pre', post', p', q', e', h0', h1', h2', h3'⟩
          · exact absurd (by simp [WeightTree.leafDepths]; omega) hc
          · have hee : e ≤ e' := by
              by_contra hn
              exact hc fun x hx => (h2' x hx).trans (by omega)
            refine ⟨l.leafDepths (d + 1) ++ pre', post', p', q', e', by omega, by simp [WeightTree.leafDepths, h1'], ?_, ?_⟩
            · intro x hx
              simp only [WeightTree.leafDepths, List.mem_append] at hx
              rcases hx with hx | hx
              · exact (h2 x hx).trans (by omega)
              · exact h2' x hx
            · intro s
              obtain ⟨T', hT⟩ := h3' s
              exact ⟨.node l T', by simp [WeightTree.leafDepths, hT]⟩
  rcases key (.node l r) d with ⟨w, h⟩ | h
  · cases h
  · exact h

/-- A smallest weight can be exchanged with the one at the largest depth at no cost. -/
theorem swap_min {R : List (Nat × Nat)} {D p a : Nat} {m : List Nat} (hD : ∀ x ∈ R, x.2 ≤ D) (hp : (p :: R.map Prod.fst).Perm (a :: m))
    (ha : ∀ x ∈ p :: R.map Prod.fst, a ≤ x) : ∃ R' : List (Nat × Nat), R'.map Prod.snd = R.map Prod.snd ∧ (R'.map Prod.fst).Perm m ∧ weightedDepth R' + a * D ≤ weightedDepth R + p * D := by
  by_cases hpa : p = a
  · subst hpa
    exact ⟨R, rfl, (List.perm_cons p).1 hp, Nat.le_refl _⟩
  · have hm : a ∈ R.map Prod.fst := by
      have : a ∈ p :: R.map Prod.fst := hp.mem_iff.2 (by simp)
      rcases List.mem_cons.1 this with h | h
      · exact absurd h.symm hpa
      · exact h
    obtain ⟨⟨a', d⟩, hx, rfl⟩ := List.mem_map.1 hm
    obtain ⟨R1, R2, rfl⟩ := List.append_of_mem hx
    refine ⟨R1 ++ (p, d) :: R2, by simp, ?_, ?_⟩
    · simp only [List.map_append, List.map_cons] at hp ⊢
      have h1 : (a' :: (R1.map Prod.fst ++ p :: R2.map Prod.fst)).Perm (a' :: m) := by
        refine List.Perm.trans ?_ hp
        exact ((List.perm_middle (l₁ := R1.map Prod.fst)).cons a').trans ((List.Perm.swap _ _ _).trans ((List.perm_middle (l₁ := R1.map Prod.fst)).symm.cons p))
      exact (List.perm_cons a').1 h1
    · have h1 : d ≤ D := hD (a', d) (by simp)
      have h2 : a' ≤ p := ha p (by simp)
      obtain ⟨k, rfl⟩ := Nat.exists_eq_add_of_le h1
      obtain ⟨j, rfl⟩ := Nat.exists_eq_add_of_le h2
      simp only [weightedDepth_append, weightedDepth_cons]
      nlinarith

/-- From any tree, one in which two smallest weights are merged, at least as cheap by the weight of the merged leaf. -/
theorem WeightTree.merge_min {T : WeightTree} {a b : Nat} {m : List Nat} (hp : ((T.leafDepths 0).map Prod.fst).Perm (a :: b :: m)) (ha : ∀ x ∈ b :: m, a ≤ x)
    (hb : ∀ x ∈ m, b ≤ x) : ∃ T' : WeightTree, ((T'.leafDepths 0).map Prod.fst).Perm ((a + b) :: m) ∧ weightedDepth (T'.leafDepths 0) + (a + b) ≤ weightedDepth (T.leafDepths 0) := by
  cases T with
  | leaf w => have := hp.length_eq; simp [WeightTree.leafDepths] at this
  | node l r =>
    obtain ⟨pre, post, p, q, e, _, h1, h2, h3⟩ := WeightTree.deepest l r 0
    rw [h1] at hp h2 ⊢
    have hp1 : (p :: ((q, e + 1) :: (pre ++ post)).map Prod.fst).Perm (a :: b :: m) := by
      refine List.Perm.trans ?_ hp
      simp only [List.map_cons, List.map_append]
      exact (List.perm_middle.trans (List.perm_middle.cons p)).symm
    have hD : ∀ x ∈ (q, e + 1) :: (pre ++ post), x.2 ≤ e + 1 := by
      intro x hx
      apply h2
      simp only [List.mem_cons, List.mem_append] at hx ⊢
      tauto
    obtain ⟨R1, hs1, hf1, hw1⟩ := swap_min (a := a) hD hp1 (by
      intro x hx
      rcases List.mem_cons.1 (hp1.mem_iff.1 hx) with rfl | hx
      · exact Nat.le_refl _
      · exact ha x hx)
    match R1, hs1, hf1, hw1 with
    | [], hs1, _, _ => simp at hs1
    | (q', D') :: R1, hs1, hf1, hw1 =>
      simp only [List.map_cons, List.cons.injEq] at hs1
      obtain ⟨rfl, hs1⟩ := hs1
      have hDsnd : ∀ x ∈ R1, x.2 ≤ e + 1 := by
        intro x hx
        have : x.2 ∈ (pre ++ post).map Prod.snd := by rw [← hs1]; exact List.mem_map_of_mem hx
        obtain ⟨y, hy, hyx⟩ := List.mem_map.1 this
        rw [← hyx]; exact hD y (by simp only [List.mem_cons]; right; exact hy)
      obtain ⟨R2, hs2, hf2, hw2⟩ := swap_min (a := b) (m := m) hDsnd hf1 (by
        intro x hx
        rcases List.mem_cons.1 (hf1.mem_iff.1 hx) with rfl | hx
        · exact Nat.le_refl _
        · exact hb x hx)
      rw [hs1] at hs2
      obtain ⟨T1, hT1⟩ := h3 (a + b)
      have hlen : R2.length = pre.length + post.length := by
        have := congrArg List.length hs2; simpa using this
      obtain ⟨T2, hT2⟩ := WeightTree.relabel T1 0 ((R2.take pre.length).map Prod.fst ++ (a + b) :: (R2.drop pre.length).map Prod.fst) (by rw [hT1]; simp; omega)
      have hz : T2.leafDepths 0 = R2.take pre.length ++ (a + b, e) :: R2.drop pre.length := by
        rw [hT2, hT1, List.map_append, List.map_cons]
        have e1 : pre.map Prod.snd = (R2.take pre.length).map Prod.snd := by
          rw [List.map_take, hs2]; simp
        have e2 : post.map Prod.snd = (R2.drop pre.length).map Prod.snd := by
          rw [List.map_drop, hs2]; simp
        rw [e1, e2, List.zip_append (by simp), List.zip_cons_cons]
        have hzip : ∀ L : List (Nat × Nat), (L.map Prod.fst).zip (L.map Prod.snd) = L := by
          intro L; induction L with
          | nil => rfl
          | cons x xs ih => simp [ih]
        rw [hzip, hzip]
      refine ⟨T2, ?_, ?_⟩
      · rw [hz]
        simp only [List.map_append, List.map_cons]
        refine List.perm_middle.trans (List.Perm.cons _ ?_)
        rw [← List.map_append, List.take_append_drop]
        exact hf2
      · rw [hz]
        have hsum : weightedDepth (R2.take pre.length ++ (a + b, e) :: R2.drop pre.length) = (a + b) * e + weightedDepth R2 := by
          have : weightedDepth R2 = weightedDepth (R2.take pre.length) + weightedDepth (R2.drop pre.length) := by rw [← weightedDepth_append, List.take_append_drop]
          rw [weightedDepth_append, weightedDepth_cons, this]; simp only; omega
        rw [hsum]
        simp only [weightedDepth_append, weightedDepth_cons] at hw1 hw2 ⊢
        nlinarith

/-- The counts of a code tree as weights. -/
def Tree.skel : Tree → WeightTree
  | .char _ c => .leaf c.toNat
  | .eos => .leaf 0
  | .inner _ l r => .node l.skel r.skel

theorem Tree.skel_cost (t : Tree) (d : Nat) : weightedDepth (t.skel.leafDepths d) = t.cost d := by
  induction t generalizing d with
  | char b c => simp [skel, WeightTree.leafDepths, weightedDepth, Tree.cost]
  | eos => simp [skel, WeightTree.leafDepths, weightedDepth, Tree.cost]
  | inner c l r hl hr => rw [skel, WeightTree.leafDepths, weightedDepth_append, hl, hr, Tree.cost]

theorem Tree.skel_leaves {t : Tree} (h : t.hasEos = false) (d : Nat) : (t.skel.leafDepths d).map Prod.fst = t.chars.map fun x => x.2.toNat := by
  induction t generalizing d with
  | char b c => rfl
  | eos => cases h
  | inner c l r hl hr =>
    simp only [Tree.hasEos, Bool.or_eq_false_iff] at h
    rw [skel, WeightTree.leafDepths, List.map_append, hl h.1, hr h.2, Tree.chars, List.map_append]

theorem Tree.cost_succ {t : Tree} (h : t.countOk = true) (d : Nat) : t.cost (d + 1) = t.cost d + t.count.toNat := by
  induction t generalizing d with
  | char b c => simp [Tree.cost, Tree.count, Nat.mul_add]
  | eos => simp [Tree.cost, Tree.count]
  | inner c l r hl hr =>
    simp only [Tree.countOk, Bool.and_eq_true, decide_eq_true_eq] at h
    simp only [Tree.cost, hl h.1.2, hr h.2, Tree.count, h.1.1]; omega

end Sys2Proof.Machine
end

