-- ==== Sys2Proof/Laws/PerInstr.lean ====
section
/-! SUPPORT. One law per command of 30_encoding.md R81: its word decodes to the command, is well formed, and is the one word
that does. -/

namespace Sys2Proof.Laws.EncodeDecode

/-- The command's word decodes to it, is well formed, and is the only word that decodes to it (R80, R81). -/
def Statement (i : Instr) : Prop :=
  decode (encode i) = .ok i ∧ (encode i).wellFormed = true ∧ i.wellFormed = true ∧ ∀ w, decode w = .ok i → w = encode i

/-- No two words decode to one command. -/
theorem eq_encode {w : CmdWord} {i : Instr} (h : decode w = .ok i) : w = encode i := by
  unfold decode at h
  split at h <;> cases h
  all_goals (apply BitVec.eq_of_toNat_eq; assumption)

theorem clr : Statement .clr :=
  ⟨rfl, rfl, rfl, fun _ => eq_encode⟩

theorem count : Statement .count :=
  ⟨rfl, rfl, rfl, fun _ => eq_encode⟩

theorem build : Statement .build :=
  ⟨rfl, rfl, rfl, fun _ => eq_encode⟩

theorem ser : Statement .ser :=
  ⟨rfl, rfl, rfl, fun _ => eq_encode⟩

theorem deser : Statement .deser :=
  ⟨rfl, rfl, rfl, fun _ => eq_encode⟩

theorem inj : Statement .inj :=
  ⟨rfl, rfl, rfl, fun _ => eq_encode⟩

theorem lut : Statement .lut :=
  ⟨rfl, rfl, rfl, fun _ => eq_encode⟩

theorem enc : Statement .enc :=
  ⟨rfl, rfl, rfl, fun _ => eq_encode⟩

theorem dec : Statement .dec :=
  ⟨rfl, rfl, rfl, fun _ => eq_encode⟩

end Sys2Proof.Laws.EncodeDecode
end

