-- ==== Sys2Proof/Laws/Queue.lean ====
section
/-! SUPPORT. The priority queue of 41_tree_builder.md R130, and the order of the leaves in the sorted initial collection. -/

namespace Sys2Proof.Machine

/-- `popsBefore` as a proposition. -/
def Queued.Before (a b : Queued) : Prop := a.popsBefore b = true

theorem Queued.before_asymm {a b : Queued} (h : a.Before b) : ¬ b.Before a := by
  obtain ⟨x, i⟩ := a; obtain ⟨y, j⟩ := b
  simp only [Queued.Before, Queued.popsBefore, Bool.or_eq_true, Bool.and_eq_true, decide_eq_true_eq] at h ⊢
  rintro (h2 | ⟨h2, h3⟩)
  · rcases h with h | ⟨h, _⟩
    · omega
    · rw [h] at h2; omega
  · rcases h with h | ⟨_, h⟩
    · rw [h2] at h; omega
    · revert h h3
      cases x <;> cases y <;> simp <;> omega

/-- The first to pop of a collection in a strict order is its head, however the collection is arranged. -/
theorem popFirst_spec {L q : List Queued} (hp : q.Perm L) (hs : L.Pairwise Queued.Before) :
    match L with
    | [] => popFirst q = none
    | x :: L' => ∃ r, popFirst q = some (x, r) ∧ r.Perm L' := by
  induction q generalizing L with
  | nil =>
    have := hp.symm.eq_nil; subst this; rfl
  | cons a qs ih =>
    obtain ⟨L1, L2, rfl⟩ := List.append_of_mem (hp.mem_iff.1 (List.mem_cons_self))
    have hp' : qs.Perm (L1 ++ L2) := (List.perm_cons a).1 (hp.trans List.perm_middle)
    have hs' : (L1 ++ L2).Pairwise Queued.Before := hs.sublist (by simp)
    have := ih hp' hs'
    cases L1 with
    | nil =>
      simp only [List.nil_append] at this ⊢
      cases L2 with
      | nil =>
        simp only at this
        exact ⟨[], by simp [popFirst, this], List.Perm.refl _⟩
      | cons b L2 =>
        obtain ⟨r, h1, h2⟩ := this
        have hab : a.popsBefore b = true := by
          simp only [List.nil_append, List.pairwise_cons] at hs
          exact hs.1 b (by simp)
        exact ⟨b :: r, by simp [popFirst, h1, hab], h2.cons b⟩
    | cons b L1 =>
      simp only [List.cons_append] at this ⊢
      obtain ⟨r, h1, h2⟩ := this
      have hba : b.Before a := by
        simp only [List.cons_append, List.pairwise_cons] at hs
        exact hs.1 a (by simp)
      have hab : a.popsBefore b = false := by
        have := Queued.before_asymm hba
        simpa [Queued.Before] using this
      exact ⟨a :: r, by simp [popFirst, h1, hab], (h2.cons a).trans List.perm_middle.symm⟩

/-- A larger count, or the same count and a smaller byte value. -/
def leafLater (a b : Tree) : Prop := ∃ x c y d, a = .char x c ∧ b = .char y d ∧ (d.toNat < c.toNat ∨ (d = c ∧ x.toNat < y.toNat))

theorem insertDesc_later {t : Tree} {w : List Tree} (hw : w.Pairwise leafLater) {x : Byte} {c : Count} (ht : t = .char x c)
    (h : ∀ u ∈ w, ∃ y d, u = .char y d ∧ x.toNat < y.toNat) : (insertDesc t w).Pairwise leafLater := by
  induction w with
  | nil => simp [insertDesc]
  | cons u us ih =>
    rw [List.pairwise_cons] at hw
    rw [insertDesc]
    obtain ⟨y, d, rfl, hxy⟩ := h u (by simp)
    split
    · rename_i hle
      refine List.pairwise_cons.2 ⟨?_, List.pairwise_cons.2 hw⟩
      intro a ha
      obtain ⟨z, e, rfl, hxz⟩ := h a ha
      have hez : e.toNat ≤ d.toNat := by
        rcases List.mem_cons.1 ha with h1 | h1
        · cases h1; exact Nat.le_refl _
        · obtain ⟨x', c', y', d', h1, h2, h3⟩ := hw.1 _ h1
          cases h1; cases h2
          rcases h3 with h3 | ⟨h3, _⟩
          · omega
          · rw [h3]
      subst ht
      simp only [Tree.count] at hle
      rcases Nat.lt_or_eq_of_le (Nat.le_trans hez hle) with h | h
      · exact ⟨x, c, z, e, rfl, rfl, .inl h⟩
      · exact ⟨x, c, z, e, rfl, rfl, .inr ⟨BitVec.eq_of_toNat_eq h, hxz⟩⟩
    · rename_i hle
      refine List.pairwise_cons.2 ⟨?_, ih hw.2 fun u hu => h u (by simp [hu])⟩
      intro a ha
      rcases List.mem_cons.1 ((insertDesc_perm t us).mem_iff.1 ha) with rfl | ha
      · subst ht
        simp only [Tree.count] at hle
        exact ⟨y, d, x, c, rfl, rfl, .inl (by omega)⟩
      · exact hw.1 a ha

theorem sortDesc_later {w : List Tree} (h : w.Pairwise fun a b => ∃ x c y d, a = .char x c ∧ b = .char y d ∧ x.toNat < y.toNat)
    (hc : ∀ u ∈ w, ∃ y d, u = .char y d) : (sortDesc w).Pairwise leafLater := by
  induction w with
  | nil => exact List.Pairwise.nil
  | cons t ts ih =>
    rw [List.pairwise_cons] at h
    obtain ⟨x, c, ht⟩ := hc t (by simp)
    refine insertDesc_later (ih h.2 fun u hu => hc u (by simp [hu])) ht ?_
    intro u hu
    obtain ⟨x', c', y, d, h1, rfl, h3⟩ := h.1 u ((sortDesc_perm ts).mem_iff.1 hu)
    rw [ht] at h1; cases h1
    exact ⟨y, d, rfl, h3⟩

theorem initialWork_asc (o : Occ) : (initialWork o).Pairwise fun a b => ∃ x c y d, a = .char x c ∧ b = .char y d ∧ x.toNat < y.toNat := by
  have h : allBytes.Pairwise fun a b => a.toNat < b.toNat := by
    simp only [allBytes, List.pairwise_map]
    have := List.pairwise_lt_range (n := 256)
    refine this.imp_of_mem ?_
    intro a b ha hb hab
    rw [List.mem_range] at ha hb
    simpa [Nat.mod_eq_of_lt ha, Nat.mod_eq_of_lt hb] using hab
  refine List.Pairwise.filterMap (leafOf o) ?_ h
  intro a a' haa b hb b' hb'
  simp only [leafOf] at hb hb'
  split at hb
  · cases hb
  · split at hb'
    · cases hb'
    · cases hb; cases hb'
      exact ⟨_, _, _, _, rfl, rfl, haa⟩

end Sys2Proof.Machine
end

