-- ==== Sys2Proof/Laws/Raising.lean ====
section
/-! SUPPORT. Which causes a command's pseudocode can raise (60_exceptions.md R232). -/

namespace Sys2Proof.Machine

/-- A property of the cause a run raises. -/
def Run.Raises (P : Cause → Prop) : Run → Prop
  | .raised c _ => P c
  | _ => True

/-- A property of the cause a pass raises. -/
def Pass.Raises (P : Cause → Prop) : Pass → Prop
  | .out r => r.Raises P
  | .again _ => True

theorem loop_raises {P : Cause → Prop} {pass : State → Pass} {f : Fault} (hp : ∀ s, (pass s).Raises P) (n : Nat) (s : State) :
    (loop pass f n s).Raises P := by
  induction n generalizing s with
  | zero => trivial
  | succ n ih =>
    have := hp s
    rw [loop]
    cases h : pass s with
    | again t => exact ih t
    | out r => rw [h] at this; exact this

theorem Run.Raises.andThen {P : Cause → Prop} {r : Run} {k : State → Run} (h : r.Raises P) (hk : ∀ s, (k s).Raises P) : (r.andThen k).Raises P := by
  cases r with
  | done s => exact hk s
  | raised c s => exact h
  | stuck f => trivial

theorem Run.Raises.toPass {P : Cause → Prop} {r : Run} {k : State → Pass} (h : r.Raises P) (hk : ∀ s, (k s).Raises P) : (r.toPass k).Raises P := by
  cases r with
  | done s => exact hk s
  | raised c s => exact h
  | stuck f => trivial

theorem Run.Raises.imp {P Q : Cause → Prop} {r : Run} (h : r.Raises P) (hpq : ∀ c, P c → Q c) : r.Raises Q := by
  cases r with
  | raised c s => exact hpq c h
  | _ => trivial

theorem send_raises (ch : Channel) (e : Event) (s : State) : (send ch e s).Raises (· = .io ch) := by
  rcases send_cases ch e s with ⟨_, h⟩ | ⟨_, h⟩ <;> rw [h]
  · trivial
  · rfl

theorem bitWriteSeq_raises (p : Bits) (s : State) : (bitWriteSeq p s).Raises (· = .io .bitOut) := by
  rcases bitWriteSeq_cases p s with h | ⟨_, _, h⟩ <;> rw [h]
  · trivial
  · rfl

/-- A property of the cause `parse` raises. -/
def Parsed.Raises (P : Cause → Prop) : Parsed → Prop
  | .raised c _ => P c
  | .tree _ _ _ => True

theorem parse_raises (n ni : Nat) (s : State) : (parse n ni s).Raises fun c => mayRecord 5 c = true := by
  induction n generalizing ni s with
  | zero => rfl
  | succ n ih =>
    rw [parse]
    split
    · rfl
    · split
      · rfl
      · rfl
      · split
        · rfl
        · rfl
        · trivial
      · split
        · rfl
        · rename_i t _ _
          have h1 := ih (ni + 1) t
          cases hp : parse n (ni + 1) t with
          | raised c u => rw [hp] at h1; exact h1
          | tree l nl u =>
            have h2 := ih nl u
            simp only
            cases hp2 : parse n nl u with
            | raised c v => rw [hp2] at h2; exact h2
            | tree r nr v => trivial

/-- Every cause a command raises is in its row of the matrix. -/
theorem runOf_raises (i : Instr) (s : State) : (runOf i s).Raises (fun c => mayRecord (encode i) c = true) := by
  cases i with
  | clr => trivial
  | count =>
    refine loop_raises (fun t => ?_) _ _
    simp only [countPass]
    split
    · rfl
    · trivial
    · trivial
    · split
      · rfl
      · trivial
  | build =>
    simp only [runOf, buildRun]
    split
    · rfl
    · refine loop_raises (fun t => ?_) _ _
      simp only [buildPass]
      split
      · trivial
      · trivial
      · rfl
      · trivial
  | ser =>
    simp only [runOf, serRun]
    split
    · trivial
    · split
      · trivial
      · exact (bitWriteSeq_raises _ _).imp fun c h => by subst h; rfl
  | deser =>
    have := parse_raises s.io.bitIn.length 0 s
    simp only [runOf, deserRun]
    cases hp : parse s.io.bitIn.length 0 s with
    | raised c t => rw [hp] at this; exact this
    | tree t n u => trivial
  | inj =>
    simp only [runOf, injRun]
    split
    · trivial
    · split <;> trivial
  | lut =>
    simp only [runOf, lutRun]
    split <;> trivial
  | enc =>
    refine Run.Raises.andThen (Run.Raises.andThen (Run.Raises.andThen (loop_raises (fun t => ?_) _ _) fun t => ?_) fun t => ?_) fun t => trivial
    · simp only [encPass]
      split
      · rfl
      · trivial
      · trivial
      · split
        · simp [Pass.Raises, Run.Raises, mayRecord, encode, decode, Cause.name]
        · exact ((bitWriteSeq_raises _ _).imp fun c h => by subst h; rfl).toPass fun _ => trivial
    · simp only [encTerminator]
      split
      · trivial
      · exact (bitWriteSeq_raises _ _).imp fun c h => by subst h; rfl
    · exact (send_raises _ _ _).imp fun c h => by subst h; rfl
  | dec =>
    simp only [runOf, decRun]
    split
    · trivial
    · refine Run.Raises.andThen (loop_raises (fun t => ?_) _ _) fun t => trivial
      unfold decPass
      have hs : ∀ b, (byteOut b t).Raises (fun c => mayRecord (encode .dec) c = true) := fun b =>
        (send_raises _ _ _).imp fun c h => by subst h; rfl
      split
      · trivial
      · trivial
      · split
        · exact (hs _).toPass fun _ => rfl
        · exact (hs _).toPass fun _ => trivial
      · split
        · rfl
        · split
          · rfl
          · rfl
          · trivial
          · trivial

theorem mayRecord_seq {i : Instr} (hi : i ≠ .clr) : mayRecord (encode i) .seq = true := by
  cases i <;> first | rfl | exact absurd rfl hi

end Sys2Proof.Machine
end

