-- ==== Sys2Proof/Laws/Sessions.lean ====
section
/-! SUPPORT. What a command can depend on (46_stream_decoder.md R202 rests on it): nothing of the words waiting on CMD, of the
responses and events before, or of the packets on BYTE_IN after those it reads. Each operation, run with these around it, does
what it does without them. -/

namespace Sys2Proof.Machine

/-- What stands around a command and cannot be told by it: words waiting, earlier responses and events, later items. -/
structure Around where
  cmd : List CmdWord
  responses : List Response
  events : List Event
  later : List ByteItem

/-- A state with the words waiting replaced, and with earlier responses and events and later items added. -/
def State.within (s : State) (w : Around) : State :=
  { regs := s.regs
    io := { s.io with
      cmd := w.cmd
      responses := w.responses ++ s.io.responses
      byteIn := s.io.byteIn ++ w.later
      events := w.events ++ s.io.events } }

variable (s : State) (w : Around)

/-! ### Every field and every update -/

@[simp] theorem State.within_regs : (s.within w).regs = s.regs := rfl
@[simp] theorem State.within_io_cmd : (s.within w).io.cmd = w.cmd := rfl
@[simp] theorem State.within_io_responses : (s.within w).io.responses = w.responses ++ s.io.responses := rfl
@[simp] theorem State.within_io_byteIn : (s.within w).io.byteIn = s.io.byteIn ++ w.later := rfl
@[simp] theorem State.within_io_bitIn : (s.within w).io.bitIn = s.io.bitIn := rfl
@[simp] theorem State.within_io_errors : (s.within w).io.errors = s.io.errors := rfl
@[simp] theorem State.within_io_events : (s.within w).io.events = w.events ++ s.io.events := rfl

@[simp] theorem State.within_fails (ch : Channel) : (s.within w).fails ch = s.fails ch := rfl
@[simp] theorem State.within_transfer (ch : Channel) : (s.within w).transfer ch = (s.transfer ch).within w := rfl
@[simp] theorem State.within_setOcc (v : Occ) : (s.within w).setOcc v = (s.setOcc v).within w := rfl
@[simp] theorem State.within_setTree (v : Option Tree) : (s.within w).setTree v = (s.setTree v).within w := rfl
@[simp] theorem State.within_setWork (v : List Tree) : (s.within w).setWork v = (s.setWork v).within w := rfl
@[simp] theorem State.within_setLut (v : Lut) : (s.within w).setLut v = (s.setLut v).within w := rfl
@[simp] theorem State.within_setCur (v : Option Tree) : (s.within w).setCur v = (s.setCur v).within w := rfl
@[simp] theorem State.within_setPhase (v : Phase) : (s.within w).setPhase v = (s.setPhase v).within w := rfl
@[simp] theorem State.within_setBitIn (v : Bits) : (s.within w).setBitIn v = (s.setBitIn v).within w := rfl
@[simp] theorem State.within_setByteIn (v : List ByteItem) :
    (s.within w).setByteIn (v ++ w.later) = (s.setByteIn v).within w := rfl

@[simp] theorem State.within_record (es : List Event) : (s.within w).record es = (s.record es).within w := by
  simp [State.record, State.within]

@[simp] theorem State.within_respond (r : Response) : (s.within w).respond r = (s.respond r).within w := by
  simp [State.respond, State.within]

@[simp] theorem within_faultEntry (op : CmdWord) (c : Cause) : faultEntry op c (s.within w) = (faultEntry op c s).within w := by
  simp [faultEntry, State.setFault, State.setCur, State.setWork, State.respond, State.within]

@[simp] theorem within_refuse (f : FaultRecord) : refuse f (s.within w) = (refuse f s).within w := by
  simp [refuse]

@[simp] theorem within_clearCore : clearCore (s.within w) = (clearCore s).within w := rfl

@[simp] theorem within_discardData : discardData (s.within w) = (discardData s).within w := rfl

@[simp] theorem within_bitAvail : bitAvail (s.within w) = bitAvail s := rfl

/-! ### Operations that read no byte -/

/-- A run with `w` around its states. -/
def Run.within (w : Around) : Run → Run
  | .done s => .done (s.within w)
  | .raised c s => .raised c (s.within w)
  | .stuck f => .stuck f

/-- A pass with `w` around its states. -/
def Pass.within (w : Around) : Pass → Pass
  | .again s => .again (s.within w)
  | .out r => .out (r.within w)

/-- An input with `w` around its states. -/
def Got.within {α : Type} (w : Around) : Got α → Got α
  | .got a s => .got a (s.within w)
  | .short s => .short (s.within w)
  | .failed s => .failed (s.within w)

/-- A parse with `w` around its states. -/
def Parsed.within (w : Around) : Parsed → Parsed
  | .tree t n s => .tree t n (s.within w)
  | .raised c s => .raised c (s.within w)

theorem Run.within_andThen {k k' : State → Run} (r : Run) (h : ∀ s, k' (s.within w) = (k s).within w) :
    (r.within w).andThen k' = (r.andThen k).within w := by
  cases r with
  | done s => exact h s
  | raised c s => rfl
  | stuck f => rfl

theorem Run.within_toPass {k k' : State → Pass} (r : Run) (h : ∀ s, k' (s.within w) = (k s).within w) :
    (r.within w).toPass k' = (r.toPass k).within w := by
  cases r with
  | done s => exact h s
  | raised c s => rfl
  | stuck f => rfl

theorem within_send (ch : Channel) (e : Event) : send ch e (s.within w) = (send ch e s).within w := by
  simp only [send, State.within_fails, State.within_transfer, State.within_record]
  cases s.fails ch <;> rfl

theorem within_bitWriteSeq (p : Bits) : bitWriteSeq p (s.within w) = (bitWriteSeq p s).within w := by
  induction p generalizing s with
  | nil => rfl
  | cons b bs ih =>
    simp only [bitWriteSeq, bitWrite, within_send]
    exact Run.within_andThen w _ ih

theorem within_bitRead : bitRead (s.within w) = (bitRead s).within w := by
  simp only [bitRead, State.within_fails, State.within_transfer, State.within_io_bitIn]
  by_cases h : s.fails .bitIn
  · simp only [h, if_true]; rfl
  · simp only [h]
    cases s.io.bitIn <;> simp [Got.within]

theorem within_bitReadN (n : Nat) : bitReadN n (s.within w) = (bitReadN n s).within w := by
  simp only [bitReadN, State.within_fails, State.within_transfer, State.within_io_bitIn, State.within_record, State.within_setBitIn]
  split
  · rfl
  · split <;> rfl

theorem loop_within {pass : State → Pass} {f : Fault} (h : ∀ s, pass (s.within w) = (pass s).within w) (n : Nat) :
    loop pass f n (s.within w) = (loop pass f n s).within w := by
  induction n generalizing s with
  | zero => rfl
  | succ n ih =>
    simp only [loop, h]
    cases pass s with
    | again t => exact ih t
    | out r => rfl

theorem within_buildPass : buildPass (s.within w) = (buildPass s).within w := by
  simp only [buildPass, State.within_regs]
  cases mergePass Config.reinsert Config.pair s.regs.work <;> rfl

theorem within_buildRun : buildRun (s.within w) = (buildRun s).within w := by
  simp only [buildRun, State.within_regs, State.within_setWork]
  by_cases h : (s.setWork (initialWork s.regs.occ)).regs.work = []
  · simp only [h, if_true]; rfl
  · simp only [h, if_false]
    exact loop_within _ w (within_buildPass · w) _

theorem within_serRun : serRun (s.within w) = (serRun s).within w := by
  simp only [serRun, State.within_regs]
  split
  · rfl
  · split
    · rfl
    · exact within_bitWriteSeq _ _ _

theorem within_parse (n ni : Nat) : parse n ni (s.within w) = (parse n ni s).within w := by
  induction n generalizing s ni with
  | zero => rfl
  | succ n ih =>
    simp only [parse, within_bitAvail, within_bitRead]
    split
    · rfl
    · rcases bitRead s with ⟨_ | _, t⟩ | t | t <;> simp only [Got.within]
      · split
        · rfl
        · rw [ih]
          cases parse n (ni + 1) t with
          | raised c u => rfl
          | tree l nl u =>
            simp only [Parsed.within]
            rw [ih]
            cases parse n nl u <;> rfl
      · rw [within_bitReadN]
        cases bitReadN 8 t <;> rfl
      · rfl
      · rfl

theorem within_deserRun : deserRun (s.within w) = (deserRun s).within w := by
  simp only [deserRun, State.within_io_bitIn, within_parse]
  cases parse s.io.bitIn.length 0 s <;> rfl

theorem within_injRun : injRun (s.within w) = (injRun s).within w := by
  simp only [injRun, State.within_regs]
  split
  · rfl
  · split <;> rfl

theorem within_lutRun : lutRun (s.within w) = (lutRun s).within w := by
  simp only [lutRun, State.within_regs]
  split <;> rfl

theorem within_decPass (root : Tree) : decPass root (s.within w) = (decPass root s).within w := by
  simp only [decPass, State.within_regs, within_bitAvail, byteOut, within_send, within_bitRead]
  split
  · rfl
  · rfl
  · split
    · exact Run.within_toPass w _ fun _ => rfl
    · exact Run.within_toPass w _ fun _ => rfl
  · split
    · rfl
    · rcases bitRead s with ⟨_ | _, t⟩ | t | t <;> rfl

theorem within_decRun : decRun (s.within w) = (decRun s).within w := by
  simp only [decRun, State.within_regs, State.within_setCur]
  split
  · rfl
  · rw [show decBound (s.within w) = decBound s from rfl, loop_within _ w (within_decPass · w _)]
    exact Run.within_andThen w _ fun _ => rfl

theorem within_encTerminator : encTerminator (s.within w) = (encTerminator s).within w := by
  simp only [encTerminator, State.within_regs]
  split
  · rfl
  · exact within_bitWriteSeq _ _ _

/-! ### Operations that read bytes

Where the packet has no `End` they have no transition, and items added after it may let them go on; in every other case `w`
changes nothing. -/

/-- A run that has no transition and items after it. -/
def Run.Starved (w : Around) (r : Run) : Prop := w.later ≠ [] ∧ ∃ f, r = .stuck f

/-- A pass that has no transition and items after it. -/
def Pass.Starved (w : Around) (p : Pass) : Prop := w.later ≠ [] ∧ ∃ f, p = .out (.stuck f)

/-- `ByteIn()` reads the same item, except at the end of all items. -/
theorem within_byteIn : byteIn (s.within w) = (byteIn s).within w ∨ (w.later ≠ [] ∧ ∃ t, byteIn s = .short t) := by
  simp only [byteIn, State.within_fails, State.within_transfer, State.within_io_byteIn]
  by_cases h : s.fails .byteIn
  · left; simp only [h, if_true]; rfl
  · simp only [h]
    cases hb : s.io.byteIn with
    | nil =>
      cases hw : w.later with
      | nil => left; rfl
      | cons x l => right; exact ⟨by simp, _, rfl⟩
    | cons x rest =>
      left
      cases x <;> simp [Got.within]

theorem within_countPass : countPass (s.within w) = (countPass s).within w ∨ (countPass s).Starved w := by
  rcases within_byteIn s w with h | ⟨h, t, ht⟩
  · left
    simp only [countPass, h]
    rcases byteIn s with ⟨_ | _, t⟩ | t | t <;> simp only [Got.within]
    · rename_i v
      by_cases hv : occGet t.regs.occ v = Count.max
      · rw [if_pos hv]; exact if_pos hv
      · rw [if_neg hv]; exact if_neg hv
    · rfl
    · rfl
    · rfl
  · right; exact ⟨h, .byteInStarved, by simp [countPass, ht]⟩

theorem within_encPass : encPass (s.within w) = (encPass s).within w ∨ (encPass s).Starved w := by
  rcases within_byteIn s w with h | ⟨h, t, ht⟩
  · left
    simp only [encPass, h]
    rcases byteIn s with ⟨_ | _, t⟩ | t | t <;> simp only [Got.within]
    · simp only [State.within_regs]
      split
      · rfl
      · rw [within_bitWriteSeq]
        exact Run.within_toPass w _ fun _ => rfl
    · rfl
    · rfl
    · rfl
  · right; exact ⟨h, .byteInStarved, by simp [encPass, ht]⟩

/-- The loop of COUNT and of ENC, which the items on BYTE_IN bound. -/
theorem loop_within_starved {pass : State → Pass} {f : Fault}
    (h : ∀ s, pass (s.within w) = (pass s).within w ∨ (pass s).Starved w) (n : Nat) :
    loop pass f (n + w.later.length) (s.within w) = (loop pass f n s).within w ∨ (loop pass f n s).Starved w := by
  induction n generalizing s with
  | zero =>
    cases hw : w.later with
    | nil => left; rfl
    | cons x l => right; exact ⟨by simp [hw], f, rfl⟩
  | succ n ih =>
    rw [Nat.add_right_comm]
    simp only [loop]
    rcases h s with h | ⟨h, g, hg⟩
    · rw [h]
      cases pass s with
      | again t => exact ih t
      | out r => left; rfl
    · right; rw [hg]; exact ⟨h, g, rfl⟩

theorem within_countRun : countRun (s.within w) = (countRun s).within w ∨ (countRun s).Starved w := by
  have := loop_within_starved s w (f := .byteInStarved) (within_countPass · w) (s.io.byteIn.length + 1)
  rwa [show s.io.byteIn.length + 1 + w.later.length = (s.within w).io.byteIn.length + 1 by simp; omega] at this

theorem within_encRun : encRun (s.within w) = (encRun s).within w ∨ (encRun s).Starved w := by
  have := loop_within_starved s w (f := .byteInStarved) (within_encPass · w) (s.io.byteIn.length + 1)
  rw [show s.io.byteIn.length + 1 + w.later.length = (s.within w).io.byteIn.length + 1 by simp; omega] at this
  rcases this with h | ⟨h, g, hg⟩
  · left
    simp only [encRun, h]
    rw [Run.within_andThen w _ (within_encTerminator · w), Run.within_andThen (k := bitFlush) (k' := bitFlush) w _ (within_send · w _ _)]
    exact Run.within_andThen w _ fun _ => rfl
  · right; exact ⟨h, g, by simp [encRun, hg]⟩

theorem within_runOf (i : Instr) : runOf i (s.within w) = (runOf i s).within w ∨ (runOf i s).Starved w := by
  cases i with
  | clr => left; rfl
  | count => exact within_countRun s w
  | build => left; exact within_buildRun s w
  | ser => left; exact within_serRun s w
  | deser => left; exact within_deserRun s w
  | inj => left; exact within_injRun s w
  | lut => left; exact within_lutRun s w
  | enc => exact within_encRun s w
  | dec => left; exact within_decRun s w

/-! ### Commands -/

/-- An outcome with `w` around its state. -/
def outcomeWithin (w : Around) : Host.Outcome State Fault Refusal → Host.Outcome State Fault Refusal
  | .next s => .next (s.within w)
  | .fault f => .fault f
  | .refused r => .refused r

theorem within_complete (i : Instr) (r : Run) : complete i (r.within w) = outcomeWithin w (complete i r) := by
  cases r <;> simp [Run.within, outcomeWithin]

/-- A command with `w` around it does what it does without, except where it has no transition and items were added. -/
theorem within_exec (i : Instr) :
    exec i (s.within w) = outcomeWithin w (exec i s) ∨ (w.later ≠ [] ∧ ∃ f, exec i s = .fault f) := by
  by_cases hi : i = .clr
  · subst hi; left; simp [exec_clr, outcomeWithin]
  · rw [exec_eq i hi, exec_eq i hi]
    simp only [ifAdmitted, State.within_regs]
    cases s.regs.fault with
    | some f => left; simp [outcomeWithin]
    | none =>
      by_cases ha : admits i s.regs.phase
      · simp only [if_pos ha]
        rcases within_runOf s w i with h | ⟨h, f, hf⟩
        · left; rw [h, within_complete]; exact if_pos ha
        · right; exact ⟨h, f, by simp [hf]⟩
      · left; simp [if_neg ha, outcomeWithin]

/-- The same of commands run one after another. -/
theorem within_runCmds (cmds : List Instr) :
    runCmds cmds (s.within w) = outcomeWithin w (runCmds cmds s) ∨ (w.later ≠ [] ∧ ∃ f, runCmds cmds s = .fault f) := by
  induction cmds generalizing s with
  | nil => left; rfl
  | cons i is ih =>
    simp only [runCmds]
    rcases within_exec s w i with h | ⟨h, f, hf⟩
    · rw [h]
      cases exec i s with
      | next t => exact ih t
      | fault f => left; rfl
      | refused r => left; rfl
    · right; exact ⟨h, f, by simp [hf]⟩

end Sys2Proof.Machine
end

