-- ==== Sys2Proof/Tests/Slice0.lean ====
section
/-! SUPPORT. The model's own tests. Every expected value is one of spec/: the table of 30_encoding.md R81, or a vector of
95_test_vectors.md, named in the test's comment. After them, for every statement with hypotheses, a state and operands that
meet all of them together. -/

namespace Sys2Proof.Tests

open Sys2Proof.Machine

/-! ### Helpers -/

/-- The bits of a literal, first in stream order leftmost. -/
def bitsOf {n : Nat} (w : BitVec n) : Bits :=
  (List.range n).map fun i => w.getMsbD i

/-- The next state, where there is one. -/
def next? : Host.Outcome State Fault Refusal → Option State
  | .next s => some s
  | .fault _ => none
  | .refused _ => none

/-- The state in a phase with a tree, nothing on the channels. -/
def inPhase (p : Phase) (t : Option Tree) : State :=
  (State.reset.setPhase p).setTree t

/-- The state in `P_TABLED` on a tree. -/
def tabled (t : Tree) : State :=
  (inPhase .tabled (some t)).setLut (lutOf t)

/-- The bytes 41, 42, 43: A, B, C. -/
def aaaaabbbcc : List Byte :=
  [0x41, 0x41, 0x41, 0x41, 0x41, 0x42, 0x42, 0x42, 0x43, 0x43]

/-- V1 after BUILD. -/
def v1 : Tree :=
  .inner 10 (.char 0x41 5) (.inner 5 (.char 0x43 2) (.char 0x42 3))

/-- V1 after INJ. -/
def v1Injected : Tree :=
  .inner 10 (.char 0x41 5) (.inner 5 (.char 0x43 2) (.inner 3 (.char 0x42 3) .eos))

/-- The header of V1. -/
def v1Header : Bits := bitsOf 0b01010000010101000011101000010#29

/-- The oracle on which the transfer after `n` on one channel is the first to fail. -/
def failing (ch : Channel) (n : Nat) : IoErrors :=
  let l := List.replicate n false ++ [true]
  match ch with
  | .byteIn => { IoErrors.none with byteIn := l }
  | .byteOut => { IoErrors.none with byteOut := l }
  | .bitIn => { IoErrors.none with bitIn := l }
  | .bitOut => { IoErrors.none with bitOut := l }

/-! ### Well-formedness and decoding -/

/-- R83: each reserved word is ill formed. -/
theorem test_reserved_words_are_ill_formed :
    [0x0#4, 0xA#4, 0xB#4, 0xC#4, 0xD#4, 0xE#4, 0xF#4].all (fun w => !CmdWord.wellFormed w && (decodeTableWord 8 w.toNat).isNone) =
      true := by decide

/-- R81, every row, bit by bit. -/
theorem test_decode_table :
    [0b0001, 0b0010, 0b0011, 0b0100, 0b0101, 0b0110, 0b0111, 0b1000, 0b1001].map (decodeTableWord 8) =
      [some .clr, some .count, some .build, some .ser, some .deser, some .inj, some .lut, some .enc, some .dec] := by decide

/-- P1, P2: the two scripts encode to `1 2 3 4 6 7 8` and `1 5 6 9`. -/
theorem test_encode_sessions :
    encodeSession.map encode = [1, 2, 3, 4, 6, 7, 8] ∧ decodeSession.map encode = [1, 5, 6, 9] := by decide

/-- Admission vectors: word 0xF at reset gives STATUS 0x00007868. -/
theorem test_reserved_fifteen :
    (next? (step (putCommand 0xF State.reset))).map State.status = some 0x00007868#32 := by decide +kernel

/-- Admission vectors: word 0x0 at reset gives STATUS 0x00000068. -/
theorem test_reserved_zero :
    (next? (step (State.reset.withFetchWord 8 0))).map State.status = some 0x00000068#32 := by decide +kernel

/-! ### CLR -/

/-- Family CLR: from a faulted DEC (STATUS 0x00004B2B) to STATUS 0. -/
theorem test_clr_after_fault :
    let s := (inPhase .injected (some v1Injected)).setFault (some { cause := .prematureEos .payload, op := 9 })
    s.status = 0x00004B2B#32 ∧ (next? (step (s.withFetchWord 8 1))).map (fun t => (t.status, t.regs.tree)) =
      some (0#32, none) := by decide +kernel

/-- Family CLR: from `P_TABLED` with the table of V1 everything is cleared. -/
theorem test_clr_clears_lut :
    (next? (exec .clr (tabled v1Injected))).map (fun t => ([Sym.byte 0x41, .eos].map (lutGet t.regs.lut), t.regs.phase)) =
      some ([none, none], .idle) := by decide +kernel

/-! ### COUNT -/

/-- Family COUNT: the packet of V1. -/
theorem test_count_v1 :
    (next? (exec .count (hostSupplyPacket aaaaabbbcc State.reset))).map (fun t =>
      (occGet t.regs.occ 0x41, occGet t.regs.occ 0x42, occGet t.regs.occ 0x43, occGet t.regs.occ 0x44, t.status)) =
      some (5, 3, 2, 0, 0x00000001#32) := by decide +kernel

/-- Family COUNT: transfer 4 of BYTE_IN reports an error. -/
theorem test_count_io :
    (next? (exec .count ((hostSupplyPacket aaaaabbbcc State.reset).setErrors (failing .byteIn 3)))).map (fun t =>
      (occGet t.regs.occ 0x41, t.status)) = some (3, 0x00001118#32) := by decide +kernel

/-! ### BUILD -/

/-- V6, "abcdeeee": an Inner node of count 4 stands ahead of the leaf `e:4`. -/
theorem test_build_v6 :
    let o := occSet (occSet (occSet (occSet (occSet Occ.zero 0x61 1) 0x62 1) 0x63 1) 0x64 1) 0x65 4
    (next? (exec .build ((inPhase .counted none).setOcc o))).map (fun t => t.regs.tree) =
      some (some (.inner 8 (.char 0x65 4) (.inner 4 (.inner 2 (.char 0x64 1) (.char 0x63 1))
        (.inner 2 (.char 0x62 1) (.char 0x61 1))))) := by decide +kernel

/-- BUILD faults: two counts of 2^63. -/
theorem test_build_overflow :
    let o := occSet (occSet Occ.zero 0 (1 <<< 63)) 1 (1 <<< 63)
    (next? (exec .build ((inPhase .counted none).setOcc o))).map (fun t => (t.regs.tree, t.status)) =
      some (none, 0x00001A89#32) := by decide +kernel

/-! ### SER -/

/-- V1: the 29 bits of the header. -/
theorem test_ser_v1 :
    (next? (exec .ser (inPhase .tree (some v1)))).map State.bitOut = some (v1Header.map .bit) := by decide +kernel

/-- Family SER: a failing BIT_OUT transfer. -/
theorem test_ser_io :
    (next? (exec .ser ((inPhase .tree (some v1)).setErrors (failing .bitOut 2)))).map (fun t => (t.bitOut, t.status)) =
      some ([.bit false, .bit true], 0x0000241A#32) := by decide +kernel

/-! ### DESER -/

/-- Family DESER: the header of V1, its payload left unread. -/
theorem test_deser_v1 :
    (next? (exec .deser (hostPresentBits (v1Header ++ bitsOf 0b000001101101101010111#21) State.reset))).map (fun t =>
      (t.regs.tree, t.io.bitIn)) =
      some (some (.inner 0 (.char 0x41 0) (.inner 0 (.char 0x43 0) (.char 0x42 0))), bitsOf 0b000001101101101010111#21) := by
  decide +kernel

/-- Family DESER: 4 of 8 bits are left after the flag. -/
theorem test_deser_cut_byte :
    (next? (exec .deser (hostPresentBits (bitsOf 0b010100000110100#15) State.reset))).map (fun t =>
      (t.regs.tree, t.status)) = some (none, 0x00002A28#32) := by decide +kernel

/-! ### INJ -/

/-- Family INJ: left (1 < 2), left (0 < 1), right (tie). -/
theorem test_inj_left_left_right :
    let t : Tree := .inner 0 (.inner 0 (.inner 0 (.char 0x61 0) (.char 0x62 0)) (.char 0x63 0))
      (.inner 0 (.char 0x64 0) (.char 0x65 0))
    (next? (exec .inj (inPhase .tree (some t)))).map (fun u => u.regs.tree) =
      some (some (.inner 0 (.inner 0 (.inner 0 (.char 0x61 0) (.inner 0 (.char 0x62 0) .eos)) (.char 0x63 0))
        (.inner 0 (.char 0x64 0) (.char 0x65 0)))) := by decide +kernel

/-- Family INJ: a second injection. -/
theorem test_inj_twice :
    (next? (exec .inj (inPhase .injected (some v1Injected)))).map State.status = some 0x0000305B#32 := by decide +kernel

/-! ### LUT -/

/-- Family LUT: the codes of V1. -/
theorem test_lut_v1 :
    (next? (exec .lut (inPhase .injected (some v1Injected)))).map (fun t =>
      [Sym.byte 0x41, .byte 0x43, .byte 0x42, .eos, .byte 0x44].map (lutGet t.regs.lut)) =
      some [some (bitsOf 0b0#1), some (bitsOf 0b10#2), some (bitsOf 0b110#3), some (bitsOf 0b111#3), none] := by
  decide +kernel

/-- Family LUT: a byte value named twice keeps the rightmost leaf's code. -/
theorem test_lut_twice :
    (next? (exec .lut (inPhase .injected (some (.inner 0 (.char 0x61 0) (.inner 0 (.char 0x61 0) .eos)))))).map (fun t =>
      lutGet t.regs.lut (.byte 0x61)) = some (some (bitsOf 0b10#2)) := by decide +kernel

/-! ### ENC -/

/-- V1: payload, terminator, one flush. -/
theorem test_enc_v1 :
    (next? (exec .enc (hostSupplyPacket aaaaabbbcc (tabled v1Injected)))).map (fun t => (t.bitOut, t.status)) =
      some ((bitsOf 0b000001101101101010111#21).map .bit ++ [.flush], 0x00000005#32) := by decide +kernel

/-- P6: the table of "AAB" and the packet "ABC". -/
theorem test_enc_miss :
    (next? (exec .enc (hostSupplyPacket [0x41, 0x42, 0x43]
      (tabled (.inner 3 (.char 0x42 1) (.inner 2 (.char 0x41 2) .eos)))))).map (fun t => (t.bitOut, t.status)) =
      some ((bitsOf 0b100#3).map .bit, 0x0021C04C#32) := by decide +kernel

/-! ### DEC -/

/-- Family DEC: `1 00 010 011` on a tree that is deeper on the left. -/
theorem test_dec_left_deep :
    (next? (exec .dec (hostPresentBits (bitsOf 0b100010011#9) (inPhase .injected
      (some (.inner 0 (.inner 0 (.char 0x61 0) (.inner 0 (.char 0x62 0) .eos)) (.char 0x63 0))))))).map (fun t =>
      (t.byteOut, t.status)) = some ([0x63, 0x61, 0x62], 0x00000005#32) := by decide +kernel

/-- Family DEC: `0110` emits A, then B by salvage, and faults; where the salvage transfer reports an error only A is emitted. -/
theorem test_dec_salvage :
    (let s := hostPresentBits (bitsOf 0b0110#4) (inPhase .injected (some v1Injected))
     [s, s.setErrors { IoErrors.none with byteOut := [false, true] }].map fun s =>
       (next? (exec .dec s)).map fun t => (t.byteOut, t.status)) =
      [some ([0x41, 0x42], 0x00004B2B#32), some ([0x41], 0x00004A1B#32)] := by decide +kernel

/-! ### Every statement's hypotheses can be met

One theorem per statement with hypotheses, named after it. Clauses over one input have a witness each, at the ends of their
range. -/

theorem of_next {o : Host.Outcome State Fault Refusal} {p : State → Bool} (h : (next? o).any p = true) :
    ∃ t, o = .next t ∧ p t = true := by
  cases o with
  | next s => exact ⟨s, rfl, h⟩
  | fault f => cases h
  | refused r => cases h

theorem quiet_none (ch : Channel) (n : Nat) : IoErrors.none.quiet ch n := by
  cases ch <;> simp [IoErrors.quiet, IoErrors.none, IoErrors.on]

theorem allQuiet_none : IoErrors.none.allQuiet := by
  intro ch
  cases ch <;> simp [IoErrors.none, IoErrors.on]

theorem failing_failsAt (ch : Channel) (n : Nat) : (failing ch n).failsAt ch n := by
  cases ch <;> simp [failing, IoErrors.failsAt, IoErrors.quiet, IoErrors.on]

theorem failing_quiet {ch ch' : Channel} (h : ch' ≠ ch) (n m : Nat) : (failing ch n).quiet ch' m := by
  cases ch <;> cases ch' <;> simp_all [failing, IoErrors.quiet, IoErrors.on, IoErrors.none]

theorem fails_at (s : State) (ch : Channel) (n : Nat) : (s.setErrors (failing ch n)).io.errors.failsAt ch n :=
  failing_failsAt ch n

theorem fails_quiet (s : State) {ch ch' : Channel} (h : ch' ≠ ch) (n m : Nat) :
    (s.setErrors (failing ch n)).io.errors.quiet ch' m := failing_quiet h n m

/-- A faulted state: STATUS 0x00001839 of the vectors. -/
def faulted : State :=
  (inPhase .counted none).setFault (some { cause := .empty, op := 3 })

theorem faulted_ne : faulted ≠ State.reset := by
  intro h
  have : Phase.counted = .idle := congrArg (fun s : State => s.regs.phase) h
  cases this

/-- OCC with one slot set. -/
def occOne (b : Byte) (n : Nat) : Occ := occSet Occ.zero b (BitVec.ofNat 64 n)

theorem witness_StepRunsDecodedCommand :
    (State.reset.setCmd [0b0101#4, 0b1111#4]).io.cmd = [0b0101#4, 0b1111#4] ∧ decode 0b0101#4 = .ok .deser ∧
      Instr.deser.wellFormed = true ∧ 4 ≤ (4 : Nat) ∧ State.reset.io.cmd = [] := ⟨rfl, rfl, rfl, le_rfl, rfl⟩

theorem witness_ReservedWordRaisesIllCmd :
    ∀ w ∈ [0#4, 10#4, 15#4], (State.reset.setCmd [w]).io.cmd = w :: [] ∧ (w.toNat = 0 ∨ 10 ≤ w.toNat) ∧
      (State.reset.setCmd [w]).regs.fault = none := by
  intro w hw
  exact ⟨rfl, by revert w; decide, rfl⟩

theorem witness_ResetAndClrLeaveEverythingEmpty :
    Regs.reset = State.reset.regs ∧ (∃ s, s ≠ State.reset ∧ (hostReset s).regs = Regs.reset) ∧
      (∃ s t, s.regs.fault ≠ none ∧ exec .clr s = .next t ∧ t.regs = Regs.reset) :=
  ⟨rfl, ⟨faulted, faulted_ne, rfl⟩, ⟨faulted, _, by decide, rfl, rfl⟩⟩

theorem witness_ClrStartsASession : (faulted.setCmd [0b0001#4]).io.cmd = 0b0001#4 :: [] := rfl

theorem witness_StatusFields :
    State.reset.regs.fault = none ∧ faulted.regs.fault = some { cause := .empty, op := 3 } ∧
      CauseName.empty ≠ .lutMiss ∧ (∃ (s : State) (f : FaultRecord), s.regs.fault = some f ∧ f.cause = .lutMiss 0xFF) :=
  ⟨rfl, rfl, by decide, faulted.setFault (some { cause := .lutMiss 0xFF, op := 8 }), _, rfl, rfl⟩

theorem witness_StatusCodes :
    ∀ c ∈ [Cause.empty, .lutMiss 0, .lutMiss 0xFF, .seq, .illCmd, .capacity],
      c.name ≠ .io ∧ c.name ≠ .prematureEos ∧ c.name ≠ .ovf := by decide

theorem witness_FaultedStateRefuses :
    faulted.regs.fault = some { cause := .empty, op := 3 } ∧ Instr.ser ≠ .clr ∧
      ∀ w ∈ [0#4, 2#4, 15#4], (faulted.setCmd [w]).io.cmd = w :: [] ∧ w ≠ encode .clr := by
  refine ⟨rfl, by decide, fun w hw => ⟨rfl, ?_⟩⟩
  revert w; decide

theorem witness_CommandOutOfPhaseRaisesSeq :
    ∀ x ∈ [(Instr.build, Phase.idle), (.count, .counted), (.ser, .injected), (.deser, .tree), (.inj, .injected),
        (.lut, .tabled), (.enc, .injected), (.dec, .tree), (.dec, .done)],
      (inPhase x.2 none).regs.fault = none ∧ x.1 ≠ .clr ∧
      (x.1, (inPhase x.2 none).regs.phase) ∉ [(Instr.count, Phase.idle), (.build, .counted), (.ser, .tree),
        (.deser, .idle), (.inj, .tree), (.lut, .injected), (.enc, .tabled), (.dec, .injected), (.dec, .tabled)] := by
  intro x hx
  refine ⟨rfl, ?_⟩
  simp only [inPhase, State.setTree_phase, State.setPhase_phase]
  revert x; decide

theorem witness_PhaseAfterEachCommand :
    (∃ t, exec .inj (inPhase .tree (some v1)) = .next t ∧ t.io.responses = [Response.ok]) ∧
      ∃ t, exec .build State.reset = .next t ∧ t.io.responses = [Response.fault .seq] :=
  ⟨⟨_, rfl, rfl⟩, ⟨_, rfl, rfl⟩⟩

theorem witness_FaultEntryOfEveryCommand :
    (∃ t, exec .build State.reset = .next t ∧ State.reset.regs.fault = none ∧
      t.regs.fault = some { cause := .seq, op := 3 }) ∧
    ∃ t, exec .count ((hostSupplyPacket [] State.reset).setErrors (failing .byteIn 0)) = .next t ∧
      t.regs.fault = some { cause := .io .byteIn, op := 2 } :=
  ⟨⟨_, rfl, rfl, rfl⟩, ⟨_, rfl, rfl⟩⟩

theorem witness_EventsStandAndInputsAreTakenInOrder :
    ∃ t, exec .count (hostSupplyPacket [] State.reset) = .next t := ⟨_, rfl⟩

/-- The three clauses of CountCountsOnePacket: a count that ends at 2^64 - 1, an error on the first and on a later transfer,
and the increment past 2^64 - 1 at once and after a byte. -/
theorem witness_CountCountsOnePacket :
    (let s := hostSupplyPacket [0x41] (State.reset.setOcc (occOne 0x41 (2 ^ 64 - 2)))
     s.regs.fault = none ∧ s.regs.phase = .idle ∧ s.io.byteIn = packetItems [0x41] ++ [] ∧
       s.io.errors.quiet .byteIn 2 ∧ ∀ b, (occGet s.regs.occ b).toNat + [0x41#8].count b < 2 ^ 64) ∧
    (∀ bs ∈ [[], [0x41#8]], let s := (hostSupplyPacket bs State.reset).setErrors (failing .byteIn bs.length)
     s.regs.fault = none ∧ s.regs.phase = .idle ∧ s.io.byteIn = bs.map .byte ++ [.packetEnd] ∧
       s.io.errors.failsAt .byteIn bs.length ∧ ∀ b, (occGet s.regs.occ b).toNat + bs.count b < 2 ^ 64) ∧
    (let s := hostSupplyPacket [0x41] (State.reset.setOcc (occOne 0x41 (2 ^ 64 - 1)))
     s.regs.fault = none ∧ s.regs.phase = .idle ∧ s.io.byteIn = ([] ++ [0x41#8]).map .byte ++ [.packetEnd] ∧
       s.io.errors.quiet .byteIn 1 ∧ (∀ b, (occGet s.regs.occ b).toNat + ([] : List Byte).count b < 2 ^ 64) ∧
       (occGet s.regs.occ 0x41).toNat + ([] : List Byte).count 0x41 = 2 ^ 64 - 1) ∧
    (let s := hostSupplyPacket [0x41, 0x41] (State.reset.setOcc (occOne 0x41 (2 ^ 64 - 2)))
     s.regs.fault = none ∧ s.regs.phase = .idle ∧ s.io.byteIn = ([0x41#8] ++ [0x41#8]).map .byte ++ [.packetEnd] ∧
       s.io.errors.quiet .byteIn 2 ∧ (∀ b, (occGet s.regs.occ b).toNat + [0x41#8].count b < 2 ^ 64) ∧
       (occGet s.regs.occ 0x41).toNat + [0x41#8].count 0x41 = 2 ^ 64 - 1) := by
  refine ⟨⟨rfl, rfl, rfl, quiet_none _ _, ?_⟩, ?_, ⟨rfl, rfl, rfl, quiet_none _ _, fun b => ?_, ?_⟩,
    ⟨rfl, rfl, rfl, quiet_none _ _, ?_, ?_⟩⟩
  · show ∀ b : Byte, (occGet (occOne 0x41 (2 ^ 64 - 2)) b).toNat + _ < _
    decide +kernel
  · intro bs hbs
    refine ⟨rfl, rfl, ?_, fails_at _ _ _, fun b => ?_⟩
    · simp [hostSupplyPacket, packetItems, State.reset, Io.empty]
    · have := List.count_le_length (a := b) (l := bs)
      have hl : bs.length ≤ 1 := by clear this; revert bs; decide
      simp [hostSupplyPacket, State.reset, Regs.reset]
      omega
  · show (occGet (occOne 0x41 (2 ^ 64 - 1)) b).toNat + 0 < _
    exact (occGet (occOne 0x41 (2 ^ 64 - 1)) b).isLt
  · decide +kernel
  · show ∀ b : Byte, (occGet (occOne 0x41 (2 ^ 64 - 2)) b).toNat + _ < _
    decide +kernel
  · decide +kernel

theorem witness_CountNeedsThePacketsEnd :
    let s := State.reset.setByteIn [.byte 0x41]
    s.regs.fault = none ∧ s.regs.phase = .idle ∧ s.io.byteIn = [0x41#8].map .byte ∧ s.io.errors.quiet .byteIn 2 ∧
      ∀ b, (occGet s.regs.occ b).toNat + [0x41#8].count b < 2 ^ 64 := by
  refine ⟨rfl, rfl, rfl, quiet_none _ _, fun b => ?_⟩
  have := List.count_le_length (a := b) (l := [0x41#8])
  simp only [State.setByteIn_regs, State.reset, Regs.reset, occGet_zero]
  simp at this ⊢
  omega

theorem witness_CountFrame :
    ∃ t, exec .count (hostSupplyPacket [] State.reset) = .next t ∧ t.regs.fault = State.reset.regs.fault := ⟨_, rfl, rfl⟩

/-- Sums of 2^64 - 1 and of 2^64. -/
theorem witness_MergePassTakesTheTwoAtTheTail :
    let x : Tree := .char 1 (1 <<< 63)
    let y : Tree := .char 0 (1 <<< 63)
    let z : Tree := .char 2 ((1 <<< 63) - 1)
    [x] = [x] ∧ (sortDesc [y, z] = [] ++ [y, z] ∧ z.count.toNat + y.count.toNat = 2 ^ 64 - 1) ∧
      (sortDesc [y, x] = [] ++ [y, x] ∧ x.count.toNat + y.count.toNat = 2 ^ 64) := by decide +kernel

theorem witness_MergedNodeStandsAheadOfItsPeers :
    [Tree.char 1 3, .char 2 2, .char 3 2].Pairwise (fun a b => b.count.toNat ≤ a.count.toNat) := by decide

/-- One byte value, and two. -/
theorem witness_BuildMakesTheGreedyTree :
    (let s := (inPhase .counted none).setOcc (occOne 0x41 1000)
     s.regs.fault = none ∧ s.regs.phase = .counted ∧ (∃ b, occGet s.regs.occ b ≠ 0) ∧
       (allBytes.map fun b => (occGet s.regs.occ b).toNat).sum < 2 ^ 64 ∧
       ∀ c, occGet s.regs.occ c ≠ 0 → c = 0x41) ∧
    (let s := (inPhase .counted none).setOcc (occSet (occOne 0 (2 ^ 63)) 255 ((1 <<< 63) - 1))
     s.regs.fault = none ∧ s.regs.phase = .counted ∧ (∃ b, occGet s.regs.occ b ≠ 0) ∧
       (allBytes.map fun b => (occGet s.regs.occ b).toNat).sum = 2 ^ 64 - 1) := by
  refine ⟨⟨rfl, rfl, ⟨0x41, by decide +kernel⟩, ?_, ?_⟩, ⟨rfl, rfl, ⟨0, by decide +kernel⟩, ?_⟩⟩
  · decide +kernel
  · intro c hc
    by_contra h
    exact hc ((occGet_occSet_ne _ _ h).trans (occGet_zero c))
  · decide +kernel

theorem witness_PriorityQueueGivesTheSameTree :
    ∃ (o : Occ) (q : List Queued), q ≠ [] ∧ q.Perm ((initialWork o).map fun t => { node := t, created := 0 }) :=
  ⟨occOne 0x41 1, _, by decide +kernel, List.Perm.refl _⟩

theorem witness_BuildMinimisesTheCodedLength :
    ∃ (o : Occ) (t u : Tree), builtTree o = .root t ∧ u.hasEos = false ∧ u.chars.Perm t.chars ∧ u ≠ t :=
  ⟨occSet (occOne 0x41 1) 0x42 1, .inner 2 (.char 0x42 1) (.char 0x41 1), .inner 0 (.char 0x41 1) (.char 0x42 1),
    by decide +kernel, rfl, by decide, by decide⟩

theorem witness_BuildOnEmptyInputFaults :
    (inPhase .counted none).regs.fault = none ∧ (inPhase .counted none).regs.phase = .counted ∧
      ∀ b, occGet (inPhase .counted none).regs.occ b = 0 := ⟨rfl, rfl, occGet_zero⟩

/-- The smallest sum that does not fit. -/
theorem witness_BuildOverflowFaults :
    let s := (inPhase .counted none).setOcc (occSet (occOne 0 (2 ^ 63)) 255 (1 <<< 63))
    s.regs.fault = none ∧ s.regs.phase = .counted ∧ 2 ^ 64 ≤ (allBytes.map fun b => (occGet s.regs.occ b).toNat).sum :=
  ⟨rfl, rfl, by decide +kernel⟩

theorem witness_BuildInjLutFrames :
    (∃ t, exec .build ((inPhase .counted none).setOcc (occOne 0x41 1)) = .next t ∧ (t.regs.fault == none) = true) ∧
    (∃ t, exec .build (inPhase .counted none) = .next t ∧ (t.regs.fault != none) = true) ∧
    (∃ t, exec .inj (inPhase .tree (some v1)) = .next t ∧ t.regs.fault = none) ∧
    ∃ t, exec .lut (inPhase .injected (some v1Injected)) = .next t ∧ t.regs.fault = none :=
  ⟨of_next (by decide +kernel), of_next (by decide +kernel), ⟨_, rfl, rfl⟩, ⟨_, rfl, rfl⟩⟩

theorem witness_HeaderFormat :
    v1.hasEos = false ∧ v1.zero.hasEos = false ∧ v1 ≠ v1.zero ∧ v1.ser <+: v1.zero.ser := by decide

/-- A whole header, and an error on its first and on its last bit. -/
theorem witness_SerWritesTheHeader :
    (inPhase .tree (some v1)).regs.fault = none ∧ (inPhase .tree (some v1)).regs.phase = .tree ∧
      (inPhase .tree (some v1)).regs.tree = some v1 ∧ v1.hasEos = false ∧
      (inPhase .tree (some v1)).io.errors.quiet .bitOut v1.ser.length ∧
      ∀ k ∈ [0, 28], k < v1.ser.length ∧ ((inPhase .tree (some v1)).setErrors (failing .bitOut k)).io.errors.failsAt .bitOut k :=
  ⟨rfl, rfl, rfl, rfl, quiet_none _ _, fun k hk => ⟨by revert k; decide, fails_at _ _ _⟩⟩

theorem witness_SerFrame :
    ∃ t, exec .ser (inPhase .tree (some v1)) = .next t ∧ t.regs.fault = (inPhase .tree (some v1)).regs.fault := ⟨_, rfl, rfl⟩

/-- A comb of `n + 1` leaves. -/
def comb (n : Nat) : Tree := n.repeat (fun t => .inner 0 (.char 0x61 0) t) (.char 0x61 0)

/-- A header of 256 leaves, the most, and an accepted one. -/
theorem witness_DeserInvertsSer :
    (let s := hostPresentBits ((comb 255).ser ++ [true]) State.reset
     s.regs.fault = none ∧ s.regs.phase = .idle ∧ (comb 255).hasEos = false ∧ (comb 255).leaves = 256 ∧
       s.io.bitIn = (comb 255).ser ++ [true] ∧ s.io.errors.quiet .bitIn ((comb 255).inners + 2 * (comb 255).leaves)) ∧
    ∃ t, exec .deser (hostPresentBits (bitsOf 0b101000001#9) State.reset) = .next t ∧ t.io.responses = [Response.ok] :=
  ⟨⟨rfl, rfl, by decide +kernel, by decide +kernel, rfl, quiet_none _ _⟩, ⟨_, rfl, rfl⟩⟩

/-- V1-T: the cuts at which a flag is due are 0, 1, 10, 11 and 20, and the flags that are 1 stand at 1, 11 and 20. -/
theorem test_flags_v1 : v1.flags 0 = [(0, false), (1, true), (10, false), (11, true), (20, true)] := by decide

/-- Cuts of V1-T: every cut with a flag due, and the first and the last inside each byte. -/
theorem witness_DeserOnACutHeaderFaults :
    (∀ n ∈ [0, 1, 2, 9, 10, 11, 12, 19, 20, 21, 28], let s := hostPresentBits (v1Header.take n) State.reset
      s.regs.fault = none ∧ s.regs.phase = .idle ∧ v1.hasEos = false ∧ v1.leaves ≤ 256 ∧ s.io.bitIn <+: v1.ser ∧
      s.io.bitIn ≠ v1.ser ∧ s.io.errors.allQuiet) ∧
    (∀ n ∈ [0, 1, 10, 11, 20], (v1Header.take n).length ∈ (v1.flags 0).map Prod.fst) ∧
    ∀ n ∈ [2, 9, 12, 19, 21, 28], (v1Header.take n).length ∉ (v1.flags 0).map Prod.fst := by
  refine ⟨fun n hn => ⟨rfl, rfl, rfl, by decide, ?_, ?_, allQuiet_none⟩, by decide, by decide⟩
  · show v1Header.take n <+: v1.ser
    revert n; decide +kernel
  · show v1Header.take n ≠ v1.ser
    revert n; decide +kernel

/-- 257 leaves in the shape of the vector whose 256th Inner flag is the 2551st bit; the bits end on it or go on. -/
theorem witness_DeserRefusesOversizedHeaders :
    ((comb 256).hasEos = false ∧ (comb 256).leaves = 257 ∧ ((comb 256).innerFlags 0)[255]? = some 2550) ∧
    ∀ rest ∈ [[], [true]], let s := hostPresentBits ((comb 256).ser.take 2551 ++ rest) State.reset
      s.regs.fault = none ∧ s.regs.phase = .idle ∧ s.io.bitIn = (comb 256).ser.take (2550 + 1) ++ rest ∧
      s.io.errors.allQuiet :=
  ⟨⟨by decide +kernel, by decide +kernel, by decide +kernel⟩, fun _ _ => ⟨rfl, rfl, rfl, allQuiet_none⟩⟩

/-- The first transfer and the last; each byte value is one transfer. -/
theorem witness_DeserReportsIoErrors :
    ∀ k ∈ [0, 7], let s := (hostPresentBits (v1Header ++ [true]) State.reset).setErrors (failing .bitIn k)
      s.regs.fault = none ∧ s.regs.phase = .idle ∧ v1.hasEos = false ∧ v1.leaves ≤ 256 ∧
      s.io.bitIn = v1.ser ++ [true] ∧ k < v1.readWidths.length ∧ s.io.errors.failsAt .bitIn k := by
  intro k hk
  refine ⟨rfl, rfl, rfl, by decide, ?_, ?_, fails_at _ _ _⟩
  · show v1Header ++ [true] = v1.ser ++ [true]
    decide +kernel
  · revert k; decide

theorem witness_DeserFrame :
    (∃ t, exec .deser (hostPresentBits (bitsOf 0b101000001#9) State.reset) = .next t ∧ t.regs.fault = none) ∧
    ∃ t, exec .deser State.reset = .next t ∧ t.regs.fault ≠ none :=
  ⟨⟨_, rfl, rfl⟩, ⟨_, rfl, by decide⟩⟩

theorem witness_InjStoresTheInjectedTree :
    (inPhase .tree (some v1)).regs.fault = none ∧ (inPhase .tree (some v1)).regs.phase = .tree ∧
      (inPhase .tree (some v1)).regs.tree = some v1 ∧ v1.hasEos = false := ⟨rfl, rfl, rfl, rfl⟩

theorem witness_InjectionSplitsTheDeepestLeaf : v1.hasEos = false ∧ v1.countOk = true := by decide

theorem witness_InjectionIsTheSameOnBothSides : v1.hasEos = false ∧ v1.zero ≠ v1 := by decide

theorem witness_LutRecordsTheCodes :
    (inPhase .injected (some v1Injected)).regs.fault = none ∧ (inPhase .injected (some v1Injected)).regs.phase = .injected ∧
      (inPhase .injected (some v1Injected)).regs.tree = some v1Injected := ⟨rfl, rfl, rfl⟩

theorem witness_TableCodesArePrefixFree :
    v1.hasEos = false ∧ Sym.byte 0x41 ≠ .byte 0x43 ∧ lutGet (lutOf v1.inject) (.byte 0x41) = some [false] ∧
      lutGet (lutOf v1.inject) (.byte 0x43) = some [true, false] := by decide +kernel

/-- A packet of bytes, and the empty packet. -/
theorem witness_EncWritesPayloadTerminatorFlush :
    ∀ x ∈ [([], []), ([0x41#8, 0x43#8], [false, true, false])], let s := hostSupplyPacket x.1 (tabled v1Injected)
      s.regs.fault = none ∧ s.regs.phase = .tabled ∧ s.io.byteIn = packetItems x.1 ++ [] ∧
      payload s.regs.lut x.1 = some x.2 ∧ lutGet s.regs.lut .eos = some [true, true, true] ∧
      s.io.errors.quiet .byteIn (x.1.length + 1) ∧ s.io.errors.quiet .bitOut (x.2.length + 3 + 1) := by
  intro x hx
  refine ⟨rfl, rfl, (List.append_nil _).symm, ?_, ?_, quiet_none _ _, quiet_none _ _⟩
  · show payload (lutOf v1Injected) x.1 = some x.2
    revert x; decide +kernel
  · show lutGet (lutOf v1Injected) .eos = _
    decide +kernel

/-- The missing byte first, and after a byte. -/
theorem witness_EncMissingCodeFaults :
    ∀ x ∈ [([], []), ([0x41#8], [false])], let s := hostSupplyPacket (x.1 ++ [0x44]) (tabled v1Injected)
      s.regs.fault = none ∧ s.regs.phase = .tabled ∧ s.io.byteIn = (x.1 ++ [0x44]).map .byte ++ [.packetEnd] ∧
      payload s.regs.lut x.1 = some x.2 ∧ lutGet s.regs.lut (.byte 0x44) = none ∧
      s.io.errors.quiet .byteIn (x.1.length + 1) ∧ s.io.errors.quiet .bitOut x.2.length := by
  intro x hx
  refine ⟨rfl, rfl, rfl, ?_, ?_, quiet_none _ _, quiet_none _ _⟩
  · show payload (lutOf v1Injected) x.1 = some x.2
    revert x; decide +kernel
  · show lutGet (lutOf v1Injected) (.byte 0x44) = none
    decide +kernel

/-- BYTE_IN: the first transfer and a later one; BIT_OUT: the first bit, the terminator, the flush. -/
theorem witness_EncReportsIoErrors :
    payload (tabled v1Injected).regs.lut [0x41] = some [false] ∧
      lutGet (tabled v1Injected).regs.lut .eos = some [true, true, true] ∧
    (∀ bs ∈ [[], [0x41#8]], let s := (hostSupplyPacket bs (tabled v1Injected)).setErrors (failing .byteIn bs.length)
      s.regs.fault = none ∧ s.regs.phase = .tabled ∧ s.io.byteIn = bs.map .byte ++ [.packetEnd] ∧
      s.io.errors.failsAt .byteIn bs.length ∧ s.io.errors.quiet .bitOut bs.length) ∧
    ∀ k ∈ [0, 1, 4], let s := (hostSupplyPacket [0x41] (tabled v1Injected)).setErrors (failing .bitOut k)
      s.regs.fault = none ∧ s.regs.phase = .tabled ∧ s.io.byteIn = packetItems [0x41] ++ [] ∧
      s.io.errors.quiet .byteIn 2 ∧ k < 1 + 3 + 1 ∧ s.io.errors.failsAt .bitOut k := by
  refine ⟨?_, ?_, fun bs _ => ⟨rfl, rfl, rfl, fails_at _ _ _, fails_quiet _ (by decide) _ _⟩, fun k hk =>
    ⟨rfl, rfl, rfl, fails_quiet _ (by decide) _ _, by revert k; decide, fails_at _ _ _⟩⟩
  · show payload (lutOf v1Injected) _ = _
    decide +kernel
  · show lutGet (lutOf v1Injected) .eos = _
    decide +kernel

theorem witness_EncNeedsThePacketsEnd :
    let s := (tabled v1Injected).setByteIn [.byte 0x41]
    s.regs.fault = none ∧ s.regs.phase = .tabled ∧ s.io.byteIn = [0x41#8].map .byte ∧
      payload s.regs.lut [0x41] = some [false] ∧ s.io.errors.quiet .byteIn 2 ∧ s.io.errors.quiet .bitOut 1 := by
  refine ⟨rfl, rfl, rfl, ?_, quiet_none _ _, quiet_none _ _⟩
  show payload (lutOf v1Injected) _ = _
  decide +kernel

theorem witness_EncFrame :
    (∃ t, exec .enc (hostSupplyPacket [] (tabled v1Injected)) = .next t ∧ (t.regs.fault == none) = true) ∧
    ∃ t, exec .enc State.reset = .next t ∧ t.regs.fault ≠ none := ⟨of_next (by decide +kernel), ⟨_, rfl, by decide⟩⟩

theorem witness_DecSalvagesOnlyOnALeaf :
    (∀ c ∈ [Tree.char 0x41 5, v1Injected, .eos], ((inPhase .injected (some v1Injected)).setCur (some c)).io.bitIn = [] ∧
      ((inPhase .injected (some v1Injected)).setCur (some c)).regs.cur = some c) ∧
    (inPhase .injected (some v1Injected)).io.errors.quiet .byteOut 1 ∧
    ((inPhase .injected (some v1Injected)).setErrors (failing .byteOut 0)).io.errors.failsAt .byteOut 0 :=
  ⟨fun _ _ => ⟨rfl, rfl⟩, quiet_none _ _, fails_at _ _ _⟩

/-- The codes of C and A, then the terminator, then a pad bit; in both phases. -/
theorem witness_DecEmitsTheBytesOfTheCodes :
    ∀ p ∈ [Phase.injected, .tabled],
      let s := hostPresentBits (bitsOf 0b1001111#7) (inPhase p (some v1Injected))
      let cs : List (Byte × Bits) := [(0x43, [true, false]), (0x41, [false])]
      s.regs.fault = none ∧ (s.regs.phase = .injected ∨ s.regs.phase = .tabled) ∧ s.regs.tree = some v1Injected ∧
      v1Injected.isInner = true ∧ (∀ x ∈ cs, (Sym.byte x.1, x.2) ∈ v1Injected.codes) ∧
      (Sym.eos, [true, true, true]) ∈ v1Injected.codes ∧
      s.io.bitIn = cs.flatMap Prod.snd ++ [true, true, true] ++ [true] ∧
      s.io.errors.quiet .bitIn (cs.flatMap Prod.snd ++ [true, true, true]).length ∧
      s.io.errors.quiet .byteOut cs.length := by
  intro p hp
  refine ⟨rfl, ?_, rfl, rfl, by decide, by decide, ?_, quiet_none _ _, quiet_none _ _⟩
  · show p = _ ∨ p = _
    revert p; decide
  · show bitsOf 0b1001111#7 = _
    decide

/-- With nothing of a code left (on a leaf, and at the root), and inside a code. -/
theorem witness_DecOnACutPayloadFaults :
    ∀ x ∈ [([], []), ([(0x41#8, [false])], []), ([(0x41#8, [false])], [true, true])],
      let s := hostPresentBits (x.1.flatMap Prod.snd ++ x.2) (inPhase .injected (some v1Injected))
      s.regs.fault = none ∧ (s.regs.phase = .injected ∨ s.regs.phase = .tabled) ∧ s.regs.tree = some v1Injected ∧
      v1Injected.isInner = true ∧ (∀ y ∈ x.1, (Sym.byte y.1, y.2) ∈ v1Injected.codes) ∧
      (∃ y ∈ v1Injected.codes, x.2 <+: y.2 ∧ x.2 ≠ y.2) ∧ s.io.bitIn = x.1.flatMap Prod.snd ++ x.2 ∧
      s.io.errors.quiet .bitIn (x.1.flatMap Prod.snd ++ x.2).length ∧ s.io.errors.quiet .byteOut x.1.length := by
  intro x hx
  refine ⟨rfl, .inl rfl, rfl, rfl, ?_, ?_, rfl, quiet_none _ _, quiet_none _ _⟩
  · revert x; decide
  · revert x; decide

theorem witness_EveryPacketHasAReading : v1Injected.isInner = true := rfl

theorem witness_DecAlwaysEnds :
    let s := inPhase .tabled (some v1Injected)
    s.regs.fault = none ∧ (s.regs.phase = .injected ∨ s.regs.phase = .tabled) ∧ s.regs.tree = some v1Injected ∧
      v1Injected.isInner = true := ⟨rfl, .inr rfl, rfl, rfl⟩

/-- BYTE_OUT: the first and the last byte; BIT_IN: the first bit and the terminator's last. -/
theorem witness_DecReportsIoErrors :
    let cs : List (Byte × Bits) := [(0x43, [true, false]), (0x41, [false])]
    let s := hostPresentBits (cs.flatMap Prod.snd ++ [true, true, true] ++ []) (inPhase .injected (some v1Injected))
    (s.regs.fault = none ∧ (s.regs.phase = .injected ∨ s.regs.phase = .tabled) ∧ s.regs.tree = some v1Injected ∧
      v1Injected.isInner = true ∧ (∀ x ∈ cs, (Sym.byte x.1, x.2) ∈ v1Injected.codes) ∧
      (∃ x ∈ v1Injected.codes, [true, true, true] <+: x.2) ∧
      s.io.bitIn = cs.flatMap Prod.snd ++ [true, true, true] ++ []) ∧
    (∀ k ∈ [0, 1], k < cs.length ∧
      (s.setErrors (failing .byteOut k)).io.errors.quiet .bitIn (cs.flatMap Prod.snd).length ∧
      (s.setErrors (failing .byteOut k)).io.errors.failsAt .byteOut k) ∧
    ∀ k ∈ [0, 5], k < (cs.flatMap Prod.snd ++ [true, true, true]).length ∧
      (s.setErrors (failing .bitIn k)).io.errors.quiet .byteOut cs.length ∧
      (s.setErrors (failing .bitIn k)).io.errors.failsAt .bitIn k := by
  refine ⟨⟨rfl, .inl rfl, rfl, rfl, by decide, by decide, rfl⟩,
    fun k hk => ⟨by revert k; decide, fails_quiet _ (by decide) _ _, fails_at _ _ _⟩,
    fun k hk => ⟨by revert k; decide, fails_quiet _ (by decide) _ _, fails_at _ _ _⟩⟩

/-- The packet ends on a code, so that the failing BYTE_OUT transfer is the salvage; and the packet ends inside a code. -/
theorem witness_DecReportsIoErrors_cut :
    ∀ x ∈ [(0, ([] : Bits)), (1, [true, true])],
      let cs : List (Byte × Bits) := [(0x43, [true, false])]
      let s := hostPresentBits (cs.flatMap Prod.snd ++ x.2 ++ []) (inPhase .injected (some v1Injected))
      s.regs.fault = none ∧ s.regs.tree = some v1Injected ∧ (∀ y ∈ cs, (Sym.byte y.1, y.2) ∈ v1Injected.codes) ∧
      (∃ y ∈ v1Injected.codes, x.2 <+: y.2) ∧ s.io.bitIn = cs.flatMap Prod.snd ++ x.2 ++ [] ∧ 0 < cs.length ∧
      (s.setErrors (failing .byteOut 0)).io.errors.quiet .bitIn (cs.flatMap Prod.snd).length ∧
      (s.setErrors (failing .byteOut 0)).io.errors.failsAt .byteOut 0 := by
  intro x hx
  refine ⟨rfl, rfl, by decide, ?_, rfl, by decide, fails_quiet _ (by decide) _ _, fails_at _ _ _⟩
  revert x; decide

theorem witness_DecFrame :
    (∃ t, exec .dec (hostPresentBits [true] (inPhase .injected (some (.inner 0 (.char 0x41 0) .eos)))) = .next t ∧
      t.regs.fault = none) ∧
    ∃ t, exec .dec (inPhase .injected (some v1Injected)) = .next t ∧ t.regs.fault ≠ none :=
  ⟨⟨_, rfl, rfl⟩, ⟨_, rfl, by decide⟩⟩

/-- A state of the phase table in the middle of a session. -/
theorem inv_tree : ((inPhase .tree (some v1)).setCmd [0b0110#4]).Inv :=
  ⟨rfl, rfl, ⟨⟨v1, rfl, by decide⟩, rfl⟩, fun _ h => nomatch h⟩

theorem witness_StepKeepsThePhaseTable :
    ((inPhase .tree (some v1)).setCmd [0b0110#4]).Inv ∧
      ∃ t, step ((inPhase .tree (some v1)).setCmd [0b0110#4]) = .next t := ⟨inv_tree, _, rfl⟩

theorem witness_EveryCommandIsAnswered :
    ((inPhase .tree (some v1)).setCmd [0b0110#4]).Inv ∧ step (State.reset.setCmd [0b0010#4]) = .fault .byteInStarved :=
  ⟨inv_tree, rfl⟩

/-- Equal packets and failing transfers, and everything else different; a session that ends, with a packet left over. -/
theorem witness_SessionsDoNotInteract :
    (let s := hostSupplyPacket aaaaabbbcc ((faulted.setCmd [0b0110#4]).respond (.fault .empty))
     let t := hostSupplyPacket aaaaabbbcc (State.reset.record [.inEnd])
     s.io.byteIn = t.io.byteIn ∧ s.io.bitIn = t.io.bitIn ∧ s.io.errors = t.io.errors ∧ s.regs ≠ t.regs ∧
       s.io.cmd ≠ t.io.cmd ∧ s.io.responses ≠ t.io.responses ∧ s.io.events ≠ t.io.events) ∧
    ∃ u, runCmds [.clr, .count] (hostSupplyPacket [] (hostSupplyPacket [] faulted)) = .next u ∧
      u.io.byteIn = packetItems [] := by
  refine ⟨⟨rfl, rfl, rfl, ?_, by decide, by decide, by decide⟩, ⟨_, rfl, rfl⟩⟩
  intro h
  exact absurd (congrArg Regs.fault h) (by decide)

/-- The packet of V1, supplied twice. -/
def v1Twice : State := hostSupplyPacket aaaaabbbcc (hostSupplyPacket aaaaabbbcc State.reset)

theorem witness_EncodeSessionWritesTheStream :
    aaaaabbbcc ≠ [] ∧ aaaaabbbcc.length < 2 ^ 64 ∧ v1Twice.io.errors.allQuiet ∧
      v1Twice.io.byteIn = packetItems aaaaabbbcc ++ (packetItems aaaaabbbcc ++ []) :=
  ⟨by decide, by decide, allQuiet_none, by decide⟩

/-- Any stream, with any pad after it, can be presented. -/
theorem witness_RoundTrip (stream pad : Bits) :
    (aaaaabbbcc ≠ [] ∧ aaaaabbbcc.length < 2 ^ 64 ∧ v1Twice.io.errors.allQuiet ∧
      v1Twice.io.byteIn = packetItems aaaaabbbcc ++ (packetItems aaaaabbbcc ++ [])) ∧
    (hostPresentBits (stream ++ pad) State.reset).io.errors.allQuiet ∧
      (hostPresentBits (stream ++ pad) State.reset).io.bitIn = stream ++ pad :=
  ⟨witness_EncodeSessionWritesTheStream, allQuiet_none, rfl⟩

/-- Any cut of a stream can be presented. In the 50 bits of V1 the cuts 0 and 28 are in the header, 29 and 49 after it. -/
theorem witness_TruncatedStreamsAreReported (stream : Bits) (k : Nat) :
    (aaaaabbbcc ≠ [] ∧ aaaaabbbcc.length < 2 ^ 64 ∧ v1Twice.io.errors.allQuiet ∧
      v1Twice.io.byteIn = packetItems aaaaabbbcc ++ (packetItems aaaaabbbcc ++ [])) ∧
    ((hostPresentBits (stream.take k) State.reset).io.errors.allQuiet ∧
      (hostPresentBits (stream.take k) State.reset).io.bitIn = stream.take k) ∧
    (v1Header ++ bitsOf 0b000001101101101010111#21).length = 50 ∧ v1.ser.length = 29 :=
  ⟨witness_EncodeSessionWritesTheStream, ⟨allQuiet_none, rfl⟩, by decide, by decide⟩

theorem witness_EmptySequenceFaults :
    State.reset.io.errors.allQuiet ∧ (hostSupplyPacket [] State.reset).io.byteIn = packetItems [] ++ [] ∧
      State.reset.io.bitIn = [] := ⟨allQuiet_none, rfl, rfl⟩

/-- One byte, and the most bytes. -/
theorem witness_OneByteValueStream :
    ∀ n ∈ [1, 2 ^ 64 - 1], let s := hostSupplyPacket (List.replicate n 0x41) (hostSupplyPacket (List.replicate n 0x41) State.reset)
      1 ≤ n ∧ n < 2 ^ 64 ∧ s.io.errors.allQuiet ∧
      s.io.byteIn = packetItems (List.replicate n 0x41) ++ (packetItems (List.replicate n 0x41) ++ []) := by
  intro n hn
  refine ⟨by revert n; decide, by revert n; decide, allQuiet_none, ?_⟩
  simp [hostSupplyPacket, State.reset, Io.empty]

end Sys2Proof.Tests
end

/-! PROOFS. Scope (00_scope.md): what every command leaves of the channels. -/

namespace Sys2Proof.Machine

/-- Settles O13. CLR, the faulted state's refusal and `E_SEQ` move nothing but the response. A command that runs its
pseudocode ends with the channels as `runOf_kept` says, and its completion or fault entry adds the response alone. -/
theorem eventsStandAndInputsAreTakenInOrder : Obligations.EventsStandAndInputsAreTakenInOrder := by
  intro i s t h
  rcases exec_cases h with ⟨_, rfl⟩ | ⟨_, f, _, rfl⟩ | ⟨_, _, _, rfl⟩ | ⟨hi, _, _, hrun⟩
  · simp
  · simp
  · simp
  · have hkept := runOf_kept hi s
    rcases hrun with ⟨u, hu, rfl⟩ | ⟨c, u, hu, rfl⟩
    all_goals
      rw [hu] at hkept
      obtain ⟨hevents, hbyteIn, hbitIn, hcmd, -⟩ := hkept
      exact ⟨hevents, hbyteIn, hbitIn, hcmd⟩

end Sys2Proof.Machine

/-! PROOFS. State (10_state.md): the reset values, the fields of STATUS, and the phase table as an invariant of every step. -/

namespace Sys2Proof.Machine

/-! ### Reset and STATUS -/

/-- Settles O51. The reset values of R31 are the row of `P_IDLE`, with no fault recorded. -/
theorem resetMeetsThePhaseTable : Obligations.ResetMeetsThePhaseTable :=
  ⟨rfl, rfl, ⟨fun _ => rfl, rfl, rfl⟩, fun _ h => nomatch h⟩

/-- The registers after CLR are the reset values (40_session_and_count.md R111). -/
theorem regs_of_exec_clr {s t : State} (h : exec .clr s = .next t) : t.regs = Regs.reset := by
  rw [exec_clr] at h
  cases h
  rfl

theorem status_reset (io : Io) : State.status { regs := Regs.reset, io := io } = 0#32 := by
  simp [State.status, faultFields, Regs.reset, Phase.code]

/-- Settles O5. Each of the three ways leaves the registers of R31, which are then read off one by one. -/
theorem resetAndClrLeaveEverythingEmpty : Obligations.ResetAndClrLeaveEverythingEmpty := by
  intro r hr
  have hreset : r = Regs.reset := by
    rcases hr with rfl | ⟨s, rfl⟩ | ⟨s, t, hclr, rfl⟩
    · rfl
    · rfl
    · exact regs_of_exec_clr hclr
  subst hreset
  exact ⟨occGet_zero, rfl, rfl, lutGet_empty, rfl, rfl, rfl, status_reset⟩

/-- The bits of STATUS above PHASE are those of the fault fields. -/
theorem State.extractLsb'_status (s : State) {start : Nat} (h : 3 ≤ start) (len : Nat) :
    s.status.extractLsb' start len = (faultFields s.regs.fault).extractLsb' (start - 3) len :=
  BitVec.extractLsb'_append_eq_of_le h

theorem Cause.val_of_name_ne_lutMiss {c : Cause} (h : c.name ≠ .lutMiss) : c.val = 0 := by
  cases c
  case lutMiss v => exact absurd rfl h
  all_goals rfl

/-- Where each field of a recorded fault stands (R27), counted from bit 3 of STATUS. -/
theorem faultFields_some (f : FaultRecord) :
    (faultFields (some f)).extractLsb' 0 1 = 1#1 ∧ (faultFields (some f)).extractLsb' 1 4 = f.cause.code ∧
    (faultFields (some f)).extractLsb' 5 3 = f.cause.info ∧ (faultFields (some f)).extractLsb' 8 4 = f.op ∧
    (faultFields (some f)).extractLsb' 12 9 = f.cause.val ∧ (faultFields (some f)).extractLsb' 21 8 = 0#8 := by
  have hwidths (start len : Nat) : (faultFields (some f)).extractLsb' start len =
      BitVec.extractLsb' (n := 8 + 9 + 4 + 3 + 4 + 1) start len
        (0#8 ++ f.cause.val ++ f.op ++ f.cause.info ++ f.cause.code ++ 1#1) := rfl
  simp only [hwidths, BitVec.extractLsb'_append_eq_of_le, BitVec.extractLsb'_append_eq_right,
    BitVec.extractLsb'_eq_self, Nat.reduceLeDiff, Nat.reduceSub, and_self]

/-- Settles O7. PHASE is the low end of the concatenation; every other field is read off the fault fields above it. -/
theorem statusFields : Obligations.StatusFields := by
  intro s
  refine ⟨BitVec.extractLsb'_append_eq_right, ?_, fun hf => ?_, fun f hf => ?_⟩
  · rw [s.extractLsb'_status (by decide)]
    cases s.regs.fault with
    | none => rfl
    | some f =>
      obtain ⟨-, -, -, -, -, hreserved⟩ := faultFields_some f
      exact hreserved
  · rw [s.extractLsb'_status (by decide), hf]
    rfl
  · obtain ⟨hfault, hcause, hinfo, hop, hval, -⟩ := faultFields_some f
    have hfield {start : Nat} (h : 3 ≤ start) (len : Nat) :
        s.status.extractLsb' start len = (faultFields (some f)).extractLsb' (start - 3) len := by
      rw [s.extractLsb'_status h, hf]
    refine ⟨(hfield (by decide) 1).trans hfault, (hfield (by decide) 4).trans hcause,
      (hfield (by decide) 3).trans hinfo, (hfield (by decide) 4).trans hop, fun v hv => ?_, fun hname => ?_⟩
    · rw [hfield (by decide), hval, hv]
      rfl
    · rw [hfield (by decide), hval, Cause.val_of_name_ne_lutMiss hname]
      rfl

/-! ### What one step can do -/

/-- All a step with a next state can do: wait, run the command its word selects, or answer a reserved word. -/
theorem step_cases {s t : State} (h : step s = .next t) :
    t = s ∨ ∃ w rest, (∃ i, decode w = .ok i ∧ exec i (s.setCmd rest) = .next t) ∨
      (∃ e, decode w = .error e ∧ execReserved w (s.setCmd rest) = .next t) := by
  rw [step, takeCommand] at h
  cases hcmd : s.io.cmd with
  | nil =>
    rw [hcmd] at h
    cases h
    exact .inl rfl
  | cons w rest =>
    rw [hcmd] at h
    refine .inr ⟨w, rest, ?_⟩
    cases hw : decode w with
    | ok i =>
      simp only [hw] at h
      exact .inl ⟨i, rfl, h⟩
    | error e =>
      simp only [hw] at h
      exact .inr ⟨e, rfl, h⟩

/-- All a reserved word can do (60_exceptions.md R226, R229). -/
theorem execReserved_cases {w : CmdWord} {s t : State} (h : execReserved w s = .next t) :
    (∃ f, s.regs.fault = some f ∧ t = refuse f s) ∨ (s.regs.fault = none ∧ t = faultEntry w .illCmd s) := by
  rw [execReserved] at h
  cases hf : s.regs.fault with
  | some f =>
    rw [hf] at h
    cases h
    exact .inl ⟨f, rfl, rfl⟩
  | none =>
    rw [hf] at h
    cases h
    exact .inr ⟨rfl, rfl⟩

theorem mayRecord_illCmd {w : CmdWord} {e : DecodeReject} (h : decode w = .error e) : mayRecord w .illCmd = true := by
  simp [mayRecord, h]

/-! ### The registers each command leaves when it completes -/

theorem Run.Ends.of_done {D R : State → Prop} {r : Run} {u : State} (h : r.Ends D R) (hr : r = .done u) : D u := by
  subst hr
  exact h

theorem countRun_done {s u : State} (h : countRun s = .done u) : ∃ o, u.regs = { s.regs with occ := o } :=
  ((countRun_frame s).ends.of_done h).2

theorem serRun_done {s u : State} (h : serRun s = .done u) : u.regs = s.regs :=
  ((serRun_frame s).ends.of_done h).2

theorem encRun_done {s u : State} (h : encRun s = .done u) :
    u.regs = { s.regs with occ := Occ.zero, tree := none, lut := Lut.empty } :=
  ((encRun_ends s).of_done h).2

theorem decRun_done {s u : State} (h : decRun s = .done u) :
    u.regs = { s.regs with occ := Occ.zero, tree := none, lut := Lut.empty, cur := none } :=
  ((decRun_ends s).of_done h).2

/-- A tree made of a table of counts is one of `P_TREE` (R26): its leaves are those of the initial collection. -/
theorem builtOk_of_builtTree {o : Occ} {t : Tree} (h : builtTree o = .root t) : t.builtOk = true := by
  by_cases hw : initialWork o = []
  · simp [builtTree, hw, greedy] at h
  rcases greedy_spec _ (initialWork o) (Nat.le_refl _) hw with ⟨u, hu, -, -, hleaves, hEos, hcount⟩ | ⟨hover, -⟩
  · obtain rfl : u = t := by
      rw [builtTree, hu] at h
      cases h
      rfl
    have hchar : ∀ v ∈ initialWork o, v.hasEos = false ∧ v.countOk = true := by
      intro v hv
      obtain ⟨b, -, rfl⟩ := mem_initialWork hv
      exact ⟨rfl, rfl⟩
    have hcap : u.leaves ≤ Config.leafCap := by
      rw [hleaves, leaves_initialWork]
      exact length_initialWork o
    simp [Tree.builtOk, hEos fun v hv => (hchar v hv).1, hcount fun v hv => (hchar v hv).2, hcap]
  · rw [builtTree, hover] at h
    cases h

theorem initialWork_eq_nil {o : Occ} (h : ∀ b, occGet o b = 0) : initialWork o = [] :=
  List.filterMap_eq_nil_iff.2 fun b _ => leafOf_zero (h b)

theorem buildRun_done {s u : State} (h : buildRun s = .done u) :
    ∃ t, t.builtOk = true ∧ u.regs = { s.regs with tree := some t, work := [] } := by
  by_cases hocc : ∃ b, occGet s.regs.occ b ≠ 0
  · rw [buildRun_eq hocc] at h
    cases hb : builtTree s.regs.occ with
    | root t =>
      rw [hb] at h
      cases h
      exact ⟨t, builtOk_of_builtTree hb, rfl⟩
    | none => simp [hb] at h
    | tooLarge => simp [hb] at h
    | work w => simp [hb] at h
  · have hnil : initialWork s.regs.occ = [] := initialWork_eq_nil (by simpa using hocc)
    simp [buildRun, hnil] at h

/-- A tree with every count 0 keeps the count invariant (42_tree_codec.md R147). -/
theorem Tree.countOk_of_zero_eq {t : Tree} (h : t.zero = t) : t.countOk = true :=
  h ▸ t.zero_countOk

theorem deserRun_done {s u : State} (h : deserRun s = .done u) :
    ∃ t, t.builtOk = true ∧ u.regs = { s.regs with tree := some t } := by
  rw [deserRun] at h
  cases hp : parse s.io.bitIn.length 0 s with
  | raised c v => simp [hp] at h
  | tree t ni v =>
    rw [hp] at h
    cases h
    obtain ⟨hni, hcap, hzero, hEos, -⟩ := parse_sound _ _ _ (by decide) hp
    have hleaves : t.leaves ≤ Config.leafCap := by
      have := t.leaves_eq
      simp only [Config.leafCap]
      omega
    have huses := parse_uses s.io.bitIn.length 0 s
    rw [hp] at huses
    obtain ⟨-, hregs⟩ := huses
    refine ⟨t, by simp [Tree.builtOk, hEos, hleaves, Tree.countOk_of_zero_eq hzero], ?_⟩
    rw [State.setTree, hregs]

theorem injRun_done {s u : State} (h : injRun s = .done u) :
    ∃ t, s.regs.tree = some t ∧ u.regs = { s.regs with tree := some t.inject } := by
  rw [injRun] at h
  cases ht : s.regs.tree with
  | none => simp [ht] at h
  | some t =>
    rw [ht] at h
    simp only at h
    split at h
    · cases h
    · cases h
      exact ⟨t, rfl, rfl⟩

theorem lutRun_done {s u : State} (h : lutRun s = .done u) :
    ∃ t, s.regs.tree = some t ∧ u.regs = { s.regs with lut := lutOf t } := by
  rw [lutRun] at h
  cases ht : s.regs.tree with
  | none => simp [ht] at h
  | some t =>
    rw [ht] at h
    cases h
    exact ⟨t, rfl, rfl⟩

/-- An `Eos` leaf has a code. -/
theorem Tree.exists_eos_code {t : Tree} (h : t.hasEos = true) : ∃ p, (Sym.eos, p) ∈ t.codes := by
  induction t with
  | char b c => cases h
  | eos => exact ⟨[], by simp [Tree.codes]⟩
  | inner c l r hl hr =>
    rw [Tree.hasEos, Bool.or_eq_true] at h
    rcases h with h | h
    · obtain ⟨p, hp⟩ := hl h
      exact ⟨false :: p, by simp [Tree.codes, hp]⟩
    · obtain ⟨p, hp⟩ := hr h
      exact ⟨true :: p, by simp [Tree.codes, hp]⟩

/-- The table of an injected tree holds an End-of-Stream code (R26, `P_TABLED`). -/
theorem lutGet_lutOf_eos_ne_none {t : Tree} (h : t.injectedOk = true) : lutGet (lutOf t) .eos ≠ none := by
  have hone : t.eosLeaves = 1 := by
    simp only [Tree.injectedOk, Bool.and_eq_true, decide_eq_true_eq] at h
    obtain ⟨⟨⟨⟨-, hone⟩, -⟩, -⟩, -⟩ := h
    exact hone
  have hEos : t.hasEos = true := by
    by_contra hno
    rw [(t.eosLeaves_eq_zero).2 (by simpa using hno)] at hone
    cases hone
  obtain ⟨p, hp⟩ := Tree.exists_eos_code hEos
  rw [lutGet_lutOf]
  exact Option.isSome_iff_ne_none.1 (Tree.lastCode_isSome hp)

/-! ### The phase table, phase by phase (R26) -/

section
variable {r : Regs}

theorem Regs.phaseOk_idle (h : r.phase = .idle) :
    r.PhaseOk ↔ (r.fault = none → r.occ = Occ.zero) ∧ r.tree = none ∧ r.lut = Lut.empty := by
  rw [Regs.PhaseOk, h]

theorem Regs.phaseOk_counted (h : r.phase = .counted) : r.PhaseOk ↔ r.tree = none ∧ r.lut = Lut.empty := by
  rw [Regs.PhaseOk, h]

theorem Regs.phaseOk_tree (h : r.phase = .tree) :
    r.PhaseOk ↔ (∃ t, r.tree = some t ∧ t.builtOk = true) ∧ r.lut = Lut.empty := by
  rw [Regs.PhaseOk, h]

theorem Regs.phaseOk_injected (h : r.phase = .injected) :
    r.PhaseOk ↔ (∃ t, r.tree = some t ∧ t.injectedOk = true) ∧ r.lut = Lut.empty := by
  rw [Regs.PhaseOk, h]

theorem Regs.phaseOk_tabled (h : r.phase = .tabled) :
    r.PhaseOk ↔ ∃ t, r.tree = some t ∧ t.injectedOk = true ∧ r.lut = lutOf t ∧ lutGet r.lut .eos ≠ none := by
  rw [Regs.PhaseOk, h]

theorem Regs.phaseOk_done (h : r.phase = .done) :
    r.PhaseOk ↔ r.occ = Occ.zero ∧ r.tree = none ∧ r.lut = Lut.empty := by
  rw [Regs.PhaseOk, h]

end

/-- A fault keeps the phase table where it keeps PHASE, TREE and LUT, and OCC outside `P_IDLE`: in `P_IDLE` the table says
nothing of OCC once a fault is recorded (40_session_and_count.md R113). -/
theorem Regs.PhaseOk.of_faulted {r q : Regs} (h : r.PhaseOk) (hfault : q.fault ≠ none) (hphase : q.phase = r.phase)
    (htree : q.tree = r.tree) (hlut : q.lut = r.lut) (hocc : r.phase ≠ .idle → q.occ = r.occ) : q.PhaseOk := by
  by_cases hidle : r.phase = .idle
  · obtain ⟨-, hnone, hempty⟩ := (phaseOk_idle hidle).1 h
    exact (phaseOk_idle (hphase.trans hidle)).2
      ⟨fun hno => absurd hno hfault, htree.trans hnone, hlut.trans hempty⟩
  · unfold Regs.PhaseOk at h ⊢
    rw [hphase, htree, hlut, hocc hidle]
    cases hp : r.phase with
    | idle => exact absurd hp hidle
    | _ => rw [hp] at h; exact h

/-! ### The invariant -/

theorem State.Inv.of_regs {s t : State} (h : s.Inv) (hregs : t.regs = s.regs) : t.Inv := by
  obtain ⟨hwork, hcur, hphase, hfault⟩ := h
  constructor <;> rw [hregs] <;> assumption

/-- Fault entry meets the invariant, where the command has kept the data registers and its row of R232 has the cause. -/
theorem State.Inv.after_faultEntry {s u : State} {op : CmdWord} {c : Cause} (hs : s.Inv) (hmay : mayRecord op c = true)
    (hphase : u.regs.phase = s.regs.phase) (htree : u.regs.tree = s.regs.tree) (hlut : u.regs.lut = s.regs.lut)
    (hocc : s.regs.phase ≠ .idle → u.regs.occ = s.regs.occ) : (faultEntry op c u).Inv where
  work := rfl
  cur := rfl
  phase := hs.phase.of_faulted (by simp) hphase htree hlut hocc
  fault f hf := by
    cases hf
    exact hmay

/-- A command that raises a cause leaves a state of the invariant: only COUNT has written a data register, in `P_IDLE`. -/
theorem State.Inv.after_raised {i : Instr} {s u : State} {c : Cause} (hs : s.Inv) (hi : i ≠ .clr)
    (ha : admits i s.regs.phase = true) (hr : runOf i s = .raised c u) : (faultEntry (encode i) c u).Inv := by
  obtain ⟨htree, hlut, hocc⟩ := runOf_raised hr
  have hkept := runOf_kept hi s
  have hmay := runOf_raises i s
  rw [hr] at hkept hmay
  obtain ⟨-, -, -, -, -, hphase, -⟩ := hkept
  refine hs.after_faultEntry hmay hphase htree hlut fun hidle => hocc ?_
  rintro rfl
  exact hidle (by simpa [admits] using ha)

/-- A command that goes through leaves WORK empty and CUR `None` where they were (R23, R25). -/
theorem runOf_done_work_cur {i : Instr} {s u : State} (hi : i ≠ .clr) (hr : runOf i s = .done u)
    (hwork : s.regs.work = []) (hcur : s.regs.cur = none) : u.regs.work = [] ∧ u.regs.cur = none := by
  cases i with
  | clr => exact absurd rfl hi
  | count => obtain ⟨o, hregs⟩ := countRun_done hr; simp [hregs, hwork, hcur]
  | build => obtain ⟨t, -, hregs⟩ := buildRun_done hr; simp [hregs, hcur]
  | ser => simp [serRun_done hr, hwork, hcur]
  | deser => obtain ⟨t, -, hregs⟩ := deserRun_done hr; simp [hregs, hwork, hcur]
  | inj => obtain ⟨t, -, hregs⟩ := injRun_done hr; simp [hregs, hwork, hcur]
  | lut => obtain ⟨t, -, hregs⟩ := lutRun_done hr; simp [hregs, hwork, hcur]
  | enc => simp [encRun_done hr, hwork, hcur]
  | dec => simp [decRun_done hr, hwork]

/-- A command that goes through takes the row of the phase table it is admitted in to the row it leaves (30_encoding.md R84). -/
theorem runOf_done_phaseOk {i : Instr} {s u : State} (hi : i ≠ .clr) (hs : s.regs.PhaseOk)
    (ha : admits i s.regs.phase = true) (hr : runOf i s = .done u) : (u.setPhase (phaseAfter i)).regs.PhaseOk := by
  cases i with
  | clr => exact absurd rfl hi
  | count =>
    obtain ⟨-, htree, hlut⟩ := (Regs.phaseOk_idle (by simpa [admits] using ha)).1 hs
    obtain ⟨o, hregs⟩ := countRun_done hr
    exact (Regs.phaseOk_counted rfl).2 (by simp [hregs, htree, hlut])
  | build =>
    obtain ⟨-, hlut⟩ := (Regs.phaseOk_counted (by simpa [admits] using ha)).1 hs
    obtain ⟨t, ht, hregs⟩ := buildRun_done hr
    exact (Regs.phaseOk_tree rfl).2 (by simp [hregs, ht, hlut])
  | ser =>
    have htable := (Regs.phaseOk_tree (by simpa [admits] using ha)).1 hs
    exact (Regs.phaseOk_tree rfl).2 (by simpa [serRun_done hr] using htable)
  | deser =>
    obtain ⟨-, -, hlut⟩ := (Regs.phaseOk_idle (by simpa [admits] using ha)).1 hs
    obtain ⟨t, ht, hregs⟩ := deserRun_done hr
    exact (Regs.phaseOk_tree rfl).2 (by simp [hregs, ht, hlut])
  | inj =>
    obtain ⟨⟨t, htree, ht⟩, hlut⟩ := (Regs.phaseOk_tree (by simpa [admits] using ha)).1 hs
    obtain ⟨v, hv, hregs⟩ := injRun_done hr
    obtain rfl : t = v := Option.some.inj (htree.symm.trans hv)
    exact (Regs.phaseOk_injected rfl).2 (by simp [hregs, Tree.inject_injectedOk ht, hlut])
  | lut =>
    obtain ⟨⟨t, htree, ht⟩, -⟩ := (Regs.phaseOk_injected (by simpa [admits] using ha)).1 hs
    obtain ⟨v, hv, hregs⟩ := lutRun_done hr
    obtain rfl : t = v := Option.some.inj (htree.symm.trans hv)
    exact (Regs.phaseOk_tabled rfl).2 ⟨t, by simp [hregs, htree, ht, lutGet_lutOf_eos_ne_none ht]⟩
  | enc => exact (Regs.phaseOk_done rfl).2 (by simp [encRun_done hr])
  | dec => exact (Regs.phaseOk_done rfl).2 (by simp [decRun_done hr])

/-- A command that goes through leaves a state of the invariant, with no fault recorded. -/
theorem State.Inv.after_done {i : Instr} {s u : State} (hs : s.Inv) (hi : i ≠ .clr) (hf : s.regs.fault = none)
    (ha : admits i s.regs.phase = true) (hr : runOf i s = .done u) :
    ((u.setPhase (phaseAfter i)).respond .ok).Inv := by
  obtain ⟨hwork, hcur⟩ := runOf_done_work_cur hi hr hs.work hs.cur
  have hkept := runOf_kept hi s
  rw [hr] at hkept
  obtain ⟨-, -, -, -, -, -, hfault⟩ := hkept
  refine ⟨hwork, hcur, runOf_done_phaseOk hi hs.phase ha hr, fun f hsome => ?_⟩
  have hnone : u.regs.fault = none := hfault.trans hf
  rw [State.respond_regs, State.setPhase_fault, hnone] at hsome
  cases hsome

theorem State.Inv.after_exec {i : Instr} {s t : State} (hs : s.Inv) (h : exec i s = .next t) : t.Inv := by
  rcases exec_cases h with ⟨-, rfl⟩ | ⟨-, f, -, rfl⟩ | ⟨hi, -, -, rfl⟩ | ⟨hi, hf, ha, ⟨u, hr, rfl⟩ | ⟨c, u, hr, rfl⟩⟩
  · exact resetMeetsThePhaseTable.of_regs rfl
  · exact hs.of_regs rfl
  · exact hs.after_faultEntry (mayRecord_seq hi) rfl rfl rfl fun _ => rfl
  · exact hs.after_done hi hf ha hr
  · exact hs.after_raised hi ha hr

theorem State.Inv.after_execReserved {w : CmdWord} {s t : State} {e : DecodeReject} (hs : s.Inv) (hw : decode w = .error e)
    (h : execReserved w s = .next t) : t.Inv := by
  rcases execReserved_cases h with ⟨f, -, rfl⟩ | ⟨-, rfl⟩
  · exact hs.of_regs rfl
  · exact hs.after_faultEntry (mayRecord_illCmd hw) rfl rfl rfl fun _ => rfl

/-- Settles O52. A step waits, runs a command or answers a reserved word, and taking the word off CMD touches no register. -/
theorem stepKeepsThePhaseTable : Obligations.StepKeepsThePhaseTable := by
  intro s t hs h
  rcases step_cases h with rfl | ⟨w, rest, ⟨i, -, h⟩ | ⟨e, hw, h⟩⟩
  · exact hs
  · exact (hs.of_regs (s.setCmd_regs rest)).after_exec h
  · exact (hs.of_regs (s.setCmd_regs rest)).after_execReserved hw h

end Sys2Proof.Machine

/-! PROOFS. Memory (20_memory.md): a step runs the command its word on CMD selects. -/

namespace Sys2Proof.Machine

/-- No word issued: the CORE waits (10_state.md R31). -/
theorem step_of_cmd_nil {s : State} (h : s.io.cmd = []) : step s = .next s := by
  rw [step, takeCommand, h]

theorem step_of_decode_ok {s : State} {w : CmdWord} {rest : List CmdWord} {i : Instr} (hcmd : s.io.cmd = w :: rest)
    (hw : decode w = .ok i) : step s = exec i (s.setCmd rest) := by
  rw [step, takeCommand, hcmd]
  simp only [hw]

theorem decode_encode (i : Instr) : decode (encode i) = .ok i := by
  cases i <;> rfl

/-- Four or more bits of the table's row hold the whole command word (30_encoding.md R80). -/
theorem tableWord_toNat {nbits : Nat} (h : 4 ≤ nbits) (w : CmdWord) : tableWord nbits w.toNat = w := by
  have hlt : w.toNat < 2 ^ nbits := w.isLt.trans_le (Nat.pow_le_pow_right two_pos h)
  rw [tableWord, Nat.mod_eq_of_lt hlt, BitVec.ofNat_toNat, BitVec.setWidth_eq]

/-- The word put on CMD is the one the step takes, so the command runs at the state before it was put there. -/
theorem step_withFetchWord_encode (s : State) {nbits : Nat} (h : 4 ≤ nbits) (i : Instr) :
    step (s.withFetchWord nbits (encode i).toNat) = exec i s := by
  rw [State.withFetchWord, tableWord_toNat h]
  exact step_of_decode_ok rfl (decode_encode i)

/-- Settles O3. A word that `decode` accepts is run with it taken off CMD; `withFetchWord` puts such a word there. -/
theorem stepRunsDecodedCommand : Obligations.StepRunsDecodedCommand :=
  ⟨fun _ _ _ _ hcmd hw _ => step_of_decode_ok hcmd hw,
    fun s _ i h => step_withFetchWord_encode s h i,
    fun _ => step_of_cmd_nil⟩

end Sys2Proof.Machine

/-! PROOFS. Encoding (30_encoding.md): the command word, the table of admission, headers, and readings of a packet. -/

namespace Sys2Proof.Machine

/-! ### The command word (R80 to R83) -/

/-- Settles O1. Each word of the table of R81 is the encoding of its command. -/
theorem theNineOpcodesDecode : Obligations.TheNineOpcodesDecode :=
  ⟨decode_encode .clr, decode_encode .count, decode_encode .build, decode_encode .ser, decode_encode .deser,
    decode_encode .inj, decode_encode .lut, decode_encode .enc, decode_encode .dec⟩

theorem wellFormed_encode (i : Instr) : (encode i).wellFormed = true := by
  cases i <;> rfl

/-- The words the decoder rejects, and how it names them (R83). -/
theorem reserved_of_decode_error {w : CmdWord} {e : DecodeReject} (h : decode w = .error e) :
    (w.toNat = 0 ∨ 10 ≤ w.toNat) ∧ e = .reservedOpcode w := by
  unfold decode at h
  split at h <;> cases h
  refine ⟨?_, rfl⟩
  simp only [imp_false] at *
  omega

theorem wellFormed_of_reserved {w : CmdWord} (h : w.toNat = 0 ∨ 10 ≤ w.toNat) : w.wellFormed = false := by
  rw [CmdWord.wellFormed, Bool.and_eq_false_iff, decide_eq_false_iff_not, decide_eq_false_iff_not]
  omega

/-- Settles O2. A word that decodes is the encoding of its command; one that does not is reserved. -/
theorem decodeAndEncodeAgree : Obligations.DecodeAndEncodeAgree := by
  refine ⟨decode_encode, fun w => ?_⟩
  cases hw : decode w with
  | ok i =>
    obtain rfl := Laws.EncodeDecode.eq_encode hw
    exact .inl ⟨i, rfl, rfl, wellFormed_encode i⟩
  | error e =>
    obtain ⟨hreserved, rfl⟩ := reserved_of_decode_error hw
    exact .inr ⟨hreserved, rfl, wellFormed_of_reserved hreserved⟩

/-! ### The table of admission (R84) -/

/-- The rows of R84 for the commands other than CLR: the command, the phase before, the phase after. -/
def admissionTable : List (Instr × Phase × Phase) :=
  [(.count, .idle, .counted), (.build, .counted, .tree), (.ser, .tree, .tree), (.deser, .idle, .tree),
    (.inj, .tree, .injected), (.lut, .injected, .tabled), (.enc, .tabled, .done), (.dec, .injected, .done),
    (.dec, .tabled, .done)]

/-- What the model admits is a row of the table. -/
theorem mem_admissionTable {i : Instr} {p : Phase} (hi : i ≠ .clr) (ha : admits i p = true) :
    (i, p, phaseAfter i) ∈ admissionTable := by
  cases i with
  | clr => exact absurd rfl hi
  | dec =>
    have hp : p = .injected ∨ p = .tabled := by simpa [admits] using ha
    rcases hp with rfl | rfl <;> decide
  | _ =>
    obtain rfl := of_decide_eq_true ha
    decide

theorem exec_not_admitted {i : Instr} {s : State} (hi : i ≠ .clr) (hf : s.regs.fault = none)
    (ha : admits i s.regs.phase = false) : exec i s = .next (faultEntry (encode i) .seq s) := by
  simp [exec_eq i hi, ifAdmitted, hf, ha]

/-- Settles O10. A command and phase outside the first two columns of the table are not admitted. -/
theorem commandOutOfPhaseRaisesSeq : Obligations.CommandOutOfPhaseRaisesSeq := by
  intro s i hf hi hrow
  refine exec_not_admitted hi hf (Bool.eq_false_iff.2 fun ha => hrow ?_)
  exact List.mem_map_of_mem (f := fun row => (row.1, row.2.1)) (mem_admissionTable hi ha)

/-- All a command can answer (40_session_and_count.md R110): `OK`, after CLR or after pseudocode that was admitted and went
through, or a fault, which keeps PHASE and stays recorded. -/
theorem exec_answer {i : Instr} {s t : State} (h : exec i s = .next t) :
    (t.io.responses = s.io.responses ++ [.ok] ∧
      ((i = .clr ∧ t = (clearCore s).respond .ok) ∨
       (i ≠ .clr ∧ s.regs.fault = none ∧ admits i s.regs.phase = true ∧
        ∃ u, runOf i s = .done u ∧ t = (u.setPhase (phaseAfter i)).respond .ok))) ∨
    ∃ c, t.io.responses = s.io.responses ++ [.fault c] ∧ t.regs.phase = s.regs.phase ∧ t.regs.fault ≠ none := by
  rcases exec_cases h with ⟨hi, rfl⟩ | ⟨-, f, hf, rfl⟩ | ⟨-, -, -, rfl⟩ | ⟨hi, hf, ha, hrun⟩
  · exact .inl ⟨rfl, .inl ⟨hi, rfl⟩⟩
  · exact .inr ⟨_, rfl, rfl, by simp [hf]⟩
  · exact .inr ⟨_, rfl, rfl, by simp⟩
  · have hkept := runOf_kept hi s
    rcases hrun with ⟨u, hu, rfl⟩ | ⟨c, u, hu, rfl⟩
    all_goals
      rw [hu] at hkept
      obtain ⟨-, -, -, -, hresponses, hphase, -⟩ := hkept
    · exact .inl ⟨by simp [hresponses], .inr ⟨hi, hf, ha, u, hu, rfl⟩⟩
    · exact .inr ⟨c.name, by simp [hresponses], hphase, by simp⟩

/-- The pseudocode of a command records no fault where it goes through. -/
theorem runOf_done_fault {i : Instr} {s u : State} (hi : i ≠ .clr) (hr : runOf i s = .done u) :
    u.regs.fault = s.regs.fault := by
  have hkept := runOf_kept hi s
  rw [hr] at hkept
  obtain ⟨-, -, -, -, -, -, hfault⟩ := hkept
  exact hfault

/-- Settles O11. CLR is the table's last row; every other `OK` is a row of `admissionTable`. -/
theorem phaseAfterEachCommand : Obligations.PhaseAfterEachCommand := by
  intro i s t h
  rcases exec_answer h with ⟨hok, ⟨rfl, rfl⟩ | ⟨hi, hf, ha, u, hr, rfl⟩⟩ | ⟨c, hfault, hkept⟩
  · exact ⟨.ok, hok, fun _ => ⟨rfl, by simp [Regs.reset], .inl rfl⟩, absurd rfl⟩
  · refine ⟨.ok, hok, fun _ => ⟨(runOf_done_fault hi hr).trans hf, ?_, .inr hf⟩, absurd rfl⟩
    exact List.mem_append_left [(Instr.clr, s.regs.phase, Phase.idle)] (mem_admissionTable hi ha)
  · exact ⟨.fault c, hfault, nofun, fun _ => hkept⟩

/-! ### Headers (R88 to R90) -/

theorem bits8_injective : Function.Injective bits8 :=
  Function.LeftInverse.injective val8_bits8

/-- A header says where it ends: two streams that begin with headers and agree have the same tree, but for its counts, and
the same rest. -/
theorem Tree.ser_append_inj {t u : Tree} (ht : t.hasEos = false) (hu : u.hasEos = false) {x y : Bits}
    (h : t.ser ++ x = u.ser ++ y) : t.zero = u.zero ∧ x = y := by
  induction t generalizing u x y with
  | eos => cases ht
  | char b c =>
    cases u with
    | eos => cases hu
    | inner c' l' r' => simp [Tree.ser] at h
    | char b' c' =>
      have hbits : bits8 b ++ x = bits8 b' ++ y := List.tail_eq_of_cons_eq h
      obtain ⟨hb, hx⟩ := List.append_inj hbits rfl
      exact ⟨by rw [Tree.zero, Tree.zero, bits8_injective hb], hx⟩
  | inner c l r hl hr =>
    cases u with
    | eos => cases hu
    | char b' c' => simp [Tree.ser] at h
    | inner c' l' r' =>
      simp only [Tree.hasEos, Bool.or_eq_false_iff] at ht hu
      have hbits : l.ser ++ (r.ser ++ x) = l'.ser ++ (r'.ser ++ y) := by simpa [Tree.ser] using h
      obtain ⟨hzl, hrest⟩ := hl ht.1 hu.1 hbits
      obtain ⟨hzr, hx⟩ := hr ht.2 hu.2 hrest
      exact ⟨by rw [Tree.zero, Tree.zero, hzl, hzr], hx⟩

/-- Settles O26. The shape is the definition's; that no header begins another is `Tree.ser_append_inj` with nothing after
the longer one. -/
theorem headerFormat : Obligations.HeaderFormat := by
  refine ⟨fun _ _ => rfl, fun _ _ _ => rfl, fun t ht => ?_, fun t u ht hu hbegins => ?_⟩
  · have hlength := Tree.length_ser ht
    have hleaves := t.leaves_eq
    exact ⟨hlength, by omega, hleaves⟩
  · obtain ⟨x, hx⟩ := hbegins
    obtain ⟨hzero, rfl⟩ := Tree.ser_append_inj ht hu (hx.trans (List.append_nil _).symm)
    exact ⟨hzero, by simpa using hx⟩

/-! ### The codec's two laws (42_tree_codec.md R149) -/

theorem deserRun_ser {s : State} {t : Tree} {rest : Bits} (ht : t.hasEos = false) (hcap : t.leaves ≤ 256)
    (hb : s.io.bitIn = t.ser ++ rest) (hq : s.io.errors.quiet .bitIn t.reads) :
    deserRun s = .done ((s.took t.reads (t.ser.map .inBit) rest).setTree (some t.zero)) := by
  have hleaves := t.leaves_eq
  rw [deserRun, parse_ser ht _ 0 (by simp [hb]) (by omega) hb hq]

/-- A DESER that goes through has read exactly the header of the tree it stores. -/
theorem deserRun_done_header {s u : State} (h : deserRun s = .done u) :
    ∃ t, u.regs.tree = some t ∧ t.zero = t ∧ t.hasEos = false ∧ t.leaves ≤ 256 ∧
      s.io.bitIn = t.ser ++ u.io.bitIn ∧ u.io.events = s.io.events ++ t.ser.map .inBit := by
  rw [deserRun] at h
  cases hp : parse s.io.bitIn.length 0 s with
  | raised c v => simp [hp] at h
  | tree t ni v =>
    rw [hp] at h
    cases h
    obtain ⟨hni, hcap, hzero, hEos, hbits, hevents⟩ := parse_sound _ _ _ (by decide) hp
    have hleaves := t.leaves_eq
    exact ⟨t, rfl, hzero, hEos, by omega, hbits, hevents⟩

/-- Settles O29. The first law is `Parse` on a whole header, the second that `Parse` accepts nothing else. -/
theorem deserInvertsSer : Obligations.DeserInvertsSer := by
  refine ⟨fun s t rest hf hp ht hcap hb hq => ?_, fun s t h hok => ?_⟩
  · rw [exec_admitted (by decide) hf (by simp [admits, hp]), runOf, deserRun_ser ht hcap hb hq]
    rfl
  · rcases exec_answer h with ⟨-, ⟨hclr, -⟩ | ⟨-, -, -, u, hr, rfl⟩⟩ | ⟨c, hfault, -⟩
    · cases hclr
    · exact deserRun_done_header (u := u) hr
    · simp [hok] at hfault

/-! ### Readings of a packet (R91, 46_stream_decoder.md R196) -/

/-- Settles O47. The bits begin with a leaf's code or are a proper beginning of one. A Character leaf's code is not empty where
the root is Inner, so what is left is shorter and has a reading. -/
theorem everyPacketHasAReading : Obligations.EveryPacketHasAReading := by
  intro root bits hroot
  induction hn : bits.length using Nat.strong_induction_on generalizing bits with
  | _ n ih =>
    rcases root.reading bits with ⟨x, p, rest, hcode, rfl⟩ | hcut
    · cases x with
      | eos => exact .inl ⟨[], p, rest, by simp, hcode, rfl⟩
      | byte b =>
        have hp : 0 < p.length := List.length_pos_iff.2 (Tree.code_ne_nil hroot hcode)
        have hshorter : rest.length < n := by rw [← hn, List.length_append]; omega
        have hcons {cs : List (Byte × Bits)} (hcs : ∀ y ∈ cs, (Sym.byte y.1, y.2) ∈ root.codes) :
            ∀ y ∈ (b, p) :: cs, (Sym.byte y.1, y.2) ∈ root.codes :=
          List.forall_mem_cons.2 ⟨hcode, hcs⟩
        rcases ih _ hshorter rest rfl with ⟨cs, e, tail, hcs, heos, rfl⟩ | ⟨cs, q, hcs, hq, rfl⟩
        · exact .inl ⟨(b, p) :: cs, e, tail, hcons hcs, heos, by simp⟩
        · exact .inr ⟨(b, p) :: cs, q, hcons hcs, hq, by simp⟩
    · exact .inr ⟨[], bits, by simp, hcut, rfl⟩

end Sys2Proof.Machine

/-! PROOFS. Session and count (40_session_and_count.md): CLR, COUNT over a packet, the frame of every command (R110), and when
a word is answered (70_reset_and_hazards.md R275). -/

namespace Sys2Proof.Machine

/-! ### CLR (R111) -/

/-- Settles O6. CLR is the return to the reset values with the response `OK`, and its word decodes to it. -/
theorem clrStartsASession : Obligations.ClrStartsASession :=
  fun s => ⟨exec_clr s, fun rest hcmd =>
    (step_of_decode_ok hcmd (decode_encode .clr)).trans (exec_clr (s.setCmd rest))⟩

/-! ### COUNT over a packet (R113, R114) -/

/-- The state in which COUNT's loop stands after the bytes `bs`. -/
def State.counted (s : State) (bs : List Byte) (rest : List ByteItem) (o : Occ) : State :=
  ((s.moved .byteIn bs.length (bs.map .inByte)).setByteIn rest).setOcc o

/-- COUNT on bytes that can all be counted: it is then as its next pass says. -/
theorem countRun_bytes {s : State} {bs : List Byte} {rest : List ByteItem} (hb : s.io.byteIn = bs.map .byte ++ rest)
    (hq : s.io.errors.quiet .byteIn bs.length) (hfit : ∀ b, (occGet s.regs.occ b).toNat + bs.count b < 2 ^ 64) :
    ∃ o : Occ, (∀ b, (occGet o b).toNat = (occGet s.regs.occ b).toNat + bs.count b) ∧
      ∀ r, countPass (s.counted bs rest o) = .out r → countRun s = r := by
  obtain ⟨o, ho, hloop⟩ := count_loop (f := .byteInStarved) bs (rest.length + 1) hb hq hfit
  refine ⟨o, ho, fun r hr => ?_⟩
  have hbound : s.io.byteIn.length + 1 = bs.length + (rest.length + 1) := by simp [hb, Nat.add_assoc]
  rw [countRun, hbound, hloop]
  exact loop_out hr

/-- Settles O14. After the bytes of the packet, which are counted, the next pass reads `End`, reports the error or finds the
slot full. -/
theorem countCountsOnePacket : Obligations.CountCountsOnePacket := by
  intro s hf hp
  have hexec {r : Run} (hr : countRun s = r) : exec .count s = complete .count r := by
    rw [exec_admitted (by decide) hf (by simp [admits, hp]), runOf, hr]
  refine ⟨fun bs rest hb hq hfit => ?_, fun bs rest hb hfails hfit => ?_, fun bs v rest hb hq hfit hfull => ?_⟩
  · obtain ⟨hq, hnext⟩ := (IoErrors.quiet_add _ _ _ _).1 hq
    obtain ⟨o, ho, hrun⟩ := countRun_bytes (rest := .packetEnd :: rest) (by simpa [packetItems] using hb) hq hfit
    refine ⟨o, ho, (hexec (hrun _ (countPass_end hnext rfl))).trans ?_⟩
    rw [← IoErrors.after_after, ← List.append_assoc]
    rfl
  · obtain ⟨hq, hnext⟩ := IoErrors.failsAt_add (n := 0) hfails
    obtain ⟨o, ho, hrun⟩ := countRun_bytes hb hq hfit
    refine ⟨o, ho, (hexec (hrun _ (countPass_failsAt hnext))).trans ?_⟩
    rw [← IoErrors.after_after, ← List.append_nil (s.io.events ++ _)]
    rfl
  · obtain ⟨hq, hnext⟩ := (IoErrors.quiet_add _ _ _ _).1 hq
    obtain ⟨o, ho, hrun⟩ := countRun_bytes (rest := .byte v :: rest) (by simpa using hb) hq hfit
    have hmax : occGet o v = Count.max := BitVec.eq_of_toNat_eq ((ho v).trans hfull)
    refine ⟨o, ho, (hexec (hrun _ (countPass_ovf hnext rfl hmax))).trans ?_⟩
    rw [← IoErrors.after_after, List.map_append, ← List.append_assoc]
    rfl

/-! ### The frame every command has (R110) -/

/-- What a command's pseudocode keeps of the channels, and a response does not touch, the command keeps. -/
theorem exec_keeps {i : Instr} (hi : i ≠ .clr) {s t : State} {P : State → Prop}
    (hrespond : ∀ u v r, P u → v.io = (u.respond r).io → P v) (hs : P s) (hrun : (runOf i s).Ends P P)
    (h : exec i s = .next t) : P t := by
  rcases exec_cases h with ⟨hclr, -⟩ | ⟨-, f, -, rfl⟩ | ⟨-, -, -, rfl⟩ | ⟨-, -, -, ⟨u, hu, rfl⟩ | ⟨c, u, hu, rfl⟩⟩
  · exact absurd hclr hi
  · exact hrespond s _ _ hs rfl
  · exact hrespond s _ _ hs rfl
  · rw [hu] at hrun
    exact hrespond u _ _ hrun rfl
  · rw [hu] at hrun
    exact hrespond u _ _ hrun rfl

/-- The channels each command uses. -/
def channelsOf : Instr → List Channel
  | .clr | .build | .inj | .lut => []
  | .count => [.byteIn]
  | .ser => [.bitOut]
  | .deser => [.bitIn]
  | .enc => [.byteIn, .bitOut]
  | .dec => [.bitIn, .byteOut]

/-- BUILD, INJ and LUT touch no channel. -/
theorem runOf_io {i : Instr} (hi : i = .build ∨ i = .inj ∨ i = .lut) (s : State) :
    (runOf i s).Ends (fun u => u.io = s.io) (fun u => u.io = s.io) := by
  rcases hi with rfl | rfl | rfl
  · exact (buildRun_ends s).imp (fun _ hu => hu.1) fun _ hu => hu.1
  · exact (injRun_ends s).imp (fun _ hu => hu.1) fun _ => False.elim
  · exact (lutRun_ends s).imp (fun _ hu => hu.1) fun _ => False.elim

theorem runOf_uses (i : Instr) (s : State) :
    (runOf i s).Ends (s.Uses (channelsOf i)) (s.Uses (channelsOf i)) := by
  have huses {u : State} {chs : List Channel} (hio : u.io = s.io) : s.Uses chs u := State.uses_of_io (.refl _ _) hio
  cases i with
  | clr => exact huses rfl
  | build => exact (runOf_io (.inl rfl) s).imp (fun _ => huses) fun _ => huses
  | inj => exact (runOf_io (.inr (.inl rfl)) s).imp (fun _ => huses) fun _ => huses
  | lut => exact (runOf_io (.inr (.inr rfl)) s).imp (fun _ => huses) fun _ => huses
  | count => exact (countRun_frame s).ends.imp (fun _ hu => hu.1) fun _ hu => hu.1
  | ser => exact (serRun_frame s).ends.imp (fun _ hu => hu.1) fun _ hu => hu.1
  | deser => exact (deserRun_ends s).imp (fun _ hu => hu.1) fun _ hu => hu.1
  | enc => exact (encRun_ends s).imp (fun _ hu => hu.1) fun _ hu => hu.1
  | dec => exact (decRun_ends s).imp (fun _ hu => hu.1) fun _ hu => hu.1

/-- A command uses no other channel, its response apart. -/
theorem exec_uses {i : Instr} (hi : i ≠ .clr) {s t : State} (h : exec i s = .next t) : s.Uses (channelsOf i) t :=
  exec_keeps hi (fun _ _ r hu hio => State.uses_of_io (uses_respond hu r) hio) (.refl _ _) (runOf_uses i s) h

/-- The registers a command can leave: those it found, in the faulted state; those of its pseudocode, with PHASE moved on; or,
where it enters a fault, data registers as they were but for COUNT's increments. -/
theorem exec_regs_cases {i : Instr} (hi : i ≠ .clr) {s t : State} (h : exec i s = .next t) :
    (t.regs.fault ≠ none ∧ t.regs = s.regs) ∨
    (t.regs.fault = none ∧ s.regs.fault = none ∧ admits i s.regs.phase = true ∧
      ∃ u, runOf i s = .done u ∧ t.regs = { u.regs with phase := phaseAfter i }) ∨
    (t.regs.fault ≠ s.regs.fault ∧ t.regs.phase = s.regs.phase ∧ t.regs.tree = s.regs.tree ∧ t.regs.lut = s.regs.lut ∧
      (i ≠ .count → t.regs.occ = s.regs.occ)) := by
  rcases exec_cases h with ⟨hclr, -⟩ | ⟨-, f, hf, rfl⟩ | ⟨-, hf, -, rfl⟩ | ⟨-, hf, ha, ⟨u, hu, rfl⟩ | ⟨c, u, hu, rfl⟩⟩
  · exact absurd hclr hi
  · exact .inl ⟨by simp [hf], rfl⟩
  · exact .inr (.inr ⟨by simp [hf], rfl, rfl, rfl, fun _ => rfl⟩)
  · exact .inr (.inl ⟨(runOf_done_fault hi hu).trans hf, hf, ha, u, hu, rfl⟩)
  · have hkept := runOf_kept hi s
    rw [hu] at hkept
    obtain ⟨-, -, -, -, -, hphase, -⟩ := hkept
    obtain ⟨htree, hlut, hocc⟩ := runOf_raised hu
    exact .inr (.inr ⟨by simp [hf], hphase, htree, hlut, hocc⟩)

/-- Settles O16. COUNT uses BYTE_IN alone, and its pseudocode writes OCC alone. -/
theorem countFrame : Obligations.CountFrame := by
  intro s t h
  obtain ⟨-, hbitIn, hbyteOut, hbitOut, herrors⟩ := (exec_uses (by decide) h).views
  have hregs : t.regs.tree = s.regs.tree ∧ t.regs.lut = s.regs.lut ∧
      (t.regs.fault = s.regs.fault → t.regs.cur = s.regs.cur ∧ t.regs.work = s.regs.work) := by
    rcases exec_regs_cases (by decide) h with ⟨-, hsame⟩ | ⟨-, -, -, u, hu, hdone⟩ | ⟨hfault, -, htree, hlut, -⟩
    · simp [hsame]
    · obtain ⟨o, ho⟩ := countRun_done hu
      simp [hdone, ho]
    · exact ⟨htree, hlut, fun hno => absurd hno hfault⟩
  obtain ⟨htree, hlut, hcurWork⟩ := hregs
  exact ⟨htree, hlut, hcurWork, hbitIn (by decide), hbyteOut (by decide), hbitOut (by decide),
    fun ch hch => herrors ch (by simpa [channelsOf] using hch)⟩

/-- The registers BUILD, INJ and LUT leave where they go through. -/
theorem runOf_done_regs {i : Instr} (hi : i = .build ∨ i = .inj ∨ i = .lut) {s u : State} (hr : runOf i s = .done u) :
    u.regs.occ = s.regs.occ ∧ (i = .lut → u.regs.tree = s.regs.tree) ∧ (i ≠ .lut → u.regs.lut = s.regs.lut) ∧
    u.regs.cur = s.regs.cur ∧ (i ≠ .build → u.regs.work = s.regs.work) := by
  rcases hi with rfl | rfl | rfl
  · obtain ⟨t, -, hregs⟩ := buildRun_done hr
    simp [hregs]
  · obtain ⟨t, -, hregs⟩ := injRun_done hr
    simp [hregs]
  · obtain ⟨t, -, hregs⟩ := lutRun_done hr
    simp [hregs]

/-- Settles O25. The three commands touch no channel, and each has its own registers to write. -/
theorem buildInjLutFrames : Obligations.BuildInjLutFrames := by
  intro i s t hi h
  have hclr : i ≠ .clr := by rcases hi with rfl | rfl | rfl <;> decide
  refine ⟨?_, ?_⟩
  · refine exec_keeps (P := fun u => u.io = { s.io with responses := u.io.responses }) hclr ?_ rfl
      ((runOf_io hi s).imp ?_ ?_) h
    · intro u v r hu hio
      rw [hio, State.respond, hu]
    · intro u hu
      rw [hu]
    · intro u hu
      rw [hu]
  · rcases exec_regs_cases hclr h with ⟨-, hsame⟩ | ⟨hok, hf, -, u, hu, hdone⟩ | ⟨hfault, -, htree, hlut, hocc⟩
    · simp [hsame]
    · obtain ⟨hocc, htree, hlut, hcur, hwork⟩ := runOf_done_regs hi hu
      rw [hdone]
      refine ⟨hocc, htree, hlut, fun _ => ⟨hcur, fun hb => hwork (hb.resolve_right (absurd hf))⟩, fun hno => absurd ?_ hno⟩
      simpa [hdone] using hok
    · have hcount : i ≠ .count := by rcases hi with rfl | rfl | rfl <;> decide
      exact ⟨hocc hcount, fun _ => htree, fun _ => hlut, fun hno => absurd hno hfault, fun _ => ⟨htree, hlut⟩⟩

/-- Settles O28. SER uses BIT_OUT alone, and its pseudocode writes no register; it leaves the phase it is admitted in. -/
theorem serFrame : Obligations.SerFrame := by
  intro s t h
  obtain ⟨hbyteIn, hbitIn, hbyteOut, -, herrors⟩ := (exec_uses (by decide) h).views
  have hregs : t.regs.occ = s.regs.occ ∧ t.regs.tree = s.regs.tree ∧ t.regs.lut = s.regs.lut ∧
      t.regs.phase = s.regs.phase ∧ (t.regs.fault = s.regs.fault → t.regs = s.regs) := by
    rcases exec_regs_cases (by decide) h with ⟨-, hsame⟩ | ⟨-, -, ha, u, hu, hdone⟩ | ⟨hfault, hphase, htree, hlut, hocc⟩
    · simp [hsame]
    · have hphase : s.regs.phase = phaseAfter .ser := of_decide_eq_true ha
      have hsame : t.regs = s.regs := by rw [hdone, serRun_done hu, ← hphase]
      simp [hsame]
    · exact ⟨hocc (by decide), htree, hlut, hphase, fun hno => absurd hno hfault⟩
  obtain ⟨hocc, htree, hlut, hphase, hall⟩ := hregs
  exact ⟨hocc, htree, hlut, hphase, hall, hbyteIn (by decide), hbitIn (by decide), hbyteOut (by decide),
    fun ch hch => herrors ch (by simpa [channelsOf] using hch)⟩

/-- Settles O33. DESER uses BIT_IN alone, and its pseudocode writes TREE alone where it goes through. -/
theorem deserFrame : Obligations.DeserFrame := by
  intro s t h
  obtain ⟨hbyteIn, -, hbyteOut, hbitOut, herrors⟩ := (exec_uses (by decide) h).views
  have hregs : t.regs.occ = s.regs.occ ∧ t.regs.lut = s.regs.lut ∧
      (t.regs.fault ≠ none → t.regs.tree = s.regs.tree) ∧
      (t.regs.fault = s.regs.fault → t.regs.cur = s.regs.cur ∧ t.regs.work = s.regs.work) := by
    rcases exec_regs_cases (by decide) h with ⟨-, hsame⟩ | ⟨hok, -, -, u, hu, hdone⟩ | ⟨hfault, -, htree, hlut, hocc⟩
    · simp [hsame]
    · obtain ⟨x, -, hx⟩ := deserRun_done hu
      exact ⟨by simp [hdone, hx], by simp [hdone, hx], absurd hok, fun _ => by simp [hdone, hx]⟩
    · exact ⟨hocc (by decide), hlut, fun _ => htree, fun hno => absurd hno hfault⟩
  obtain ⟨hocc, hlut, htree, hcurWork⟩ := hregs
  exact ⟨hocc, hlut, htree, hcurWork, hbyteIn (by decide), hbyteOut (by decide), hbitOut (by decide),
    fun ch hch => herrors ch (by simpa [channelsOf] using hch)⟩

/-- Settles O43. ENC uses BYTE_IN and BIT_OUT alone, and its pseudocode clears the session data where it goes through. -/
theorem encFrame : Obligations.EncFrame := by
  intro s t h
  obtain ⟨-, hbitIn, hbyteOut, -, herrors⟩ := (exec_uses (by decide) h).views
  have hregs : (t.regs.fault ≠ none → t.regs.occ = s.regs.occ ∧ t.regs.tree = s.regs.tree ∧ t.regs.lut = s.regs.lut) ∧
      (t.regs.fault = s.regs.fault → t.regs.cur = s.regs.cur ∧ t.regs.work = s.regs.work) := by
    rcases exec_regs_cases (by decide) h with ⟨-, hsame⟩ | ⟨hok, -, -, u, hu, hdone⟩ | ⟨hfault, -, htree, hlut, hocc⟩
    · simp [hsame]
    · exact ⟨absurd hok, fun _ => by simp [hdone, encRun_done hu]⟩
    · exact ⟨fun _ => ⟨hocc (by decide), htree, hlut⟩, fun hno => absurd hno hfault⟩
  obtain ⟨hdata, hcurWork⟩ := hregs
  exact ⟨hdata, hcurWork, hbitIn (by decide), hbyteOut (by decide),
    fun ch hin hout => herrors ch (by simp [channelsOf, hin, hout])⟩

/-- Settles O50. DEC uses BIT_IN and BYTE_OUT alone, and its pseudocode writes no WORK; it clears the session data and CUR
where it goes through. -/
theorem decFrame : Obligations.DecFrame := by
  intro s t h
  obtain ⟨hbyteIn, -, -, hbitOut, herrors⟩ := (exec_uses (by decide) h).views
  have hregs : (t.regs.fault ≠ none → t.regs.occ = s.regs.occ ∧ t.regs.tree = s.regs.tree ∧ t.regs.lut = s.regs.lut) ∧
      (t.regs.fault = s.regs.fault → t.regs.work = s.regs.work) := by
    rcases exec_regs_cases (by decide) h with ⟨-, hsame⟩ | ⟨hok, -, -, u, hu, hdone⟩ | ⟨hfault, -, htree, hlut, hocc⟩
    · simp [hsame]
    · exact ⟨absurd hok, fun _ => by simp [hdone, decRun_done hu]⟩
    · exact ⟨fun _ => ⟨hocc (by decide), htree, hlut⟩, fun hno => absurd hno hfault⟩
  obtain ⟨hdata, hwork⟩ := hregs
  exact ⟨hdata, hwork, hbyteIn (by decide), hbitOut (by decide),
    fun ch hout hin => herrors ch (by simp [channelsOf, hin, hout])⟩

/-! ### Why a run has no transition -/

/-- A property of the reason for which a run has no transition. -/
def Run.StuckOnly (P : Fault → Prop) : Run → Prop
  | .done _ => True
  | .raised _ _ => True
  | .stuck f => P f

theorem Run.StuckOnly.imp {P Q : Fault → Prop} {r : Run} (h : r.StuckOnly P) (hpq : ∀ f, P f → Q f) : r.StuckOnly Q := by
  cases r with
  | done s => trivial
  | raised c s => trivial
  | stuck f => exact hpq f h

theorem Run.StuckOnly.andThen {P : Fault → Prop} {D R : State → Prop} {r : Run} {k : State → Run} (h : r.StuckOnly P)
    (hends : r.Ends D R) (hk : ∀ s, D s → (k s).StuckOnly P) : (r.andThen k).StuckOnly P := by
  cases r with
  | done s => exact hk s hends
  | raised c s => trivial
  | stuck f => exact h

/-- An output transfer goes through or raises. -/
theorem send_stuckOnly (P : Fault → Prop) (ch : Channel) (e : Event) (s : State) : (send ch e s).StuckOnly P := by
  rcases send_cases ch e s with ⟨-, h⟩ | ⟨-, h⟩ <;> rw [h] <;> trivial

theorem bitWriteSeq_stuckOnly (P : Fault → Prop) (p : Bits) (s : State) : (bitWriteSeq p s).StuckOnly P := by
  rcases bitWriteSeq_cases p s with h | ⟨n, -, h⟩ <;> rw [h] <;> trivial

/-- A property of the state a pass goes on from, and one of the run it leaves the loop with. -/
def Pass.Leads (A : State → Prop) (Q : Run → Prop) : Pass → Prop
  | .again t => A t
  | .out r => Q r

/-- A loop whose passes decrease a measure below its bound is left by a pass, not by the bound (log entry 12). -/
theorem loop_of_decreasing {I : State → Prop} {Q : Run → Prop} {pass : State → Pass} {f : Fault} (m : State → Nat)
    (hpass : ∀ s, I s → (pass s).Leads (fun t => I t ∧ m t < m s) Q) (n : Nat) (s : State) (hs : I s) (hn : m s < n) :
    Q (loop pass f n s) := by
  induction n generalizing s with
  | zero => omega
  | succ n ih =>
    have hlead := hpass s hs
    cases hp : pass s with
    | again t =>
      rw [hp] at hlead
      obtain ⟨ht, hlt⟩ := hlead
      rw [loop_again hp]
      exact ih t ht (by omega)
    | out r =>
      rw [hp] at hlead
      rw [loop_out hp]
      exact hlead

/-! ### COUNT and ENC: the bytes of a packet -/

/-- The host has not ended the packet on BYTE_IN (R275, log entry 6). -/
def State.Unended (s : State) (f : Fault) : Prop :=
  f = .byteInStarved ∧ ByteItem.packetEnd ∉ s.io.byteIn

/-- What a pass over the items of BYTE_IN does: it goes on past a byte, and is stuck only where no item is left. -/
def Pass.TakesByte (s : State) : Pass → Prop :=
  Pass.Leads (fun t => ∃ v, s.io.byteIn = .byte v :: t.io.byteIn)
    (Run.StuckOnly fun f => f = .byteInStarved ∧ s.io.byteIn = [])

theorem countPass_takesByte (s : State) : (countPass s).TakesByte s := by
  rcases byteIn_cases s with h | ⟨hb, h⟩ | ⟨v, rest, hb, h⟩ | ⟨rest, hb, h⟩ <;> simp only [countPass, h]
  · trivial
  · exact ⟨rfl, hb⟩
  · split
    · trivial
    · exact ⟨v, hb⟩
  · trivial

theorem encPass_takesByte (s : State) : (encPass s).TakesByte s := by
  rcases byteIn_cases s with h | ⟨hb, h⟩ | ⟨v, rest, hb, h⟩ | ⟨rest, hb, h⟩ <;> simp only [encPass, h]
  · trivial
  · exact ⟨rfl, hb⟩
  · split
    · trivial
    · rename_i p hp
      rcases bitWriteSeq_cases p ((s.moved .byteIn 1 [.inByte v]).setByteIn rest) with hw | ⟨n, -, hw⟩ <;> rw [hw]
      · exact ⟨v, hb⟩
      · trivial
  · trivial

/-- Every pass but the last takes a byte, so the items on BYTE_IN bound the passes, and a loop that is stuck has met no
`End`. -/
theorem byteLoop_stuckOnly {pass : State → Pass} (hpass : ∀ s, (pass s).TakesByte s) (s : State) :
    (loop pass .byteInStarved (s.io.byteIn.length + 1) s).StuckOnly s.Unended := by
  refine loop_of_decreasing (I := fun t => ByteItem.packetEnd ∉ t.io.byteIn → ByteItem.packetEnd ∉ s.io.byteIn)
    (fun t => t.io.byteIn.length) (fun t ht => ?_) _ s id (Nat.lt_succ_self _)
  have htakes := hpass t
  cases hp : pass t with
  | again u =>
    rw [hp] at htakes
    obtain ⟨v, hb⟩ := htakes
    exact ⟨fun hu => ht (by simpa [hb] using hu), by simp [hb]⟩
  | out r =>
    rw [hp] at htakes
    exact Run.StuckOnly.imp htakes fun f ⟨hf, hb⟩ => ⟨hf, ht (by simp [hb])⟩

/-- The terminator's code is there in `P_TABLED`, so ENC is stuck in its loop alone. -/
theorem encRun_stuckOnly {s : State} (heos : lutGet s.regs.lut .eos ≠ none) : (encRun s).StuckOnly s.Unended := by
  obtain ⟨p, hp⟩ := Option.ne_none_iff_exists'.1 heos
  have hterm : ((loop encPass .byteInStarved (s.io.byteIn.length + 1) s).andThen encTerminator).StuckOnly s.Unended := by
    refine (byteLoop_stuckOnly encPass_takesByte s).andThen (encLoop_frame _ _ s).ends ?_
    rintro t ⟨-, hregs⟩
    simp only [encTerminator, hregs, hp]
    exact bitWriteSeq_stuckOnly _ p t
  have hany (r : Run) : r.Ends (fun _ => True) (fun _ => True) := by cases r <;> trivial
  exact (hterm.andThen (hany _) fun t _ => send_stuckOnly _ _ _ t).andThen (hany _) fun _ _ => trivial

/-! ### DEC: the bits of a packet -/

/-- What DEC's passes decrease (46_stream_decoder.md R195): a bit is read on an Inner node, and a Character leaf is left
for the root. -/
def decMeasure (s : State) : Nat :=
  2 * s.io.bitIn.length + if s.regs.cur.any Tree.isInner then 0 else 1

theorem decPass_leads {root : Tree} (hroot : root.isInner = true) (s : State) (hcur : s.regs.cur ≠ none) :
    (decPass root s).Leads (fun t => t.regs.cur ≠ none ∧ decMeasure t < decMeasure s) (Run.StuckOnly fun _ => False) := by
  obtain ⟨u, hu⟩ := Option.ne_none_iff_exists'.1 hcur
  cases u with
  | eos => rw [decPass_eos hu]; trivial
  | char b c =>
    simp only [decPass, hu, byteOut]
    rcases send_cases .byteOut (.outByte b) s with ⟨-, hsend⟩ | ⟨-, hsend⟩ <;> rw [hsend]
    · split
      · trivial
      · have hleaf : (Tree.char b c).isInner = false := rfl
        exact ⟨by simp, by simp [decMeasure, hu, hroot, hleaf]⟩
    · split <;> trivial
  | inner c l r =>
    cases hb : s.io.bitIn with
    | nil => rw [decPass_inner_nil hu hb]; trivial
    | cons b rest =>
      have hnext (v : Tree) (t : State) (hv : t.regs.cur = some v) (ht : t.io.bitIn = rest) :
          t.regs.cur ≠ none ∧ decMeasure t < decMeasure s := by
        refine ⟨by simp [hv], ?_⟩
        simp only [decMeasure, ht, hu, hb, List.length_cons, Option.any_some, Tree.isInner, if_true]
        split <;> omega
      simp only [decPass, hu, bitAvail_eq_false, hb, reduceCtorEq, if_false]
      rcases bitRead_cases hb with ⟨-, hread⟩ | ⟨-, hread⟩ <;> rw [hread]
      · trivial
      · cases b with
        | false => exact hnext l _ rfl rfl
        | true => exact hnext r _ rfl rfl

/-- DEC on a tree with an Inner root always ends (R195). -/
theorem decRun_stuckOnly {s : State} {root : Tree} (ht : s.regs.tree = some root) (hroot : root.isInner = true) :
    (decRun s).StuckOnly fun _ => False := by
  have hloop : (loop (decPass root) .decNeverEnds (decBound s) (s.setCur (some root))).StuckOnly fun _ => False :=
    loop_of_decreasing (I := fun t => t.regs.cur ≠ none) decMeasure (decPass_leads hroot) _ _ (by simp)
      (by simp [decMeasure, decBound, hroot]; omega)
  simp only [decRun, ht]
  exact hloop.andThen (decLoop_frame _ _ _ _).ends fun _ _ => trivial

/-! ### The other commands -/

/-- BUILD's loop takes one tree less in every pass, so it ends (41_tree_builder.md R126). -/
theorem buildRun_stuckOnly (s : State) : (buildRun s).StuckOnly fun _ => False := by
  by_cases hocc : ∃ b, occGet s.regs.occ b ≠ 0
  · have hne : initialWork s.regs.occ ≠ [] := hocc.elim fun _ => initialWork_ne_nil
    rw [buildRun_eq hocc, builtTree]
    rcases greedy_spec _ _ (Nat.le_refl _) hne with ⟨t, ht, -⟩ | ⟨hover, -⟩
    · rw [ht]; trivial
    · rw [hover]; trivial
  · have hnil : initialWork s.regs.occ = [] := initialWork_eq_nil (by simpa using hocc)
    simp [buildRun, hnil, Run.StuckOnly]

theorem serRun_stuckOnly {s : State} {t : Tree} (ht : s.regs.tree = some t) (heos : t.hasEos = false) :
    (serRun s).StuckOnly fun _ => False := by
  simp only [serRun, ht, heos]
  exact bitWriteSeq_stuckOnly _ _ s

theorem deserRun_stuckOnly (s : State) : (deserRun s).StuckOnly fun _ => False := by
  rw [deserRun]
  cases parse s.io.bitIn.length 0 s <;> trivial

theorem injRun_stuckOnly {s : State} {t : Tree} (ht : s.regs.tree = some t) (heos : t.hasEos = false) :
    (injRun s).StuckOnly fun _ => False := by
  simp [injRun, ht, heos, Run.StuckOnly]

theorem lutRun_stuckOnly {s : State} {t : Tree} (ht : s.regs.tree = some t) : (lutRun s).StuckOnly fun _ => False := by
  simp [lutRun, ht, Run.StuckOnly]

theorem Tree.hasEos_of_builtOk {t : Tree} (h : t.builtOk = true) : t.hasEos = false := by
  simp only [Tree.builtOk, Bool.and_eq_true, Bool.not_eq_true'] at h
  obtain ⟨⟨heos, -⟩, -⟩ := h
  exact heos

theorem Tree.isInner_of_injectedOk {t : Tree} (h : t.injectedOk = true) : t.isInner = true := by
  simp only [Tree.injectedOk, Bool.and_eq_true] at h
  obtain ⟨⟨⟨⟨hinner, -⟩, -⟩, -⟩, -⟩ := h
  exact hinner

/-! ### Every word is answered -/

/-- Where the phase table holds, the registers of an admitted command are as its pseudocode needs them (10_state.md R26): only
COUNT and ENC can be stuck, on a packet with no `End`. -/
theorem runOf_stuckOnly {i : Instr} {s : State} (hs : s.regs.PhaseOk) (ha : admits i s.regs.phase = true) :
    (runOf i s).StuckOnly fun f => s.Unended f ∧ (i = .count ∨ i = .enc) := by
  cases i with
  | clr => trivial
  | count => exact (byteLoop_stuckOnly countPass_takesByte s).imp fun f hf => ⟨hf, .inl rfl⟩
  | build => exact (buildRun_stuckOnly s).imp fun _ => False.elim
  | ser =>
    obtain ⟨⟨t, ht, hok⟩, -⟩ := (Regs.phaseOk_tree (by simpa [admits] using ha)).1 hs
    exact (serRun_stuckOnly ht (Tree.hasEos_of_builtOk hok)).imp fun _ => False.elim
  | deser => exact (deserRun_stuckOnly s).imp fun _ => False.elim
  | inj =>
    obtain ⟨⟨t, ht, hok⟩, -⟩ := (Regs.phaseOk_tree (by simpa [admits] using ha)).1 hs
    exact (injRun_stuckOnly ht (Tree.hasEos_of_builtOk hok)).imp fun _ => False.elim
  | lut =>
    obtain ⟨⟨t, ht, -⟩, -⟩ := (Regs.phaseOk_injected (by simpa [admits] using ha)).1 hs
    exact (lutRun_stuckOnly ht).imp fun _ => False.elim
  | enc =>
    obtain ⟨t, -, -, -, heos⟩ := (Regs.phaseOk_tabled (by simpa [admits] using ha)).1 hs
    exact (encRun_stuckOnly heos).imp fun f hf => ⟨hf, .inr rfl⟩
  | dec =>
    have htree : ∃ t, s.regs.tree = some t ∧ t.injectedOk = true := by
      have hp : s.regs.phase = .injected ∨ s.regs.phase = .tabled := by simpa [admits] using ha
      rcases hp with hp | hp
      · exact ((Regs.phaseOk_injected hp).1 hs).1
      · obtain ⟨t, ht, hok, -⟩ := (Regs.phaseOk_tabled hp).1 hs
        exact ⟨t, ht, hok⟩
    obtain ⟨t, ht, hok⟩ := htree
    exact (decRun_stuckOnly ht (Tree.isInner_of_injectedOk hok)).imp fun _ => False.elim

/-- A run completes to a next state, or is stuck for a reason of its own. -/
theorem complete_of_stuckOnly {P : Fault → Prop} {r : Run} (h : r.StuckOnly P) (i : Instr) :
    (∃ t, complete i r = .next t) ∨ ∃ f, P f ∧ complete i r = .fault f := by
  cases r with
  | done s => exact .inl ⟨_, rfl⟩
  | raised c s => exact .inl ⟨_, rfl⟩
  | stuck f => exact .inr ⟨f, h, rfl⟩

theorem exec_answered {s : State} (hs : s.regs.PhaseOk) (i : Instr) :
    (∃ t, exec i s = .next t) ∨
    (exec i s = .fault .byteInStarved ∧ ByteItem.packetEnd ∉ s.io.byteIn ∧ (i = .count ∨ i = .enc)) := by
  by_cases hi : i = .clr
  · subst hi
    exact .inl ⟨_, exec_clr s⟩
  rw [exec_eq i hi]
  rcases ifAdmitted_cases i s (fun s => complete i (runOf i s)) with ⟨f, -, h⟩ | ⟨-, -, h⟩ | ⟨-, ha, h⟩ <;> rw [h]
  · exact .inl ⟨_, rfl⟩
  · exact .inl ⟨_, rfl⟩
  · rcases complete_of_stuckOnly (runOf_stuckOnly hs ha) i with hnext | ⟨f, ⟨⟨rfl, hend⟩, hi⟩, hfault⟩
    · exact .inl hnext
    · exact .inr ⟨hfault, hend, hi⟩

/-- A reserved word is always answered (60_exceptions.md R226, R229). -/
theorem execReserved_answered (w : CmdWord) (s : State) : ∃ t, execReserved w s = .next t := by
  rw [execReserved]
  cases s.regs.fault with
  | some f => exact ⟨_, rfl⟩
  | none => exact ⟨_, rfl⟩

/-- A step on a reserved word answers it. -/
theorem step_of_decode_error {s : State} {w : CmdWord} {rest : List CmdWord} {e : DecodeReject}
    (hcmd : s.io.cmd = w :: rest) (hw : decode w = .error e) : step s = execReserved w (s.setCmd rest) := by
  rw [step, takeCommand, hcmd]
  simp only [hw]

/-- Settles O53. The CORE waits, answers a reserved word, or runs a command whose registers the phase table describes. -/
theorem everyCommandIsAnswered : Obligations.EveryCommandIsAnswered := by
  intro s hs
  cases hcmd : s.io.cmd with
  | nil => exact .inl ⟨s, step_of_cmd_nil hcmd⟩
  | cons w rest =>
    cases hw : decode w with
    | error e =>
      rw [step_of_decode_error hcmd hw]
      exact .inl (execReserved_answered w _)
    | ok i =>
      rw [step_of_decode_ok hcmd hw]
      obtain rfl := Laws.EncodeDecode.eq_encode hw
      rcases exec_answered (s := s.setCmd rest) hs.phase i with hnext | ⟨hfault, hend, hi⟩
      · exact .inl hnext
      · exact .inr ⟨hfault, hend, _, rest, rfl, hi.imp (congrArg encode) (congrArg encode)⟩

end Sys2Proof.Machine

/-! PROOFS. The tree builder (41_tree_builder.md): the sort and the merge, what BUILD answers, the priority queue of R130, and the
optimality of R131 (e). -/

namespace Sys2Proof.Machine

/-! ### The sort (R124, R125) -/

/-- The trees of every count together are all the trees. -/
theorem mem_iff_of_filter_count {v w : List Tree} {a : Tree}
    (h : ∀ c : Count, v.filter (fun t => t.count = c) = w.filter (fun t => t.count = c)) : a ∈ v ↔ a ∈ w := by
  simpa using congrArg (a ∈ ·) (h a.count)

/-- A sorted collection is its trees count by count, each count's trees in their order. -/
theorem SortedDesc.ext_filter {v w : List Tree} (hv : SortedDesc v) (hw : SortedDesc w)
    (h : ∀ c : Count, v.filter (fun t => t.count = c) = w.filter (fun t => t.count = c)) : v = w := by
  induction v generalizing w with
  | nil => exact (List.eq_nil_iff_forall_not_mem.2 fun _ ha => List.not_mem_nil ((mem_iff_of_filter_count h).2 ha)).symm
  | cons a v ih =>
    cases w with
    | nil => exact absurd ((mem_iff_of_filter_count h).1 List.mem_cons_self) List.not_mem_nil
    | cons b w =>
      have hle {x y : Tree} {l : List Tree} (hs : SortedDesc (x :: l)) (hy : y ∈ x :: l) :
          y.count.toNat ≤ x.count.toNat := by
        rcases List.mem_cons.1 hy with rfl | hy
        · exact Nat.le_refl _
        · exact (List.pairwise_cons.1 hs).1 y hy
      have hcount : b.count = a.count := BitVec.eq_of_toNat_eq <| Nat.le_antisymm
        (hle hv ((mem_iff_of_filter_count h).2 List.mem_cons_self))
        (hle hw ((mem_iff_of_filter_count h).1 List.mem_cons_self))
      obtain rfl : a = b := by
        have hhead := h a.count
        simp only [List.filter_cons, hcount, decide_true, if_true, List.cons.injEq] at hhead
        exact hhead.1
      have htail (c : Count) : v.filter (fun t => t.count = c) = w.filter (fun t => t.count = c) := by
        have hc := h c
        by_cases hac : a.count = c <;> simpa [List.filter_cons, hac] using hc
      rw [ih hv.of_cons hw.of_cons htail]

/-- Settles O17. The sort has the three properties, and only one list has the last two. -/
theorem stableSortDescends : Obligations.StableSortDescends := by
  intro w v
  constructor
  · rintro rfl
    exact ⟨sortDesc_perm w, sortDesc_sorted w, sortDesc_filter w⟩
  · rintro ⟨-, hsorted, hfilter⟩
    exact SortedDesc.ext_filter hsorted (sortDesc_sorted w) fun c => (hfilter c).trans (sortDesc_filter w c).symm

theorem sortDesc_of_sorted {w : List Tree} (h : SortedDesc w) : sortDesc w = w :=
  ((stableSortDescends w w).2 ⟨List.Perm.refl w, h, fun _ => rfl⟩).symm

theorem insertDesc_of_sorted {m : Tree} {w : List Tree} (h : SortedDesc w) :
    insertDesc m w = w.filter (fun t => decide (m.count.toNat < t.count.toNat)) ++
      m :: w.filter (fun t => decide (t.count.toNat ≤ m.count.toNat)) := by
  induction w with
  | nil => rfl
  | cons u us ih =>
    obtain ⟨hus, hsorted⟩ := List.pairwise_cons.1 h
    by_cases hum : u.count.toNat ≤ m.count.toNat
    · have hall : ∀ a ∈ u :: us, a.count.toNat ≤ m.count.toNat := by
        rintro a (_ | ⟨_, ha⟩)
        · exact hum
        · exact (hus a ha).trans hum
      rw [List.filter_eq_nil_iff.2 fun a ha => by simpa using hall a ha,
        List.filter_eq_self.2 fun a ha => by simpa using hall a ha, insertDesc, if_pos hum]
      rfl
    · simp [insertDesc, hum, ih hsorted, Nat.lt_of_not_le hum]

/-- Settles O19. The rest is sorted already, so the sort only inserts the merged node. -/
theorem mergedNodeStandsAheadOfItsPeers : Obligations.MergedNodeStandsAheadOfItsPeers := by
  intro m w hw
  rw [putBack, sortDesc, sortDesc_of_sorted hw, insertDesc_of_sorted hw]

/-! ### One pass (R126 to R129) -/

theorem mergePass_tail {w v : List Tree} {x y : Tree} (re : Reinsert) (pr : Pair) (h : sortDesc w = v ++ [y, x]) :
    mergePass re pr w = if 2 ^ 64 ≤ x.count.toNat + y.count.toNat then .tooLarge
      else .work (putBack re (mergeNodes pr x y) v) := by
  simp [mergePass, h]

/-- Settles O18. One tree is sorted; otherwise the pass takes the two trees at the tail. -/
theorem mergePassTakesTheTwoAtTheTail : Obligations.MergePassTakesTheTwoAtTheTail := by
  intro w v x y
  refine ⟨?_, fun h hfits => ?_, fun h hover => ?_⟩
  · rintro t rfl
    rfl
  · rw [mergePass_tail _ _ h, if_neg (Nat.not_le.2 hfits)]
    rfl
  · rw [mergePass_tail _ _ h, if_pos hover]

/-! ### The initial collection (R122) -/

theorem initialWork_char {o : Occ} : ∀ t ∈ initialWork o, ∃ b c, t = .char b c := fun _ ht =>
  (mem_initialWork ht).imp fun _ hb => ⟨_, hb.2⟩

/-- A collection of leaves has their counts. -/
theorem counts_of_leaves {w : List Tree} (h : ∀ t ∈ w, ∃ b c, t = .char b c) :
    (w.map fun t => t.count.toNat) = (w.flatMap Tree.chars).map fun x => x.2.toNat := by
  induction w with
  | nil => rfl
  | cons t ts ih =>
    obtain ⟨b, c, rfl⟩ := h t List.mem_cons_self
    rw [List.map_cons, ih fun u hu => h u (List.mem_cons_of_mem _ hu)]
    rfl

/-- BUILD's tree has the leaves of the initial collection (R131 (a)). -/
theorem chars_of_builtTree {o : Occ} {t : Tree} (h : builtTree o = .root t) :
    t.chars.Perm ((initialWork o).flatMap Tree.chars) := by
  have hne : initialWork o ≠ [] := by
    intro hnil
    simp [builtTree, hnil, greedy] at h
  rcases greedy_spec _ _ (Nat.le_refl _) hne with ⟨r, hr, -, hchars, -⟩ | ⟨hover, -⟩
  · rw [builtTree, hr] at h
    cases h
    exact hchars
  · rw [builtTree, hover] at h
    cases h

/-! ### What BUILD answers (R121, R123, R129, R131) -/

theorem exec_build {s : State} (hf : s.regs.fault = none) (hp : s.regs.phase = .counted) :
    exec .build s = complete .build (buildRun s) :=
  exec_admitted (by decide) hf (by simp [admits, hp])

/-- The greedy loop on a table that is not all 0: a tree of all counts, or an overflow where their sum does not fit 64 bits. -/
theorem builtTree_cases {o : Occ} (h : ∃ b, occGet o b ≠ 0) :
    (∃ t, builtTree o = .root t ∧ t.count.toNat = (allBytes.map fun b => (occGet o b).toNat).sum) ∨
    (builtTree o = .tooLarge ∧ 2 ^ 64 ≤ (allBytes.map fun b => (occGet o b).toNat).sum) := by
  rw [← total_initialWork]
  refine (greedy_spec _ _ (Nat.le_refl _) (h.elim fun _ => initialWork_ne_nil)).imp_left ?_
  rintro ⟨t, ht, hcount, -⟩
  exact ⟨t, ht, hcount⟩

theorem builtTree_single {o : Occ} {b : Byte} (hb : occGet o b ≠ 0) (h : ∀ c, occGet o c ≠ 0 → c = b) :
    builtTree o = .root (.char b (occGet o b)) := by
  rw [builtTree, initialWork_single hb h]
  rfl

/-- Settles O20. With a sum that fits there is no overflow, so the loop ends in a tree; its leaves are those of the initial
collection. -/
theorem buildMakesTheGreedyTree : Obligations.BuildMakesTheGreedyTree := by
  intro s hf hp hocc hfits
  rcases builtTree_cases hocc with ⟨t, ht, hcount⟩ | ⟨-, hover⟩
  · have hok := builtOk_of_builtTree ht
    simp only [Tree.builtOk, Bool.and_eq_true, Bool.not_eq_true', decide_eq_true_eq] at hok
    obtain ⟨⟨heos, hleaves⟩, hcountOk⟩ := hok
    refine ⟨t, ht, ?_, chars_initialWork _ ▸ chars_of_builtTree ht, heos, hleaves, hcountOk, hcount, fun b hb => ?_⟩
    · rw [exec_build hf hp, buildRun_eq hocc, ht]
      rfl
    · obtain ⟨c, hc⟩ := hocc
      have hroot := builtTree_single (hb c hc ▸ hc) hb
      rw [ht] at hroot
      cases hroot
      rfl
  · omega

/-- Settles O23. No byte value has a leaf, so WORK is empty before the loop. -/
theorem buildOnEmptyInputFaults : Obligations.BuildOnEmptyInputFaults := by
  intro s hf hp hzero
  have hrun : buildRun s = .raised .empty (s.setWork []) := by
    simp [buildRun, initialWork_eq_nil hzero]
  rw [exec_build hf hp, hrun]
  rfl

/-- Settles O24. A tree's count is 64 bits wide and would be the sum, so the loop ends in the overflow. -/
theorem buildOverflowFaults : Obligations.BuildOverflowFaults := by
  intro s hf hp hover
  have hocc : ∃ b, occGet s.regs.occ b ≠ 0 := by
    by_contra hzero
    have hsum := total_initialWork s.regs.occ
    rw [initialWork_eq_nil (by simpa using hzero)] at hsum
    rw [← hsum] at hover
    exact absurd hover (by decide)
  rcases builtTree_cases hocc with ⟨t, -, hcount⟩ | ⟨hover, -⟩
  · exact absurd t.count.isLt (by omega)
  · rw [exec_build hf hp, buildRun_eq hocc, hover]
    rfl

/-! ### The priority queue (R130) -/

/-- The queue entries `L`, first to pop first, of the collection `w` when the next node is created as number `k`: the sorted
collection from its tail, in the order of R130. -/
structure PopOrder (k : Nat) (w : List Tree) (L : List Queued) : Prop where
  nodes : sortDesc w = (L.map Queued.node).reverse
  ordered : L.Pairwise Queued.Before
  older : ∀ e ∈ L, e.created < k ∨ ∃ b c, e.node = .char b c
  noEos : ∀ e ∈ L, e.node ≠ .eos

/-- A smaller count pops first. -/
theorem Queued.before_of_count_lt {a b : Queued} (h : a.node.count.toNat < b.node.count.toNat) : a.Before b := by
  simp [Queued.Before, Queued.popsBefore, h]

/-- Of two leaves the one that stands later in the sorted collection pops first (R125). -/
theorem Queued.before_of_leafLater {a b : Queued} (h : leafLater b.node a.node) : a.Before b := by
  obtain ⟨x, c, y, d, hb, ha, hlt | ⟨rfl, hxy⟩⟩ := h
  · exact before_of_count_lt (by simpa [ha, hb, Tree.count] using hlt)
  · simp [Queued.Before, Queued.popsBefore, ha, hb, Tree.count, hxy]

/-- A node created now pops after every entry whose count is not larger (R125). -/
theorem Queued.before_created {e : Queued} {k : Nat} {c : Count} {l r : Tree}
    (hcount : e.node.count.toNat ≤ c.toNat) (hold : e.created < k ∨ ∃ b c, e.node = .char b c) (heos : e.node ≠ .eos) :
    e.Before { node := .inner c l r, created := k } := by
  rcases Nat.lt_or_eq_of_le hcount with hlt | heq
  · exact before_of_count_lt hlt
  · obtain rfl : e.node.count = c := BitVec.eq_of_toNat_eq heq
    obtain ⟨node, created⟩ := e
    cases node with
    | char b d => simp [Queued.Before, Queued.popsBefore, Tree.count]
    | inner d l' r' =>
      have hlt : created < k := hold.resolve_right nofun
      simp [Queued.Before, Queued.popsBefore, Tree.count, hlt]
    | eos => exact absurd rfl heos

/-- The initial queue in its order of popping. -/
theorem popOrder_initialWork (o : Occ) : PopOrder 0 (initialWork o)
    ((sortDesc (initialWork o)).reverse.map fun t => { node := t, created := 0 }) := by
  have hentry : ∀ e ∈ (sortDesc (initialWork o)).reverse.map fun t => ({ node := t, created := 0 } : Queued),
      ∃ b c, e.node = .char b c := by
    intro e he
    obtain ⟨t, ht, rfl⟩ := List.mem_map.1 he
    exact initialWork_char t ((sortDesc_perm _).mem_iff.1 (List.mem_reverse.1 ht))
  refine ⟨by simp [Function.comp_def], ?_, fun e he => .inr (hentry e he), fun e he => ?_⟩
  · rw [List.pairwise_map, List.pairwise_reverse]
    exact (sortDesc_later (initialWork_asc o) initialWork_char).imp fun h => Queued.before_of_leafLater h
  · obtain ⟨b, c, h⟩ := hentry e he
    rw [h]
    exact nofun

/-- The entries after a merge: the new node pops after every entry whose count is not larger. -/
def insertQueued (m : Queued) (L : List Queued) : List Queued :=
  L.filter (fun e => decide (e.node.count.toNat ≤ m.node.count.toNat)) ++
    m :: L.filter (fun e => decide (m.node.count.toNat < e.node.count.toNat))

theorem insertQueued_perm (m : Queued) (L : List Queued) : (insertQueued m L).Perm (m :: L) := by
  have hnot : (fun e : Queued => decide (m.node.count.toNat < e.node.count.toNat)) =
      fun e => !decide (e.node.count.toNat ≤ m.node.count.toNat) := by
    funext e
    rw [← decide_not, decide_eq_decide, Nat.not_le]
  rw [insertQueued, hnot]
  exact List.perm_middle.trans ((List.filter_append_perm _ L).cons m)

/-- One pass over the collection and one pop of a pair keep the order of popping (R125, R128). -/
theorem PopOrder.merge {k : Nat} {w : List Tree} {x y : Queued} {L : List Queued} (h : PopOrder k w (x :: y :: L)) :
    PopOrder (k + 1) (mergeNodes Config.pair x.node y.node :: (L.map Queued.node).reverse)
      (insertQueued { node := mergeNodes Config.pair x.node y.node, created := k } L) := by
  obtain ⟨hnodes, hordered, holder, heos⟩ := h
  have hordered : L.Pairwise Queued.Before := hordered.of_cons.of_cons
  have hsorted : SortedDesc (L.map Queued.node).reverse := by
    have hs := sortDesc_sorted w
    rw [hnodes] at hs
    exact hs.sublist (by simp)
  have hmem {e : Queued} (he : e ∈ L) : e ∈ x :: y :: L := by simp [he]
  have hperm := insertQueued_perm { node := mergeNodes Config.pair x.node y.node, created := k } L
  refine ⟨?_, ?_, fun e he => ?_, fun e he => ?_⟩
  · rw [sortDesc, sortDesc_of_sorted hsorted, insertDesc_of_sorted hsorted]
    simp [insertQueued, List.filter_map, List.filter_reverse, Function.comp_def]
  · refine List.pairwise_append.2 ⟨hordered.filter _, List.pairwise_cons.2 ⟨fun e he => ?_, hordered.filter _⟩,
      fun e he f hf => ?_⟩
    · exact Queued.before_of_count_lt (by simpa using (List.mem_filter.1 he).2)
    · obtain ⟨he, hle⟩ := List.mem_filter.1 he
      have hle := of_decide_eq_true hle
      rcases List.mem_cons.1 hf with rfl | hf
      · exact Queued.before_created hle (holder e (hmem he)) (heos e (hmem he))
      · exact Queued.before_of_count_lt (hle.trans_lt (by simpa using (List.mem_filter.1 hf).2))
  · rcases List.mem_cons.1 (hperm.mem_iff.1 he) with rfl | he
    · exact .inl (Nat.lt_succ_self k)
    · exact (holder e (hmem he)).imp_left Nat.lt_succ_of_lt
  · rcases List.mem_cons.1 (hperm.mem_iff.1 he) with rfl | he
    · exact nofun
    · exact heos e (hmem he)

/-- The two loops step together: each pass takes the same pair, in any arrangement of the queue. -/
theorem queueBuild_eq_greedy (n k : Nat) {w : List Tree} {L q : List Queued} (h : PopOrder k w L) (hq : q.Perm L) :
    queueBuild n k q = greedy n w := by
  induction n generalizing k w L q with
  | zero => rfl
  | succ n ih =>
    have hpop := popFirst_spec hq h.ordered
    have hnodes := h.nodes
    match L, h with
    | [], _ =>
      have hpass : mergePass Config.reinsert Config.pair w = .none := by simp [mergePass, hnodes]
      simp only at hpop
      simp only [queueBuild, greedy, hpop, hpass]
    | [x], _ =>
      obtain ⟨r, hx, hr⟩ := hpop
      have hpass : mergePass Config.reinsert Config.pair w = .root x.node := by simp [mergePass, hnodes]
      simp only [queueBuild, greedy, hx, hr.eq_nil, popFirst, hpass]
    | x :: y :: L, h =>
      obtain ⟨r, hx, hr⟩ := hpop
      obtain ⟨r', hy, hr'⟩ := popFirst_spec hr h.ordered.of_cons
      have hpass := mergePass_tail (v := (L.map Queued.node).reverse) (x := x.node) (y := y.node) Config.reinsert
        Config.pair (by simpa using hnodes)
      simp only [queueBuild, greedy, hx, hy, hpass]
      split
      · rfl
      · exact ih (k + 1) h.merge ((hr'.cons _).trans (insertQueued_perm _ L).symm)

/-- Settles O21. The sorted collection read from its tail is the queue's order of popping, and every pass keeps it so. -/
theorem priorityQueueGivesTheSameTree : Obligations.PriorityQueueGivesTheSameTree := by
  intro o q hq
  have hlength : q.length = (initialWork o).length := by simpa using hq.length_eq
  have hsort : (initialWork o).Perm (sortDesc (initialWork o)).reverse :=
    ((List.reverse_perm _).trans (sortDesc_perm _)).symm
  rw [builtTree, hlength]
  exact queueBuild_eq_greedy _ 0 (popOrder_initialWork o) (hq.trans (hsort.map _))

/-! ### Optimality (R131 (e)) -/

/-- The sum over the leaves of a collection of count times depth, each tree from its own root. -/
def totalCost (w : List Tree) : Nat := (w.map fun t => t.cost 0).sum

theorem totalCost_cons (t : Tree) (w : List Tree) : totalCost (t :: w) = t.cost 0 + totalCost w := rfl

theorem totalCost_perm {v w : List Tree} (h : v.Perm w) : totalCost v = totalCost w := (h.map _).sum_eq

/-- The greedy tree is at most as costly as any tree `T` over the collection's trees: `T` can be changed at no cost into one in
which the loop's pair is merged (`WeightTree.merge_min`), and the rest is the loop on one tree less. -/
theorem greedy_cost_le {n : Nat} {w : List Tree} {t : Tree} (h : greedy n w = .root t) (hw : ∀ u ∈ w, u.countOk = true)
    {T : WeightTree} (hT : ((T.leafDepths 0).map Prod.fst).Perm (w.map fun u => u.count.toNat)) :
    t.cost 0 ≤ totalCost w + weightedDepth (T.leafDepths 0) := by
  induction n generalizing w T with
  | zero => cases h
  | succ n ih =>
    rw [greedy] at h
    rcases mergePass_cases w with ⟨-, hm⟩ | ⟨r, rfl, hm⟩ | ⟨x, y, v, hp, hx, hy, ⟨-, hm⟩ | ⟨hfits, hm⟩⟩
    all_goals rw [hm] at h
    · cases h
    · cases h
      simp [totalCost]
    · cases h
    · have hcount : (x.count + y.count).toNat = x.count.toNat + y.count.toNat := by
        rw [BitVec.toNat_add, Nat.mod_eq_of_lt hfits]
      have hxOk := hw x (hp.mem_iff.2 (by simp))
      have hyOk := hw y (hp.mem_iff.2 (by simp))
      have hmergedOk : ∀ u ∈ .inner (x.count + y.count) x y :: v, u.countOk = true := by
        intro u hu
        rcases List.mem_cons.1 hu with rfl | hu
        · simp [Tree.countOk, hcount, hxOk, hyOk]
        · exact hw u (hp.mem_iff.2 (by simp [hu]))
      obtain ⟨T', hT', hcheaper⟩ : ∃ T' : WeightTree, ((T'.leafDepths 0).map Prod.fst).Perm
          ((x.count.toNat + y.count.toNat) :: v.map fun u => u.count.toNat) ∧
          weightedDepth (T'.leafDepths 0) + (x.count.toNat + y.count.toNat) ≤ weightedDepth (T.leafDepths 0) :=
        WeightTree.merge_min (hT.trans (hp.map _)) (List.forall_mem_map.2 hx) (List.forall_mem_map.2 hy)
      have hrest := ih h hmergedOk (T := T') (by rwa [List.map_cons, Tree.count, hcount])
      rw [totalCost_perm hp]
      simp only [totalCost_cons, Tree.cost, Tree.cost_succ hxOk, Tree.cost_succ hyOk] at hrest ⊢
      omega

theorem totalCost_of_leaves {w : List Tree} (h : ∀ t ∈ w, ∃ b c, t = .char b c) : totalCost w = 0 :=
  List.sum_eq_zero <| List.forall_mem_map.2 fun t ht => by
    obtain ⟨b, c, rfl⟩ := h t ht
    rfl

/-- Settles O22. Any other tree's counts are a tree over the leaves of the initial collection, which are at depth 0. -/
theorem buildMinimisesTheCodedLength : Obligations.BuildMinimisesTheCodedLength := by
  intro o t u ht hu hchars
  have hok : ∀ v ∈ initialWork o, v.countOk = true := by
    intro v hv
    obtain ⟨b, c, rfl⟩ := initialWork_char v hv
    rfl
  have hweights : ((u.skel.leafDepths 0).map Prod.fst).Perm ((initialWork o).map fun v => v.count.toNat) := by
    rw [Tree.skel_leaves hu, counts_of_leaves initialWork_char]
    exact (hchars.trans (chars_of_builtTree ht)).map _
  have hle := greedy_cost_le ht hok hweights
  rwa [totalCost_of_leaves initialWork_char, Tree.skel_cost, Nat.zero_add] at hle

end Sys2Proof.Machine

/-! PROOFS. The tree codec (42_tree_codec.md): SER on the header of TREE (R141), and where DESER stops inside a header (R146,
R148): at its end, at its 256th Inner flag, at a failing transfer. -/

namespace Sys2Proof.Machine

/-! ### SER (R141) -/

/-- Settles O27. Admitted on a tree without `Eos`, SER is `BitWriteSeq` of the header; it leaves the phase it found. -/
theorem serWritesTheHeader : Obligations.SerWritesTheHeader := by
  intro s t hf hp htree hEos
  have hexec {r : Run} (hr : bitWriteSeq t.ser s = r) : exec .ser s = complete .ser r := by
    rw [exec_admitted (by decide) hf (by simp [admits, hp]), runOf, serRun, htree, ← hr]
    simp [hEos]
  refine ⟨fun hq => ?_, fun k hk hfails => hexec (bitWriteSeq_failsAt hfails hk)⟩
  rw [hexec (bitWriteSeq_quiet hq), complete_done, phaseAfter, ← hp]
  rfl

/-! ### The subtrees of a header -/

/-- After the bits `pre` of the header of a tree, read in `j` transfers and with `i` Inner flags among them, the header of the
subtree `u` is due (30_encoding.md R90, 42_tree_codec.md R146). -/
inductive Tree.Due (u : Tree) : Tree → Bits → Nat → Nat → Prop where
  | here : Tree.Due u u [] 0 0
  | left {c : Count} {l r : Tree} {pre : Bits} {j i : Nat} :
    Tree.Due u l pre j i → Tree.Due u (.inner c l r) (false :: pre) (1 + j) (i + 1)
  | right {c : Count} {l r : Tree} {pre : Bits} {j i : Nat} :
    Tree.Due u r pre j i →
      Tree.Due u (.inner c l r) (false :: (l.ser ++ pre)) (1 + (l.reads + j)) (l.inners + i + 1)

/-- The header goes on with that of the subtree due. -/
theorem Tree.Due.ser_eq {u t : Tree} {pre : Bits} {j i : Nat} (h : u.Due t pre j i) :
    ∃ post, t.ser = pre ++ u.ser ++ post := by
  induction h with
  | here => exact ⟨[], by simp⟩
  | @left c l r pre j i _ ih =>
    obtain ⟨post, hl⟩ := ih
    exact ⟨post ++ r.ser, by simp [Tree.ser, hl]⟩
  | @right c l r pre j i _ ih =>
    obtain ⟨post, hr⟩ := ih
    exact ⟨post, by simp [Tree.ser, hr]⟩

theorem Tree.Due.inners_le {u t : Tree} {pre : Bits} {j i : Nat} (h : u.Due t pre j i) : i ≤ t.inners := by
  induction h with
  | here => exact Nat.zero_le _
  | left _ ih => simp only [Tree.inners]; omega
  | right _ ih => simp only [Tree.inners]; omega

theorem Tree.Due.hasEos {u t : Tree} {pre : Bits} {j i : Nat} (h : u.Due t pre j i) (ht : t.hasEos = false) :
    u.hasEos = false := by
  induction h with
  | here => exact ht
  | left _ ih => exact ih (Bool.or_eq_false_iff.1 ht).1
  | right _ ih => exact ih (Bool.or_eq_false_iff.1 ht).2

theorem Tree.ser_ne_nil {t : Tree} (ht : t.hasEos = false) : t.ser ≠ [] := by
  cases t with
  | char b c => exact List.cons_ne_nil _ _
  | eos => cases ht
  | inner c l r => exact List.cons_ne_nil _ _

/-- With a bit unread, the bound on the calls of `Parse` allows one more (log entry 12). -/
theorem exists_succ_of_unread {s : State} {x : Bit} {rest : Bits} {n : Nat} (hb : s.io.bitIn = x :: rest)
    (hn : s.io.bitIn.length ≤ n) : ∃ m, n = m + 1 :=
  Nat.exists_eq_add_one.2 (lt_of_lt_of_le (by simp [hb]) hn)

/-- `Parse` on a header raises what it raises where the subtree due is read, if all that is before it is read: the calls
around that one pass its fault on. -/
theorem parse_raised_of_due {u t : Tree} {pre : Bits} {j i : Nat} (h : u.Due t pre j i) (ht : t.hasEos = false) {s : State}
    {rest : Bits} {n ni : Nat} (hb : s.io.bitIn = pre ++ rest) (hn : s.io.bitIn.length ≤ n) (hi : ni + i ≤ 255)
    (hq : s.io.errors.quiet .bitIn j) {c : Cause} {v : State}
    (hstop : ∀ m, rest.length ≤ m → parse m (ni + i) (s.took j (pre.map .inBit) rest) = .raised c v) :
    parse n ni s = .raised c v := by
  induction h generalizing s n ni with
  | here =>
    obtain rfl : s.io.bitIn = rest := hb
    simpa [State.took_zero] using hstop n hn
  | @left _ l r pre j i _ ih =>
    obtain ⟨htl, -⟩ := Bool.or_eq_false_iff.1 ht
    obtain ⟨hq1, hql⟩ := (IoErrors.quiet_add _ _ _ _).1 hq
    obtain ⟨n, rfl⟩ := exists_succ_of_unread hb hn
    have hleft : parse n (ni + 1) (s.took 1 [.inBit false] (pre ++ rest)) = .raised c v := by
      refine ih htl rfl (by simpa [hb] using hn) (by omega) hql fun m hm => ?_
      rw [State.took_took, Nat.add_right_comm]
      exact hstop m hm
    rw [parse_zero_flag n ni hq1 (rest := pre ++ rest) hb, if_neg (by omega), hleft]
  | @right _ l r pre j i _ ih =>
    obtain ⟨htl, htr⟩ := Bool.or_eq_false_iff.1 ht
    obtain ⟨hq1, hqlr⟩ := (IoErrors.quiet_add _ _ _ _).1 hq
    obtain ⟨hql, hqr⟩ := (IoErrors.quiet_add _ _ _ _).1 hqlr
    have hbits : s.io.bitIn = false :: (l.ser ++ (pre ++ rest)) := by simpa using hb
    obtain ⟨n, rfl⟩ := exists_succ_of_unread hbits hn
    simp only [hbits, List.length_cons, List.length_append] at hn
    have hright : parse n (ni + 1 + l.inners)
        ((s.took 1 [.inBit false] (l.ser ++ (pre ++ rest))).took l.reads (l.ser.map .inBit) (pre ++ rest)) = .raised c v := by
      refine ih htr rfl (by simp; omega) (by omega) hqr fun m hm => ?_
      rw [State.took_took, State.took_took, show ni + 1 + l.inners + i = ni + (l.inners + i + 1) by omega]
      simpa [Nat.add_assoc] using hstop m hm
    rw [parse_zero_flag n ni hq1 hbits, if_neg (by omega),
      parse_ser htl n (ni + 1) (by omega) (by omega) rfl hql]
    simp only [hright]

/-- The same of DESER, whose count of Inner flags begins at 0. -/
theorem deserRun_raised_of_due {u t : Tree} {pre : Bits} {j i : Nat} (h : u.Due t pre j i) (ht : t.hasEos = false) {s : State}
    {rest : Bits} (hb : s.io.bitIn = pre ++ rest) (hi : i ≤ 255) (hq : s.io.errors.quiet .bitIn j) {c : Cause} {v : State}
    (hstop : ∀ m, rest.length ≤ m → parse m i (s.took j (pre.map .inBit) rest) = .raised c v) :
    deserRun s = .raised c v := by
  rw [deserRun, parse_raised_of_due h ht hb (Nat.le_refl _) (by omega) hq (by simpa using hstop)]

theorem exec_deser_raised {s : State} (hf : s.regs.fault = none) (hp : s.regs.phase = .idle) {c : Cause} {v : State}
    (hr : deserRun s = .raised c v) : exec .deser s = .next (faultEntry 0b0101#4 c v) := by
  rw [exec_admitted (by decide) hf (by simp [admits, hp]), runOf, hr]
  rfl

/-! ### A header cut short (R146) -/

theorem Tree.flagPosition_bounds {t : Tree} {p q : Nat} (h : q ∈ (t.flags p).map Prod.fst) :
    p ≤ q ∧ q < p + t.ser.length := by
  obtain ⟨f, hf, rfl⟩ := List.mem_map.1 h
  exact Tree.flags_bounds hf

/-- A position inside the left subtree's header is a flag's where it is one of that subtree's flags. -/
theorem Tree.mem_flags_inner_left {c : Count} {l r : Tree} {p q : Nat} (hp : p < q) (hq : q < p + 1 + l.ser.length) :
    q ∈ ((Tree.inner c l r).flags p).map Prod.fst ↔ q ∈ (l.flags (p + 1)).map Prod.fst := by
  have hr : q ∉ (r.flags (p + 1 + l.ser.length)).map Prod.fst := fun h => by
    have := Tree.flagPosition_bounds h
    omega
  simp only [Tree.flags, List.map_cons, List.map_append, List.mem_cons, List.mem_append, hr, or_false]
  exact or_iff_right (by omega)

/-- A position past the left subtree's header is a flag's where it is one of the right subtree's flags. -/
theorem Tree.mem_flags_inner_right {c : Count} {l r : Tree} {p q : Nat} (hq : p + 1 + l.ser.length ≤ q) :
    q ∈ ((Tree.inner c l r).flags p).map Prod.fst ↔ q ∈ (r.flags (p + 1 + l.ser.length)).map Prod.fst := by
  have hl : q ∉ (l.flags (p + 1)).map Prod.fst := fun h => by
    have := Tree.flagPosition_bounds h
    omega
  simp only [Tree.flags, List.map_cons, List.map_append, List.mem_cons, List.mem_append, hl, false_or]
  exact or_iff_right (by omega)

/-- A cut leaves a flag due, or stands inside the byte value of the leaf whose flag is the last one read. -/
theorem Tree.due_of_cut {t : Tree} {cut : Bits} (ht : t.hasEos = false) (hcut : cut <+: t.ser) (hne : cut ≠ t.ser) (p : Nat) :
    ∃ u pre j i, Tree.Due u t pre j i ∧
      ((p + cut.length ∈ (t.flags p).map Prod.fst ∧ cut = pre) ∨
       (p + cut.length ∉ (t.flags p).map Prod.fst ∧ (p + pre.length, true) ∈ t.flags p ∧
        ∃ g, g.length < 8 ∧ cut = pre ++ true :: g)) := by
  induction t generalizing cut p with
  | eos => cases ht
  | char b c =>
    refine ⟨_, [], 0, 0, .here, ?_⟩
    cases cut with
    | nil => exact .inl ⟨by simp [Tree.flags], rfl⟩
    | cons x g =>
      obtain ⟨rfl, hg⟩ := List.cons_prefix_cons.1 hcut
      have hshort : g.length < 8 :=
        lt_of_le_of_ne hg.length_le fun hlen => hne (congrArg _ (hg.eq_of_length hlen))
      exact .inr ⟨by simp [Tree.flags], by simp [Tree.flags], g, hshort, rfl⟩
  | inner c l r hl hr =>
    obtain ⟨htl, htr⟩ := Bool.or_eq_false_iff.1 ht
    cases cut with
    | nil => exact ⟨_, [], 0, 0, .here, .inl ⟨by simp [Tree.flags], rfl⟩⟩
    | cons x cut =>
      obtain ⟨rfl, hrest : cut <+: l.ser ++ r.ser⟩ := List.cons_prefix_cons.1 hcut
      by_cases hleft : cut <+: l.ser ∧ cut ≠ l.ser
      · obtain ⟨hcl, hnl⟩ := hleft
        have hlt : cut.length < l.ser.length := lt_of_le_of_ne hcl.length_le fun hlen => hnl (hcl.eq_of_length hlen)
        obtain ⟨u, pre, j, i, hdue, hcase⟩ := hl htl hcl hnl (p + 1)
        refine ⟨u, _, _, _, hdue.left, ?_⟩
        rw [List.length_cons, Tree.mem_flags_inner_left (by omega) (by omega), Nat.add_comm cut.length 1, ← Nat.add_assoc]
        rcases hcase with ⟨hmem, rfl⟩ | ⟨hmem, hflag, g, hg, rfl⟩
        · exact .inl ⟨hmem, rfl⟩
        · refine .inr ⟨hmem, ?_, g, hg, rfl⟩
          rw [List.length_cons, Nat.add_comm pre.length 1, ← Nat.add_assoc]
          exact List.mem_cons_of_mem _ (List.mem_append_left _ hflag)
      · obtain ⟨cut, rfl⟩ : l.ser <+: cut := by
          rcases List.prefix_or_prefix_of_prefix hrest (List.prefix_append l.ser r.ser) with hcl | hlc
          · exact (not_not.1 fun hnl => hleft ⟨hcl, hnl⟩) ▸ List.prefix_rfl
          · exact hlc
        obtain ⟨u, pre, j, i, hdue, hcase⟩ := hr htr ((List.prefix_append_right_inj _).1 hrest)
          (fun hcr => hne (by rw [Tree.ser, hcr])) (p + 1 + l.ser.length)
        refine ⟨u, _, _, _, hdue.right, ?_⟩
        have hpos (x : Bits) : p + (false :: (l.ser ++ x)).length = p + 1 + l.ser.length + x.length := by
          simp only [List.length_cons, List.length_append]; omega
        rw [hpos, hpos, Tree.mem_flags_inner_right (by omega)]
        rcases hcase with ⟨hmem, rfl⟩ | ⟨hmem, hflag, g, hg, rfl⟩
        · exact .inl ⟨hmem, rfl⟩
        · exact .inr ⟨hmem, List.mem_cons_of_mem _ (List.mem_append_right _ hflag), g, hg, by simp⟩

/-- A leaf's flag with too few bits after it for its byte value. -/
theorem parse_leaf_short {s : State} {g : Bits} {n : Nat} (ni : Nat) (hb : s.io.bitIn = true :: g) (hg : g.length < 8)
    (hn : s.io.bitIn.length ≤ n) (hq : s.io.errors.quiet .bitIn 2) :
    parse n ni s = .raised (.prematureEos .hdrByte) (s.took 2 [.inBit true, .inShort] g) := by
  obtain ⟨n, rfl⟩ := exists_succ_of_unread hb hn
  obtain ⟨hq1, hq2⟩ := (IoErrors.quiet_add _ _ 1 1).1 hq
  rw [parse_one n ni hq1 hb]
  rcases bitReadN_cases 8 (s.took 1 [.inBit true] g) with ⟨hfails, -⟩ | ⟨-, -, hr⟩ | ⟨-, hlen, -⟩
  · rw [State.fails_of_quiet hq2] at hfails
    cases hfails
  · rw [hr, State.moved_eq_took (State.took_bitIn _ _ _ _)]
    simp only [State.took_took]
    rfl
  · exact absurd hg (Nat.not_lt.2 hlen)

/-- Settles O30. Where the cut leaves a flag due `Parse` finds no bit; anywhere else it reads a leaf's flag and too few bits
after it. -/
theorem deserOnACutHeaderFaults : Obligations.DeserOnACutHeaderFaults := by
  intro s t hf hp ht hcap hcut hne hquiet
  have hleaves := t.leaves_eq
  obtain ⟨u, pre, j, i, hdue, hcase⟩ := Tree.due_of_cut ht hcut hne 0
  have hi : i ≤ 255 := hdue.inners_le.trans (by omega)
  rw [Nat.zero_add, Nat.zero_add] at hcase
  rcases hcase with ⟨hmem, hpre⟩ | ⟨hmem, hflag, g, hg, hpre⟩
  · have hr : deserRun s = .raised (.prematureEos .hdrFlag) (s.took j (pre.map .inBit) []) :=
      deserRun_raised_of_due hdue ht (by simpa using hpre) hi (hquiet.quiet _ _) fun m _ => parse_nil rfl m i
    exact ⟨_, exec_deser_raised hf hp hr, fun _ => ⟨rfl, rfl, by rw [hpre]; rfl⟩, absurd hmem⟩
  · have hr : deserRun s = .raised (.prematureEos .hdrByte)
        ((s.took j (pre.map .inBit) (true :: g)).took 2 [.inBit true, .inShort] g) :=
      deserRun_raised_of_due hdue ht hpre hi (hquiet.quiet _ _) fun m hm =>
        parse_leaf_short i rfl hg hm ((hquiet.after .bitIn j).quiet .bitIn _)
    refine ⟨_, exec_deser_raised hf hp hr, fun h => absurd h hmem, fun _ => ⟨rfl, pre.length, hflag, ?_⟩⟩
    rw [hpre]
    simp only [List.length_append, List.length_cons]
    exact ⟨by omega, by omega, by simp, by simp [List.take_append]⟩

/-! ### The 256th Inner flag (R148) -/

/-- The Inner flag at index `m` is that of an Inner node, due after `m` Inner flags. -/
theorem Tree.due_of_innerFlag {t : Tree} {p m k : Nat} (h : (t.innerFlags p)[m]? = some k) :
    ∃ c l r pre j, Tree.Due (.inner c l r) t pre j m ∧ k = p + pre.length := by
  induction t generalizing p m with
  | char b c => cases h
  | eos => cases h
  | inner c l r hl hr =>
    rw [Tree.innerFlags_inner] at h
    cases m with
    | zero => exact ⟨c, l, r, [], 0, .here, (Option.some.inj h).symm⟩
    | succ m =>
      rw [List.getElem?_cons_succ] at h
      by_cases hm : m < l.inners
      · rw [List.getElem?_append_left (by simpa using hm)] at h
        obtain ⟨c', l', r', pre, j, hdue, rfl⟩ := hl h
        exact ⟨c', l', r', _, _, hdue.left, by rw [List.length_cons]; omega⟩
      · obtain ⟨m, rfl⟩ := Nat.exists_eq_add_of_le (Nat.le_of_not_lt hm)
        rw [List.getElem?_append_right (by simp), Tree.length_innerFlags, Nat.add_sub_cancel_left] at h
        obtain ⟨c', l', r', pre, j, hdue, rfl⟩ := hr h
        exact ⟨c', l', r', _, _, hdue.right, by rw [List.length_cons, List.length_append]; omega⟩

/-- An Inner flag with 255 before it. -/
theorem parse_capacity {s : State} {rest : Bits} {n : Nat} (hb : s.io.bitIn = false :: rest) (hn : s.io.bitIn.length ≤ n)
    (hq : s.io.errors.quiet .bitIn 1) : parse n 255 s = .raised .capacity (s.took 1 [.inBit false] rest) := by
  obtain ⟨n, rfl⟩ := exists_succ_of_unread hb hn
  rw [parse_zero_flag n 255 hq hb, if_pos rfl]

/-- Settles O31. A tree has one Inner flag less than leaves, and `Parse` reads the 256th with 255 before it. -/
theorem deserRefusesOversizedHeaders : Obligations.DeserRefusesOversizedHeaders := by
  refine ⟨fun t _ => ?_, fun s t k rest hf hp ht hk hb hquiet => ?_⟩
  · have hleaves := t.leaves_eq
    rw [← Option.isSome_iff_exists, isSome_getElem?, Tree.length_innerFlags]
    omega
  · obtain ⟨c, l, r, pre, j, hdue, hlen⟩ := Tree.due_of_innerFlag hk
    obtain rfl : k = pre.length := by simpa using hlen
    have htake : t.ser.take (pre.length + 1) = pre ++ [false] := by
      obtain ⟨post, hser⟩ := hdue.ser_eq
      simp [hser, Tree.ser, List.take_append]
    have hr : deserRun s = .raised .capacity ((s.took j (pre.map .inBit) (false :: rest)).took 1 [.inBit false] rest) :=
      deserRun_raised_of_due hdue ht (by simpa [htake] using hb) (Nat.le_refl _) (hquiet.quiet _ _) fun m hm =>
        parse_capacity rfl hm ((hquiet.after .bitIn j).quiet .bitIn _)
    refine ⟨_, exec_deser_raised hf hp hr, rfl, rfl, ?_⟩
    simp [htake]

/-! ### A failing transfer (R146, R224) -/

/-- Every transfer of a header reads the flag of a subtree, or the byte value after a leaf's flag. -/
theorem Tree.due_of_transfer {t : Tree} (ht : t.hasEos = false) {k : Nat} (hk : k < t.readWidths.length) :
    ∃ u pre j i, Tree.Due u t pre j i ∧
      ((k = j ∧ (t.readWidths.take k).sum = pre.length) ∨
       (k = j + 1 ∧ (t.readWidths.take k).sum = pre.length + 1 ∧ ∃ b c, u = .char b c)) := by
  induction t generalizing k with
  | eos => cases ht
  | char b c =>
    refine ⟨_, [], 0, 0, .here, ?_⟩
    match k, hk with
    | 0, _ => exact .inl ⟨rfl, rfl⟩
    | 1, _ => exact .inr ⟨rfl, rfl, b, c, rfl⟩
  | inner c l r hl hr =>
    obtain ⟨htl, htr⟩ := Bool.or_eq_false_iff.1 ht
    rw [Tree.readWidths] at hk ⊢
    cases k with
    | zero => exact ⟨_, [], 0, 0, .here, .inl ⟨rfl, rfl⟩⟩
    | succ k =>
      rw [List.take_succ_cons, List.sum_cons]
      by_cases hkl : k < l.readWidths.length
      · obtain ⟨u, pre, j, i, hdue, hcase⟩ := hl htl hkl
        refine ⟨u, _, _, _, hdue.left, ?_⟩
        rw [List.take_append_of_le_length (Nat.le_of_lt hkl), List.length_cons]
        rcases hcase with ⟨rfl, hsum⟩ | ⟨rfl, hsum, hleaf⟩
        · exact .inl ⟨by omega, by omega⟩
        · exact .inr ⟨by omega, by omega, hleaf⟩
      · obtain ⟨k, rfl⟩ := Nat.exists_eq_add_of_le (Nat.le_of_not_lt hkl)
        obtain ⟨u, pre, j, i, hdue, hcase⟩ := hr htr (k := k) (by simpa using hk)
        refine ⟨u, _, _, _, hdue.right, ?_⟩
        rw [List.take_length_add_append, List.sum_append, Tree.sum_readWidths, Tree.length_readWidths htl, List.length_cons,
          List.length_append]
        rcases hcase with ⟨rfl, hsum⟩ | ⟨rfl, hsum, hleaf⟩
        · exact .inl ⟨by omega, by omega⟩
        · exact .inr ⟨by omega, by omega, hleaf⟩

theorem bitReadN_failsAt {s : State} (n : Nat) (h : s.io.errors.failsAt .bitIn 0) :
    bitReadN n s = .failed (s.moved .bitIn 1 []) := by
  rcases bitReadN_cases n s with ⟨-, hr⟩ | ⟨hok, -⟩ | ⟨hok, -⟩
  · exact hr
  all_goals simp [State.fails_of_failsAt_zero h] at hok

/-- A leaf's flag, and a byte value whose transfer fails. -/
theorem parse_leaf_error {s : State} {g : Bits} {n : Nat} (ni : Nat) (hb : s.io.bitIn = true :: g)
    (hn : s.io.bitIn.length ≤ n) (h : s.io.errors.failsAt .bitIn 1) :
    parse n ni s = .raised (.io .bitIn) (s.took 2 [.inBit true] g) := by
  obtain ⟨n, rfl⟩ := exists_succ_of_unread hb hn
  obtain ⟨hq, hfails⟩ := IoErrors.failsAt_succ h
  rw [parse_one n ni hq hb, bitReadN_failsAt 8 (s := s.took 1 [.inBit true] g) hfails,
    State.moved_eq_took (State.took_bitIn _ _ _ _)]
  simp only [State.took_took]
  rfl

/-- DESER on a header whose transfer after `k` is the first to fail has taken the bits of those `k` transfers. -/
theorem deserRun_failsAt {s : State} {t : Tree} {rest : Bits} {k : Nat} (ht : t.hasEos = false) (hcap : t.leaves ≤ 256)
    (hb : s.io.bitIn = t.ser ++ rest) (hk : k < t.readWidths.length) (hfails : s.io.errors.failsAt .bitIn k) :
    deserRun s = .raised (.io .bitIn)
      (s.took (k + 1) ((t.ser.take (t.readWidths.take k).sum).map .inBit) (t.ser.drop (t.readWidths.take k).sum ++ rest)) := by
  have hleaves := t.leaves_eq
  obtain ⟨u, pre, j, i, hdue, hcase⟩ := Tree.due_of_transfer ht hk
  have hi : i ≤ 255 := hdue.inners_le.trans (by omega)
  obtain ⟨post, hser⟩ := hdue.ser_eq
  have hbits : s.io.bitIn = pre ++ (u.ser ++ post ++ rest) := by simp [hb, hser]
  rcases hcase with ⟨rfl, hsum⟩ | ⟨rfl, hsum, b, c, rfl⟩
  · obtain ⟨hq, hflag⟩ := IoErrors.failsAt_add (n := 0) hfails
    refine deserRun_raised_of_due hdue ht hbits hi hq fun m hm => ?_
    have hdueBits : u.ser ++ post ++ rest ≠ [] := by simp [Tree.ser_ne_nil (hdue.hasEos ht)]
    obtain ⟨m, rfl⟩ := Nat.exists_eq_add_one.2 ((List.length_pos_iff.2 hdueBits).trans_le hm)
    rw [parse_flag_error m i hdueBits hflag, State.took_took, hsum, hser]
    simp
  · obtain ⟨hq, hbyte⟩ := IoErrors.failsAt_add hfails
    refine deserRun_raised_of_due hdue ht hbits hi hq fun m hm => ?_
    rw [parse_leaf_error i rfl hm hbyte, State.took_took, hsum, hser]
    simp [Tree.ser, List.take_append, List.drop_append, List.take_of_length_le, List.drop_eq_nil_of_le]

/-- Settles O32. DESER raises `E_IO(BIT_IN)` at the failing transfer, and fault entry moves nothing more. -/
theorem deserReportsIoErrors : Obligations.DeserReportsIoErrors := by
  intro s t rest k hf hp ht hcap hb hk hfails
  exact ⟨_, exec_deser_raised hf hp (deserRun_failsAt ht hcap hb hk hfails), rfl, rfl, rfl, rfl⟩

end Sys2Proof.Machine

/-! PROOFS. The Sentinel Injector (43_sentinel_injector.md): what INJ stores (R161), and which leaf injection splits (R163). -/

namespace Sys2Proof.Machine

/-! ### INJ (R161) -/

theorem injRun_tree {s : State} {t : Tree} (htree : s.regs.tree = some t) (ht : t.hasEos = false) :
    injRun s = .done (s.setTree (some t.inject)) := by
  simp [injRun, htree, ht]

/-- Settles O34. Admitted on a tree without `Eos`, INJ goes through to one register write; the rest is `Inject` itself. -/
theorem injStoresTheInjectedTree : Obligations.InjStoresTheInjectedTree := by
  refine ⟨fun s t hf hp htree ht => ?_, fun _ _ => rfl, fun _ _ _ => rfl⟩
  rw [exec_admitted (by decide) hf (by simp [admits, hp]), runOf, injRun_tree htree ht]
  rfl

/-! ### The leaf that injection splits (R163, R166) -/

/-- No code is longer than its tree is high. -/
theorem Tree.length_code_le_height {t : Tree} {e : Sym × Bits} (h : e ∈ t.codes) : e.2.length ≤ t.height := by
  induction t generalizing e with
  | char b c => obtain rfl := List.mem_singleton.1 h; exact Nat.le_refl _
  | eos => obtain rfl := List.mem_singleton.1 h; exact Nat.le_refl _
  | inner c l r hl hr =>
    simp only [Tree.codes, List.mem_append, List.mem_map] at h
    simp only [Tree.height]
    rcases h with ⟨e, he, rfl⟩ | ⟨e, he, rfl⟩
    · exact (Nat.succ_le_succ (hl he)).trans (by omega)
    · exact (Nat.succ_le_succ (hr he)).trans (by omega)

theorem Tree.inject_chars {t : Tree} (h : t.hasEos = false) : t.inject.chars = t.chars := by
  induction t with
  | char b c => rfl
  | eos => cases h
  | inner c l r hl hr =>
    obtain ⟨htl, htr⟩ := Bool.or_eq_false_iff.1 h
    rw [Tree.inject]
    split
    · rw [Tree.chars, Tree.chars, hr htr]
    · rw [Tree.chars, Tree.chars, hl htl]

/-- Injection goes to the side whose height is the node's: the leaves it passes on the left are no deeper than the node is
high, those on the right are less deep, because a tie goes right. -/
theorem Tree.inject_codes {t : Tree} (h : t.hasEos = false) :
    ∃ before b p after, t.codes = before ++ (Sym.byte b, p) :: after ∧
      t.inject.codes = before ++ (Sym.byte b, p ++ [false]) :: (Sym.eos, p ++ [true]) :: after ∧
      p.length = t.height ∧ (∀ e ∈ before, e.2.length ≤ t.height) ∧ ∀ e ∈ after, e.2.length < t.height := by
  induction t with
  | char b c => exact ⟨[], b, [], [], rfl, rfl, rfl, by simp, by simp⟩
  | eos => cases h
  | inner c l r hl hr =>
    obtain ⟨htl, htr⟩ := Bool.or_eq_false_iff.1 h
    rw [Tree.inject]
    split
    next hright =>
      obtain ⟨before, b, p, after, hcodes, hinject, hp, hbefore, hafter⟩ := hr htr
      have hheight : (Tree.inner c l r).height = r.height + 1 := by simp only [Tree.height]; omega
      rw [hheight]
      exact ⟨l.codes.map (fun e => (e.1, false :: e.2)) ++ before.map (fun e => (e.1, true :: e.2)), b, true :: p,
        after.map fun e => (e.1, true :: e.2),
        by simp [Tree.codes, hcodes], by simp [Tree.codes, hinject], by simp [hp],
        List.forall_mem_append.2
          ⟨List.forall_mem_map.2 fun e he => Nat.succ_le_succ ((Tree.length_code_le_height he).trans hright),
           List.forall_mem_map.2 fun e he => Nat.succ_le_succ (hbefore e he)⟩,
        List.forall_mem_map.2 fun e he => Nat.succ_lt_succ (hafter e he)⟩
    next hleft =>
      obtain ⟨before, b, p, after, hcodes, hinject, hp, hbefore, hafter⟩ := hl htl
      have hheight : (Tree.inner c l r).height = l.height + 1 := by simp only [Tree.height]; omega
      rw [hheight]
      exact ⟨before.map fun e => (e.1, false :: e.2), b, false :: p,
        after.map (fun e => (e.1, false :: e.2)) ++ r.codes.map (fun e => (e.1, true :: e.2)),
        by simp [Tree.codes, hcodes], by simp [Tree.codes, hinject], by simp [hp],
        List.forall_mem_map.2 fun e he => Nat.succ_le_succ (hbefore e he),
        List.forall_mem_append.2
          ⟨List.forall_mem_map.2 fun e he => Nat.succ_lt_succ (hafter e he),
           List.forall_mem_map.2 fun e he =>
             Nat.succ_lt_succ ((Tree.length_code_le_height he).trans_lt (Nat.lt_of_not_le hleft))⟩⟩

/-- Settles O35. The codes are `Tree.inject_codes`; the leaves, counts and kinds are what injection keeps, one law each. -/
theorem injectionSplitsTheDeepestLeaf : Obligations.InjectionSplitsTheDeepestLeaf := fun t ht =>
  ⟨Tree.inject_isInner ht, Tree.inject_eosLeaves ht, Tree.inject_eosRight ht, Tree.inject_chars ht, Tree.inject_countOk,
    Tree.inject_count t, Tree.inject_codes ht⟩

end Sys2Proof.Machine

/-! PROOFS. The Lookup Table Builder (44_lookup_table.md): what LUT stores (R171), and the code it holds for a symbol (R173). -/

namespace Sys2Proof.Machine

theorem lutRun_tree {s : State} {t : Tree} (htree : s.regs.tree = some t) : lutRun s = .done (s.setLut (lutOf t)) := by
  simp [lutRun, htree]

/-- LUT admitted on a tree goes through, with one register written. -/
theorem exec_lut_tree {s : State} {t : Tree} (hf : s.regs.fault = none) (hp : s.regs.phase = .injected)
    (htree : s.regs.tree = some t) :
    exec .lut s = .next
      { regs := { s.regs with lut := lutOf t, phase := .tabled }
        io := { s.io with responses := s.io.responses ++ [.ok] } } := by
  rw [exec_admitted (by decide) hf (by simp [admits, hp]), runOf, lutRun_tree htree]
  rfl

/-- Settles O37. The table is `lutOf` of the tree, which holds for each symbol the code of its last leaf (`lutGet_lutOf`): `Walk`
visits the leaves from left to right, and each write replaces the one before it. -/
theorem lutRecordsTheCodes : Obligations.LutRecordsTheCodes := fun _ t hf hp htree =>
  ⟨lutOf t, lutGet_lutOf t, exec_lut_tree hf hp htree⟩

end Sys2Proof.Machine

/-! PROOFS. The Stream Encoder (45_stream_encoder.md): what ENC writes on a whole packet (R181, R184), at a byte with no code
(R183), and at a failing transfer (R224). -/

namespace Sys2Proof.Machine

/-! ### The loop, up to the pass it is left in (R181) -/

theorem encPass_missingCode {s : State} {v : Byte} {rest : List ByteItem} (hb : s.io.byteIn = .byte v :: rest)
    (hl : lutGet s.regs.lut (.byte v) = none) (hq : s.io.errors.quiet .byteIn 1) :
    encPass s = .out (.raised (.lutMiss v) (s.encd 1 0 [.inByte v] rest)) := by
  simp only [encPass, byteIn_byte hq hb, State.encd_moved', State.encd_regs, hl]

theorem encPass_byteInError {s : State} (h : s.io.errors.failsAt .byteIn 0) :
    encPass s = .out (.raised (.io .byteIn) (s.encd 1 0 [] s.io.byteIn)) := by
  simp only [encPass, byteIn_failsAt h, State.moved_byteIn_nil]

/-- Where the pass after the codes of `bs` raises, ENC raises. -/
theorem encRun_raised {bs : List Byte} {s t : State} {rest : List ByteItem} {p : Bits} {c : Cause}
    (hb : s.io.byteIn = bs.map .byte ++ rest) (hp : payload s.regs.lut bs = some p)
    (hin : s.io.errors.quiet .byteIn bs.length) (hout : s.io.errors.quiet .bitOut p.length)
    (hpass : encPass (s.encd bs.length p.length (encEvents s.regs.lut bs) rest) = .out (.raised c t)) :
    encRun s = .raised c t := by
  have hbound : s.io.byteIn.length + 1 = bs.length + (rest.length + 1) := by
    rw [hb, List.length_append, List.length_map, Nat.add_assoc]
  rw [encRun, hbound, enc_loop bs _ hb hp hin hout, loop_out hpass]
  rfl

theorem exec_enc {s : State} (hf : s.regs.fault = none) (hphase : s.regs.phase = .tabled) :
    exec .enc s = complete .enc (encRun s) :=
  exec_admitted (by decide) hf (by simp [admits, hphase])

theorem exec_enc_raised {s t : State} {c : Cause} (hf : s.regs.fault = none) (hphase : s.regs.phase = .tabled)
    (hrun : encRun s = .raised c t) : exec .enc s = .next (faultEntry 0b1000#4 c t) := by
  rw [exec_enc hf hphase, hrun]
  rfl

/-! ### The terminator and the flush (R181, R182) -/

/-- ENC once its loop has read a whole packet. -/
theorem encRun_packet {bs : List Byte} {s : State} {rest : List ByteItem} {p e : Bits}
    (hb : s.io.byteIn = packetItems bs ++ rest) (hp : payload s.regs.lut bs = some p)
    (he : lutGet s.regs.lut .eos = some e) (hin : s.io.errors.quiet .byteIn (bs.length + 1))
    (hout : s.io.errors.quiet .bitOut p.length) :
    encRun s = ((bitWriteSeq e (s.encd (bs.length + 1) p.length (encEvents s.regs.lut bs ++ [.inEnd]) rest)).andThen
      bitFlush).andThen fun t => .done (discardData t) := by
  rw [encRun, enc_packet bs hb hp hin hout]
  simp only [Run.andThen_done, encTerminator, State.encd_regs, he]

theorem bitWriteSeq_flush_quiet {e : Bits} {s : State} (h : s.io.errors.quiet .bitOut (e.length + 1)) :
    (bitWriteSeq e s).andThen bitFlush = .done (s.moved .bitOut (e.length + 1) (e.map .outBit ++ [.outFlush])) := by
  obtain ⟨hbits, hflush⟩ := (IoErrors.quiet_add _ _ _ _).1 h
  rw [bitWriteSeq_quiet hbits, Run.andThen_done, bitFlush, send_quiet hflush, State.moved_moved]

/-- The failing transfer is one of the bits, or the flush after them. -/
theorem bitWriteSeq_flush_failsAt {e : Bits} {s : State} {j : Nat} (h : s.io.errors.failsAt .bitOut j) (hj : j ≤ e.length) :
    (bitWriteSeq e s).andThen bitFlush = .raised (.io .bitOut) (s.moved .bitOut (j + 1) ((e.take j).map .outBit)) := by
  rcases Nat.lt_or_eq_of_le hj with hlt | rfl
  · rw [bitWriteSeq_failsAt h hlt, Run.andThen_raised]
  · obtain ⟨hbits, hflush⟩ := IoErrors.failsAt_add (n := 0) h
    rw [bitWriteSeq_quiet hbits, Run.andThen_done, bitFlush, send_failsAt hflush, State.moved_moved, List.take_length,
      List.append_nil]

/-- Settles O39. The loop reads the whole packet, then the End-of-Stream code and the flush go out, and the session ends. -/
theorem encWritesPayloadTerminatorFlush : Obligations.EncWritesPayloadTerminatorFlush := by
  intro s bs rest p e hf hphase hb hp he hin hout
  rw [Nat.add_assoc, IoErrors.quiet_add] at hout
  obtain ⟨hpayload, htail⟩ := hout
  have hrun := encRun_packet hb hp he hin hpayload
  rw [bitWriteSeq_flush_quiet (by simpa [IoErrors.after_comm, IoErrors.quiet_after_ne] using htail), State.moved_bitOut,
    State.encd_encd, ← List.append_assoc] at hrun
  rw [exec_enc hf hphase, hrun]
  rfl

/-! ### A byte with no code (R183) -/

theorem faultEntry_fval (op : CmdWord) (v : Byte) (s : State) :
    (faultEntry op (.lutMiss v) s).status.extractLsb' 15 9 = v.setWidth 9 := by
  obtain ⟨-, -, -, hfields⟩ := statusFields (faultEntry op (.lutMiss v) s)
  obtain ⟨-, -, -, -, hfval, -⟩ := hfields _ rfl
  exact hfval v rfl

/-- Settles O40. The loop stands after the codes of the bytes before `v`, and its next pass raises. -/
theorem encMissingCodeFaults : Obligations.EncMissingCodeFaults := by
  intro s bs v rest p hf hphase hb hp hv hin hout
  obtain ⟨hbytes, hmiss⟩ := (IoErrors.quiet_add _ _ _ _).1 hin
  have hpass := encPass_missingCode
    (s := s.encd bs.length p.length (encEvents s.regs.lut bs) (.byte v :: rest)) rfl hv
    (by simpa [IoErrors.quiet_after_ne] using hmiss)
  have hrun := encRun_raised (by simpa using hb) hp hbytes hout hpass
  rw [State.encd_encd] at hrun
  exact ⟨_, exec_enc_raised hf hphase hrun, rfl, faultEntry_fval _ v _, rfl, rfl, rfl⟩

/-! ### A failing transfer (R224) -/

theorem faultEntry_bitOut (op : CmdWord) (c : Cause) (s : State) : (faultEntry op c s).bitOut = s.bitOut := rfl

/-- A bit of the payload is one of some byte's code. -/
theorem payload_split {m : Lut} {bs : List Byte} {p : Bits} (hp : payload m bs = some p) {k : Nat} (hk : k < p.length) :
    ∃ pre v post q c j, bs = pre ++ v :: post ∧ payload m pre = some q ∧ lutGet m (.byte v) = some c ∧ j < c.length ∧
      k = q.length + j ∧ p.take k = q ++ c.take j := by
  induction bs generalizing p k with
  | nil =>
    obtain rfl := Option.some.inj hp
    cases hk
  | cons v vs ih =>
    obtain ⟨c, r, hc, hr, rfl⟩ := payload_cons hp
    by_cases hkc : k < c.length
    · exact ⟨[], v, vs, [], c, k, rfl, rfl, hc, hkc, by simp, by simp [List.take_append_of_le_length (Nat.le_of_lt hkc)]⟩
    · obtain ⟨k, rfl⟩ := Nat.exists_eq_add_of_le (Nat.le_of_not_lt hkc)
      obtain ⟨pre, w, post, q, d, j, rfl, hq, hd, hj, rfl, htake⟩ := ih hr (k := k) (by simpa using hk)
      exact ⟨v :: pre, w, post, c ++ q, d, j, rfl, by simp [payload, hc, hq], hd, hj, by simp [Nat.add_assoc],
        by rw [List.take_length_add_append, htake, List.append_assoc]⟩

/-- The first failing BIT_OUT transfer is one of the payload's. -/
theorem encRun_payload_failsAt {bs : List Byte} {s : State} {rest : List ByteItem} {p : Bits} {k : Nat}
    (hb : s.io.byteIn = bs.map .byte ++ rest) (hp : payload s.regs.lut bs = some p)
    (hin : s.io.errors.quiet .byteIn bs.length) (hk : k < p.length) (hfails : s.io.errors.failsAt .bitOut k) :
    ∃ t, encRun s = .raised (.io .bitOut) t ∧ t.regs = s.regs ∧ t.bitOut = s.bitOut ++ (p.take k).map .bit := by
  obtain ⟨pre, v, post, q, c, j, rfl, hq, hc, hj, rfl, htake⟩ := payload_split hp hk
  obtain ⟨hpre, hv⟩ := (IoErrors.quiet_add _ _ pre.length 1).1 (IoErrors.quiet_mono hin (by simp))
  obtain ⟨hcodes, hbit⟩ := IoErrors.failsAt_add hfails
  have hpass := encPass_fail
    (s := s.encd pre.length q.length (encEvents s.regs.lut pre) (.byte v :: (post.map .byte ++ rest))) rfl hc
    (by simpa [IoErrors.quiet_after_ne] using hv)
    (by simpa [IoErrors.after_comm, IoErrors.failsAt_after_ne] using hbit) hj
  refine ⟨_, encRun_raised (by simpa using hb) hq hpre hcodes hpass, rfl, ?_⟩
  rw [bitOut_encd, bitOut_encd, encEvents_bitOut hq, List.filterMap_cons_none rfl, filterMap_outBit, htake,
    List.append_assoc, List.map_append]

/-- The first failing BIT_OUT transfer is one of the terminator's, or the flush. -/
theorem encRun_terminator_failsAt {bs : List Byte} {s : State} {rest : List ByteItem} {p e : Bits} {j : Nat}
    (hb : s.io.byteIn = packetItems bs ++ rest) (hp : payload s.regs.lut bs = some p)
    (he : lutGet s.regs.lut .eos = some e) (hin : s.io.errors.quiet .byteIn (bs.length + 1)) (hj : j ≤ e.length)
    (hfails : s.io.errors.failsAt .bitOut (p.length + j)) :
    ∃ t, encRun s = .raised (.io .bitOut) t ∧ t.regs = s.regs ∧ t.bitOut = s.bitOut ++ (p ++ e.take j).map .bit := by
  obtain ⟨hpayload, hbit⟩ := IoErrors.failsAt_add hfails
  have hrun := encRun_packet hb hp he hin hpayload
  rw [bitWriteSeq_flush_failsAt (by simpa [IoErrors.after_comm, IoErrors.failsAt_after_ne] using hbit) hj,
    Run.andThen_raised] at hrun
  refine ⟨_, hrun, rfl, ?_⟩
  rw [State.moved_bitOut, bitOut_encd, bitOut_encd, List.filterMap_append, encEvents_bitOut hp, filterMap_outBit]
  simp [Event.bitOut?]

/-- ENC on a whole packet whose BIT_OUT transfer after `k` is the first to fail has written the first `k` bits of the payload
and the terminator. -/
theorem encRun_bitOut_failsAt {bs : List Byte} {s : State} {rest : List ByteItem} {p e : Bits} {k : Nat}
    (hb : s.io.byteIn = packetItems bs ++ rest) (hp : payload s.regs.lut bs = some p)
    (he : lutGet s.regs.lut .eos = some e) (hin : s.io.errors.quiet .byteIn (bs.length + 1))
    (hk : k < p.length + e.length + 1) (hfails : s.io.errors.failsAt .bitOut k) :
    ∃ t, encRun s = .raised (.io .bitOut) t ∧ t.regs = s.regs ∧ t.bitOut = s.bitOut ++ ((p ++ e).take k).map .bit := by
  by_cases hkp : k < p.length
  · rw [List.take_append_of_le_length (Nat.le_of_lt hkp)]
    exact encRun_payload_failsAt (rest := .packetEnd :: rest) (by simpa [packetItems] using hb) hp
      (IoErrors.quiet_mono hin (Nat.le_succ _)) hkp hfails
  · obtain ⟨j, rfl⟩ := Nat.exists_eq_add_of_le (Nat.le_of_not_lt hkp)
    rw [List.take_length_add_append]
    exact encRun_terminator_failsAt hb hp he hin (by omega) hfails

/-- Settles O41. A failing BYTE_IN transfer is met by the pass after the codes of `bs`; a failing BIT_OUT transfer within the
payload, within the terminator or at the flush. -/
theorem encReportsIoErrors : Obligations.EncReportsIoErrors := by
  intro s bs rest p e hf hphase hp he
  refine ⟨fun hb hfails hout => ?_, fun k hb hin hk hfails => ?_⟩
  · obtain ⟨hbytes, hnext⟩ := IoErrors.failsAt_add (n := 0) hfails
    have hpass := encPass_byteInError (s := s.encd bs.length p.length (encEvents s.regs.lut bs) rest)
      (by simpa [IoErrors.failsAt_after_ne] using hnext)
    rw [State.encd_encd, List.append_nil] at hpass
    refine ⟨_, exec_enc_raised hf hphase (encRun_raised hb hp hbytes hout hpass), rfl, rfl, ?_⟩
    rw [faultEntry_bitOut, bitOut_encd, encEvents_bitOut hp]
  · obtain ⟨t, hrun, hregs, hbits⟩ := encRun_bitOut_failsAt hb hp he hin hk hfails
    exact ⟨_, exec_enc_raised hf hphase hrun, by rw [faultEntry_regs, hregs], (faultEntry_bitOut _ _ t).trans hbits⟩

end Sys2Proof.Machine

/-! PROOFS. The Stream Decoder (46_stream_decoder.md): that DEC ends (R195), one pass with no bit left (R193), and what DEC
emits on a whole packet, on a cut one (R196) and at a failing transfer (R224). -/

namespace Sys2Proof.Machine

/-! ### Termination, and the pass with no bit left (R192, R193, R195) -/

theorem exec_dec {s : State} (hf : s.regs.fault = none) (hphase : s.regs.phase = .injected ∨ s.regs.phase = .tabled) :
    exec .dec s = complete .dec (decRun s) :=
  exec_admitted (by decide) hf (by simpa [admits] using hphase)

theorem exec_dec_raised {s t : State} {c : Cause} (hf : s.regs.fault = none)
    (hphase : s.regs.phase = .injected ∨ s.regs.phase = .tabled) (hrun : decRun s = .raised c t) :
    exec .dec s = .next (faultEntry 0b1001#4 c t) := by
  rw [exec_dec hf hphase, hrun]
  rfl

/-- Settles O48. DEC's pseudocode is never stuck on a tree with an Inner root (`decRun_stuckOnly`): every pass decreases
`decMeasure`. -/
theorem decAlwaysEnds : Obligations.DecAlwaysEnds := by
  intro s root hf hphase htree hroot
  rw [exec_dec hf hphase]
  exact (complete_of_stuckOnly (decRun_stuckOnly htree hroot) .dec).resolve_right fun ⟨_, hstuck, _⟩ => hstuck

/-- Settles O44. The four clauses are the four ends of a pass with no bit left. -/
theorem decSalvagesOnlyOnALeaf : Obligations.DecSalvagesOnlyOnALeaf := by
  refine fun root s hb =>
    ⟨fun b c hc hq => ?_, fun b c hc hfails => ?_, fun c l r hc => decPass_inner_nil hc hb, decPass_eos⟩
  · rw [decPass_char_nil hc hb hq, State.decd, IoErrors.after_zero, ← hb]
  · rw [decPass_char_fail hc hfails, State.decd, IoErrors.after_zero, List.append_nil]

/-! ### The walk along a beginning of a code (R191) -/

/-- A leaf with a code that is not empty stands below an Inner node, on the side of the code's first bit. -/
theorem Tree.inner_of_mem_codes {u : Tree} {x : Sym} {b : Bit} {p : Bits} (h : (x, b :: p) ∈ u.codes) :
    ∃ c l r, u = .inner c l r ∧ (x, p) ∈ (if b then r else l).codes := by
  cases u with
  | char v c => simp [Tree.codes] at h
  | eos => simp [Tree.codes] at h
  | inner c l r => cases b <;> exact ⟨c, l, r, rfl, by simpa [Tree.codes] using h⟩

/-- A leaf whose code is empty is the whole tree. -/
theorem Tree.isLeafOf_of_nil_mem_codes {u : Tree} {x : Sym} (h : (x, []) ∈ u.codes) : u.isLeafOf x := by
  cases u with
  | char v c =>
    obtain rfl : x = .byte v := by simpa [Tree.codes] using h
    exact ⟨c, rfl⟩
  | eos =>
    obtain rfl : x = .eos := by simpa [Tree.codes] using h
    rfl
  | inner c l r => exact absurd rfl (Tree.code_ne_nil rfl h)

theorem State.decd_start {s : State} {u : Tree} {tail : Bits} (hc : s.regs.cur = some u) (hb : s.io.bitIn = tail) :
    s.decd 0 0 [] tail (some u) = s := by
  rw [← hc, ← hb, State.decd_zero]

/-- The walk along a beginning of a leaf's code ends on the node below which the rest of that code leads to the leaf. -/
theorem walk_along_code {root u : Tree} {f : Fault} {x : Sym} {q q' tail : Bits} (n : Nat) {s : State}
    (hcode : (x, q ++ q') ∈ u.codes) (hc : s.regs.cur = some u) (hb : s.io.bitIn = q ++ tail)
    (hq : s.io.errors.quiet .bitIn q.length) :
    ∃ v : Tree, (x, q') ∈ v.codes ∧
      loop (decPass root) f (q.length + n) s = loop (decPass root) f n (s.decd q.length 0 (q.map .inBit) tail (some v)) := by
  induction q generalizing u s with
  | nil =>
    have hstart : s.decd 0 0 [] tail (some u) = s := State.decd_start hc hb
    exact ⟨u, hcode, by simp [hstart]⟩
  | cons b q ih =>
    obtain ⟨c, l, r, rfl, hchild⟩ := Tree.inner_of_mem_codes hcode
    rw [List.length_cons, Nat.add_comm, IoErrors.quiet_add] at hq
    obtain ⟨hbit, hrest⟩ := hq
    obtain ⟨v, hv, hwalk⟩ := ih (s := s.decd 1 0 [.inBit b] (q ++ tail) (some (if b then r else l))) hchild rfl rfl
      (quiet_decd_bitIn.2 hrest)
    refine ⟨v, hv, ?_⟩
    rw [List.length_cons, Nat.add_right_comm, loop_again (decPass_bit hc hb hbit)]
    rwa [State.decd_decd, Nat.add_comm 1] at hwalk

/-! ### DEC up to the pass it is left in (R196) -/

/-- BIT_IN holds the codes of the Character leaves `cs`, then `q`, then `tail`, and no transfer up to `tail` reports an
error. -/
structure State.Reads (s : State) (root : Tree) (cs : List (Byte × Bits)) (q tail : Bits) : Prop where
  bits : s.io.bitIn = bitsOf cs ++ q ++ tail
  codes : ∀ x ∈ cs, (Sym.byte x.1, x.2) ∈ root.codes
  bitIn : s.io.errors.quiet .bitIn (bitsOf cs ++ q).length
  byteOut : s.io.errors.quiet .byteOut cs.length

/-- The state of the machine before the pass in which DEC has emitted the bytes of `cs`, has read `q` and stands on `v`. -/
def State.decoded (s : State) (cs : List (Byte × Bits)) (q tail : Bits) (v : Tree) : State :=
  s.decd (bitsOf cs ++ q).length cs.length (decEvents cs ++ q.map .inBit) tail (some v)

/-- DEC's loop over the codes of `cs`. Where they are all of the packet its last byte is salvage, and is not passed here. -/
theorem decLoop_reads {s : State} {root : Tree} {cs : List (Byte × Bits)} {q q' tail : Bits} {x : Sym} {f : Fault} (n : Nat)
    (h : s.Reads root cs q tail) (hcur : s.regs.cur = some root) (hcode : (x, q ++ q') ∈ root.codes)
    (hmore : cs ≠ [] → q ++ tail ≠ []) :
    ∃ v, (x, q') ∈ v.codes ∧
      loop (decPass root) f ((bitsOf cs).length + cs.length + (q.length + n)) s =
        loop (decPass root) f n (s.decoded cs q tail v) := by
  obtain ⟨hbits, hcs, hin, hout⟩ := h
  rw [List.append_assoc] at hbits
  rw [List.length_append, IoErrors.quiet_add] at hin
  obtain ⟨hcodes, hlast⟩ := hin
  have hloop : loop (decPass root) f ((bitsOf cs).length + cs.length + (q.length + n)) s =
      loop (decPass root) f (q.length + n)
        (s.decd (bitsOf cs).length cs.length (decEvents cs) (q ++ tail) (some root)) := by
    cases cs with
    | nil =>
      have hstart : s.decd 0 0 [] (q ++ tail) (some root) = s := State.decd_start hcur hbits
      simp [decEvents, hstart]
    | cons y ys => exact dec_codes _ _ hcs hcur hbits (hmore (List.cons_ne_nil _ _)) hcodes hout
  obtain ⟨v, hv, hwalk⟩ := walk_along_code (root := root) (f := f) n
    (s := s.decd (bitsOf cs).length cs.length (decEvents cs) (q ++ tail) (some root)) hcode rfl rfl
    (quiet_decd_bitIn.2 hlast)
  refine ⟨v, hv, ?_⟩
  rw [hloop, hwalk, State.decd_decd, State.decoded, List.length_append, Nat.add_zero]

/-- Where the pass on the node after `q` leaves the loop, DEC ends as that pass says. -/
theorem decRun_reads {s : State} {root : Tree} {cs : List (Byte × Bits)} {q q' tail : Bits} {x : Sym}
    (h : s.Reads root cs q tail) (htree : s.regs.tree = some root) (hroot : root.isInner = true)
    (hcode : (x, q ++ q') ∈ root.codes) (hmore : cs ≠ [] → q ++ tail ≠ []) :
    ∃ v, (x, q') ∈ v.codes ∧ ∀ r, decPass root (s.decoded cs q tail v) = .out r → r ≠ .stuck .decNeverEnds →
      decRun s = r.andThen fun t => .done (discardData (t.setCur none)) := by
  have hbound : (bitsOf cs).length + cs.length + (q.length + 1) ≤ decBound s := by
    have hpasses := length_le_bitsOf hroot h.codes
    simp only [decBound, h.bits, List.length_append]
    omega
  have hstart : (s.setCur (some root)).Reads root cs q tail := ⟨h.bits, h.codes, h.bitIn, h.byteOut⟩
  obtain ⟨v, hv, hloop⟩ := decLoop_reads (f := .decNeverEnds) 1 hstart rfl hcode hmore
  refine ⟨v, hv, fun r hpass hr => ?_⟩
  simp only [decRun, htree, loop_enough (hloop.trans (loop_out hpass)) hr hbound]

/-- Settles O45. After the codes DEC stands on the `Eos` leaf, where the loop ends, and the session's data is cleared. -/
theorem decEmitsTheBytesOfTheCodes : Obligations.DecEmitsTheBytesOfTheCodes := by
  intro s root cs e rest hf hphase htree hroot hcs he hb hin hout
  have hne : e ≠ [] := Tree.code_ne_nil hroot he
  obtain ⟨v, hv, hrun⟩ := decRun_reads (q' := []) ⟨hb, hcs, hin, hout⟩ htree hroot (by simpa using he) (by simp [hne])
  obtain rfl := Tree.isLeafOf_of_nil_mem_codes hv
  rw [exec_dec hf hphase, hrun _ (decPass_eos rfl) nofun]
  rfl

/-! ### A packet cut short (R192, R193) -/

/-- The packet ends inside a code, or at once: DEC stands on an Inner node. -/
theorem decRun_cut_inner {s : State} {root : Tree} {cs : List (Byte × Bits)} {q q' : Bits} {x : Sym}
    (h : s.Reads root cs q []) (htree : s.regs.tree = some root) (hroot : root.isInner = true)
    (hcode : (x, q ++ q') ∈ root.codes) (hq' : q' ≠ []) (hmore : cs ≠ [] → q ≠ []) :
    ∃ v, decRun s = .raised (.prematureEos .payload) (s.decoded cs q [] v) := by
  obtain ⟨v, hv, hrun⟩ := decRun_reads h htree hroot hcode (by simpa using hmore)
  obtain ⟨b, p, rfl⟩ := List.exists_cons_of_ne_nil hq'
  obtain ⟨c, l, r, rfl, -⟩ := Tree.inner_of_mem_codes hv
  exact ⟨_, hrun _ (decPass_inner_nil rfl rfl) nofun⟩

/-- The packet ends with a Character leaf's code: its byte is the salvage. -/
theorem decRun_cut_leaf {s : State} {root : Tree} {cs : List (Byte × Bits)} {x : Byte × Bits}
    (h : s.Reads root (cs ++ [x]) [] []) (htree : s.regs.tree = some root) (hroot : root.isInner = true) :
    ∃ v, decRun s = .raised (.prematureEos .payload) (s.decoded (cs ++ [x]) [] [] v) := by
  obtain ⟨hbits, hcs, hin, hout⟩ := h
  have hx := hcs x (by simp)
  have hne : x.2 ≠ [] := Tree.code_ne_nil hroot hx
  rw [List.length_append, IoErrors.quiet_add] at hout
  obtain ⟨hbytes, hsalvage⟩ := hout
  have hreads : s.Reads root cs x.2 [] :=
    ⟨by simpa using hbits, fun y hy => hcs y (by simp [hy]), by simpa using hin, hbytes⟩
  obtain ⟨v, hv, hrun⟩ := decRun_reads (q' := []) hreads htree hroot (by simpa using hx) (by simp [hne])
  obtain ⟨c, rfl⟩ := Tree.isLeafOf_of_nil_mem_codes hv
  refine ⟨.char x.1 c, ?_⟩
  rw [hrun _ (decPass_char_nil rfl rfl (quiet_decd_byteOut.2 hsalvage)) nofun, State.decoded, State.decd_decd]
  simp [State.decoded, decEvents]

/-- Settles O46. Either the last byte is the salvage, or DEC stands on an Inner node. -/
theorem decOnACutPayloadFaults : Obligations.DecOnACutPayloadFaults := by
  rintro s root cs q hf hphase htree hroot hcs ⟨⟨x, p⟩, hcode, ⟨q', rfl⟩, hproper⟩ hb hin hout
  have hreads : s.Reads root cs q [] := ⟨by simpa using hb, hcs, hin, hout⟩
  have hrun : ∃ v, decRun s = .raised (.prematureEos .payload) (s.decoded cs q [] v) := by
    by_cases hmore : cs ≠ [] → q ≠ []
    · exact decRun_cut_inner hreads htree hroot hcode (by simpa using hproper) hmore
    · obtain ⟨hne, rfl⟩ : cs ≠ [] ∧ q = [] := by simpa using hmore
      obtain ⟨ys, y, rfl⟩ := (List.eq_nil_or_concat' cs).resolve_left hne
      exact decRun_cut_leaf hreads htree hroot
  obtain ⟨v, hrun⟩ := hrun
  rw [exec_dec_raised hf hphase hrun]
  rfl

/-! ### A failing transfer (R224) -/

theorem byteOut_decd (s : State) (i j : Nat) (es : List Event) (rest : Bits) (c : Option Tree) :
    (s.decd i j es rest c).byteOut = s.byteOut ++ es.filterMap Event.byteOut? := by
  simp [State.byteOut, State.decd]

theorem byteOut_decoded (s : State) (cs : List (Byte × Bits)) (q tail : Bits) (v : Tree) :
    (s.decoded cs q tail v).byteOut = s.byteOut ++ cs.map Prod.fst := by
  have hread (p : Bits) : (p.map Event.inBit).filterMap Event.byteOut? = [] := by
    simp [List.filterMap_map, Function.comp_def, Event.byteOut?]
  have hcodes : (decEvents cs).filterMap Event.byteOut? = cs.map Prod.fst := by
    induction cs with
    | nil => rfl
    | cons x xs ih =>
      rw [decEvents, List.flatMap_cons, List.filterMap_append, ← decEvents, ih]
      simp [hread, Event.byteOut?]
  rw [State.decoded, byteOut_decd, List.filterMap_append, hcodes, hread, List.append_nil]

theorem faultEntry_byteOut (op : CmdWord) (c : Cause) (s : State) : (faultEntry op c s).byteOut = s.byteOut := rfl

/-- The transfer after the bytes of `cs` fails, on the Character leaf of the code `p`. -/
theorem decRun_byteOut_failsAt {s : State} {root : Tree} {cs : List (Byte × Bits)} {b : Byte} {p tail : Bits}
    (h : s.Reads root cs p tail) (htree : s.regs.tree = some root) (hroot : root.isInner = true)
    (hcode : (Sym.byte b, p) ∈ root.codes) (hfails : s.io.errors.failsAt .byteOut cs.length) :
    ∃ v, decRun s = .raised (.io .byteOut) ((s.decoded cs p tail v).decd 0 1 [] tail (some v)) := by
  obtain ⟨v, hv, hrun⟩ := decRun_reads (q' := []) h htree hroot (by simpa using hcode)
    (by simp [Tree.code_ne_nil hroot hcode])
  obtain ⟨c, rfl⟩ := Tree.isLeafOf_of_nil_mem_codes hv
  obtain ⟨-, hnext⟩ := IoErrors.failsAt_add (n := 0) hfails
  exact ⟨_, hrun _ (decPass_char_fail rfl (fails_decd_byteOut.2 hnext)) nofun⟩

/-- The transfer after the codes of `cs` and `q` fails, inside a code. -/
theorem decRun_bitIn_failsAt {s : State} {root : Tree} {cs : List (Byte × Bits)} {q q' tail : Bits} {x : Sym}
    (h : s.Reads root cs q tail) (htree : s.regs.tree = some root) (hroot : root.isInner = true)
    (hcode : (x, q ++ q') ∈ root.codes) (hq' : q' ≠ []) (htail : tail ≠ [])
    (hfails : s.io.errors.failsAt .bitIn (bitsOf cs ++ q).length) :
    ∃ v, decRun s = .raised (.io .bitIn) ((s.decoded cs q tail v).decd 1 0 [] tail (some v)) := by
  obtain ⟨v, hv, hrun⟩ := decRun_reads h htree hroot hcode (by simp [htail])
  obtain ⟨b, p, rfl⟩ := List.exists_cons_of_ne_nil hq'
  obtain ⟨c, l, r, rfl, -⟩ := Tree.inner_of_mem_codes hv
  obtain ⟨-, hnext⟩ := IoErrors.failsAt_add (n := 0) hfails
  exact ⟨_, hrun _ (decPass_bit_fail rfl htail (fails_decd_bitIn.2 hnext)) nofun⟩

/-- The beginning of a leaf's code, cut before its end, is a proper beginning of that code. -/
theorem exists_rest_of_cut {p e : Bits} (h : e <+: p) {k : Nat} (hk : k < e.length) :
    ∃ q, p = e.take k ++ q ∧ q ≠ [] := by
  obtain ⟨z, rfl⟩ := h
  exact ⟨e.drop k ++ z, by rw [← List.append_assoc, List.take_append_drop], by simp [hk]⟩

/-- A place in the codes of `cs`, or in the beginning `e` of a code after them, has some whole codes before it and then a
proper beginning of the next one. -/
theorem codes_cut {root : Tree} {cs : List (Byte × Bits)} {e : Bits} (hcs : ∀ x ∈ cs, (Sym.byte x.1, x.2) ∈ root.codes)
    (he : ∃ x ∈ root.codes, e <+: x.2) {k : Nat} (hk : k < (bitsOf cs ++ e).length) :
    ∃ (j : Nat) (x : Sym) (q q' : Bits), (bitsOf cs ++ e).take k = bitsOf (cs.take j) ++ q ∧ (x, q ++ q') ∈ root.codes ∧
      q' ≠ [] ∧ (j < cs.length → k < (bitsOf (cs.take (j + 1))).length) := by
  induction cs generalizing k with
  | nil =>
    obtain ⟨⟨x, p⟩, hcode, hpre⟩ := he
    obtain ⟨q', rfl, hq'⟩ := exists_rest_of_cut hpre hk
    exact ⟨0, x, e.take k, q', rfl, hcode, hq', nofun⟩
  | cons y ys ih =>
    obtain ⟨hy, hys⟩ := List.forall_mem_cons.1 hcs
    rw [bitsOf, List.flatMap_cons, List.append_assoc] at hk ⊢
    by_cases hky : k < y.2.length
    · obtain ⟨q', hq, hq'⟩ := exists_rest_of_cut (List.prefix_refl y.2) hky
      exact ⟨0, _, y.2.take k, q', by simp [List.take_append_of_le_length hky.le], hq ▸ hy, hq', by simpa using hky⟩
    · obtain ⟨m, rfl⟩ := Nat.exists_eq_add_of_le (Nat.le_of_not_lt hky)
      obtain ⟨j, x, q, q', htake, hcode, hq', hnext⟩ := ih hys (k := m) (by simpa using hk)
      exact ⟨j + 1, x, q, q', by rw [List.take_length_add_append, htake]; simp, hcode, hq', by simpa using hnext⟩

/-- Settles O49. A failing BYTE_OUT transfer is met on the leaf of the code after the bytes emitted, a failing BIT_IN transfer
inside the code that holds the place (`codes_cut`). -/
theorem decReportsIoErrors : Obligations.DecReportsIoErrors := by
  intro s root cs e rest k hf hphase htree hroot hcs he hb
  refine ⟨fun hk hin hfails => ?_, fun hk hout hfails => ?_⟩
  · obtain ⟨pre, x, post, rfl, rfl⟩ : ∃ pre x post, cs = pre ++ x :: post ∧ pre.length = k :=
      ⟨cs.take k, cs[k], cs.drop (k + 1), by simp, by simp [hk.le]⟩
    have hfirst : (pre ++ x :: post).take (pre.length + 1) = pre ++ [x] := by simp [List.take_append]
    have hcode := hcs x (by simp)
    have hreads : s.Reads root pre x.2 (bitsOf post ++ e ++ rest) :=
      ⟨by simpa using hb, fun y hy => hcs y (by simp [hy]),
        IoErrors.quiet_mono hin (by simp [List.flatMap_append]), hfails.1⟩
    obtain ⟨v, hrun⟩ := decRun_byteOut_failsAt hreads htree hroot hcode hfails
    refine ⟨_, exec_dec_raised hf hphase hrun, rfl, ?_, ?_⟩
    · rw [hfirst, hreads.bits, bitsOf, List.flatMap_append, List.flatMap_singleton, List.drop_left]
      rfl
    · rw [faultEntry_byteOut, byteOut_decd, byteOut_decoded]
      simp
  · obtain ⟨j, x, q, q', htake, hcode, hq', hnext⟩ := codes_cut hcs he hk
    have hlen : (bitsOf (cs.take j) ++ q).length = k := by rw [← htake, List.length_take_of_le hk.le]
    have hcut : s.io.bitIn.take k = bitsOf (cs.take j) ++ q := by rw [hb, List.take_append_of_le_length hk.le, htake]
    have hreads : s.Reads root (cs.take j) q (s.io.bitIn.drop k) :=
      ⟨by rw [← hcut, List.take_append_drop], fun y hy => hcs y (List.mem_of_mem_take hy), hlen.symm ▸ hfails.1,
        IoErrors.quiet_mono hout (List.length_take_le' j cs)⟩
    have htail : s.io.bitIn.drop k ≠ [] := by
      rw [hb]; simp only [ne_eq, List.drop_eq_nil_iff, List.length_append] at hk ⊢; omega
    obtain ⟨v, hrun⟩ := decRun_bitIn_failsAt hreads htree hroot hcode hq' htail (hlen.symm ▸ hfails)
    refine ⟨_, j, exec_dec_raised hf hphase hrun, rfl, rfl, ?_, ?_, hnext⟩
    · rw [faultEntry_byteOut, byteOut_decd, byteOut_decoded]
      simp
    · rw [← hlen, List.length_append]
      exact Nat.le_add_right _ _

end Sys2Proof.Machine

/-! PROOFS. Exceptions (60_exceptions.md): the codes of STATUS (R221, R222), what fault entry leaves (R226, R228), and what the
faulted state refuses (R229). -/

namespace Sys2Proof.Machine

/-! ### The codes of STATUS (R221, R222) -/

theorem Cause.info_of_no_qualifier {c : Cause} (hio : c.name ≠ .io) (heos : c.name ≠ .prematureEos)
    (hovf : c.name ≠ .ovf) : c.info = 0 := by
  cases c with
  | io ch => exact absurd rfl hio
  | prematureEos site => exact absurd rfl heos
  | ovf site => exact absurd rfl hovf
  | _ => rfl

/-- Settles O8. Each code is written out in the model; three causes have a qualifier. -/
theorem statusCodes : Obligations.StatusCodes :=
  ⟨⟨rfl, rfl, rfl, rfl, rfl, rfl, rfl, rfl, rfl, fun _ => Cause.info_of_no_qualifier⟩,
    ⟨rfl, rfl, rfl, rfl, rfl, rfl, rfl, rfl⟩, rfl, rfl, rfl, rfl, rfl, rfl⟩

/-! ### A reserved word (R226) -/

theorem decode_error_of_reserved {w : CmdWord} (h : w.toNat = 0 ∨ 10 ≤ w.toNat) : ∃ e, decode w = .error e := by
  cases hw : decode w with
  | error e => exact ⟨e, rfl⟩
  | ok i =>
    obtain rfl := Laws.EncodeDecode.eq_encode hw
    have hwell := wellFormed_encode i
    rw [wellFormed_of_reserved h] at hwell
    cases hwell

theorem execReserved_unfaulted {s : State} (hf : s.regs.fault = none) (w : CmdWord) :
    execReserved w s = .next (faultEntry w .illCmd s) := by
  rw [execReserved, hf]

/-- Settles O4. The word decodes to no command, and with no fault recorded that is a fault entry. -/
theorem reservedWordRaisesIllCmd : Obligations.ReservedWordRaisesIllCmd := by
  intro s w rest hcmd hreserved hf
  obtain ⟨e, hw⟩ := decode_error_of_reserved hreserved
  rw [step_of_decode_error hcmd hw, execReserved_unfaulted (s := s.setCmd rest) hf]
  rfl

/-! ### What fault entry leaves (R228) -/

/-- A fault that a command records is its own fault entry, on a state that its pseudocode has kept. -/
theorem exec_faultEntry {i : Instr} {s t : State} {f : FaultRecord} (h : exec i s = .next t) (hs : s.regs.fault = none)
    (ht : t.regs.fault = some f) :
    ∃ u, t = faultEntry (encode i) f.cause u ∧ f.op = encode i ∧ u.regs.phase = s.regs.phase ∧
      u.regs.tree = s.regs.tree ∧ u.regs.lut = s.regs.lut ∧ (i ≠ .count → u.regs.occ = s.regs.occ) ∧
      u.io.responses = s.io.responses := by
  rcases exec_cases h with ⟨-, rfl⟩ | ⟨-, g, hg, -⟩ | ⟨-, -, -, rfl⟩ | ⟨hi, -, -, ⟨u, hu, rfl⟩ | ⟨c, u, hu, rfl⟩⟩
  · cases ht
  · rw [hs] at hg
    cases hg
  · cases ht
    exact ⟨s, rfl, rfl, rfl, rfl, rfl, fun _ => rfl, rfl⟩
  · have hfault : u.regs.fault = some f := ht
    rw [runOf_done_fault hi hu, hs] at hfault
    cases hfault
  · cases ht
    have hkept := runOf_kept hi s
    rw [hu] at hkept
    obtain ⟨-, -, -, -, hresponses, hphase, -⟩ := hkept
    obtain ⟨htree, hlut, hocc⟩ := runOf_raised hu
    exact ⟨u, rfl, rfl, hphase, htree, hlut, hocc, hresponses⟩

/-- Settles O12. The command ended in its fault entry, which writes the record, CUR, WORK and the response and nothing else. -/
theorem faultEntryOfEveryCommand : Obligations.FaultEntryOfEveryCommand := by
  intro i s t f h hs ht
  obtain ⟨u, rfl, hop, hphase, htree, hlut, hocc, hresponses⟩ := exec_faultEntry h hs ht
  exact ⟨hop, rfl, rfl, hphase, htree, hlut, hocc, by rw [faultEntry_io, hresponses]⟩

/-! ### The faulted state (R229) -/

theorem exec_refused {i : Instr} {s : State} {f : FaultRecord} (hi : i ≠ .clr) (hf : s.regs.fault = some f) :
    exec i s = .next (refuse f s) := by
  rw [exec_eq i hi, ifAdmitted, hf]

theorem step_refused {s : State} {f : FaultRecord} {w : CmdWord} {rest : List CmdWord} (hf : s.regs.fault = some f)
    (hcmd : s.io.cmd = w :: rest) (hw : w ≠ encode .clr) : step s = .next (refuse f (s.setCmd rest)) := by
  cases hdecode : decode w with
  | ok i =>
    have hi : i ≠ .clr := by
      rintro rfl
      exact hw (Laws.EncodeDecode.eq_encode hdecode)
    rw [step_of_decode_ok hcmd hdecode, exec_refused (s := s.setCmd rest) hi hf]
  | error e => rw [step_of_decode_error hcmd hdecode, execReserved, State.setCmd_regs, hf]

/-- Settles O9. A command is refused at admission, a reserved word where it would be recorded. -/
theorem faultedStateRefuses : Obligations.FaultedStateRefuses := fun _ _ hf =>
  ⟨fun _ hi => exec_refused hi hf, fun _ _ hcmd hw => step_refused hf hcmd hw⟩

/-- Until the next CLR every command of a faulted session is refused. -/
theorem runCmds_refused {cmds : List Instr} (hcmds : .clr ∉ cmds) {s : State} {f : FaultRecord}
    (hf : s.regs.fault = some f) :
    runCmds cmds s = .next
      { regs := s.regs
        io := { s.io with responses := s.io.responses ++ List.replicate cmds.length (.fault f.cause.name) } } := by
  induction cmds generalizing s with
  | nil => simp [runCmds]
  | cons i is ih =>
    rw [List.mem_cons, not_or] at hcmds
    rw [runCmds, exec_refused (Ne.symm hcmds.1) hf]
    simp only
    rw [ih hcmds.2 (s := refuse f s) hf]
    simp [List.replicate_succ]

end Sys2Proof.Machine

/-! PROOFS. Hazards (70_reset_and_hazards.md R275): a packet that never ends leaves COUNT and ENC with no next state. -/

namespace Sys2Proof.Machine

/-- Settles O15. Every byte is counted, and the next pass finds no item. -/
theorem countNeedsThePacketsEnd : Obligations.CountNeedsThePacketsEnd := by
  intro s bs hf hphase hb hq hfit
  obtain ⟨hbytes, hnext⟩ := (IoErrors.quiet_add _ _ _ _).1 hq
  obtain ⟨o, -, hrun⟩ := countRun_bytes (rest := []) (by rw [hb, List.append_nil]) hbytes hfit
  rw [exec_admitted (by decide) hf (by simp [admits, hphase]), runOf, hrun _ (countPass_starved hnext rfl),
    complete_stuck]

theorem encPass_starved {s : State} (hq : s.io.errors.quiet .byteIn 1) (hb : s.io.byteIn = []) :
    encPass s = .out (.stuck .byteInStarved) := by
  simp only [encPass, byteIn_starved hq hb]

/-- Settles O42. Every byte's code is written, and the next pass finds no item. -/
theorem encNeedsThePacketsEnd : Obligations.EncNeedsThePacketsEnd := by
  intro s bs p hf hphase hb hp hin hout
  obtain ⟨hbytes, hnext⟩ := (IoErrors.quiet_add _ _ _ _).1 hin
  have hpass : encPass (s.encd bs.length p.length (encEvents s.regs.lut bs) []) = .out (.stuck .byteInStarved) :=
    encPass_starved (by simpa [IoErrors.quiet_after_ne] using hnext) rfl
  have hrun : encRun s = .stuck .byteInStarved := by
    rw [encRun, hb, List.length_map, enc_loop bs 1 (by rw [hb, List.append_nil]) hp hbytes hout, loop_out hpass]
    rfl
  rw [exec_enc hf hphase, hrun, complete_stuck]

end Sys2Proof.Machine

/-! PROOFS. Session properties (47_session_properties.md): the tree on both sides (R207), the codes of its table (R208), and
what a session depends on (R202). -/

namespace Sys2Proof.Machine

/-! ### The tree on both sides, and its codes (R207, R208) -/

/-- Settles O36. Injection looks at heights alone, and those do not depend on the counts. -/
theorem injectionIsTheSameOnBothSides : Obligations.InjectionIsTheSameOnBothSides := by
  intro t ht
  induction t with
  | char b c => rfl
  | eos => cases ht
  | inner c l r hl hr =>
    obtain ⟨htl, htr⟩ := Bool.or_eq_false_iff.1 ht
    simp only [Tree.zero, Tree.inject, Tree.zero_height]
    split
    · rw [Tree.zero, hr htr]
    · rw [Tree.zero, hl htl]

theorem Tree.not_prefix_of_mem_codes {t : Tree} {a b : Sym × Bits} (ha : a ∈ t.codes) (hb : b ∈ t.codes) (hne : a ≠ b) :
    ¬ a.2 <+: b.2 := by
  have hsymm : Std.Symm fun a b : Sym × Bits => ¬ a.2 <+: b.2 ∧ ¬ b.2 <+: a.2 := ⟨fun _ _ => And.symm⟩
  exact (t.codes_pairwise.forall ha hb hne).1

theorem Tree.hasEos_of_mem_codes {t : Tree} {p : Bits} (h : (Sym.eos, p) ∈ t.codes) : t.hasEos = true := by
  induction t generalizing p with
  | char b c => simp [Tree.codes] at h
  | eos => rfl
  | inner c l r hl hr =>
    simp only [Tree.codes, List.mem_append, List.mem_map, Prod.mk.injEq] at h
    rw [Tree.hasEos, Bool.or_eq_true]
    rcases h with ⟨⟨x, q⟩, hq, rfl, -⟩ | ⟨⟨x, q⟩, hq, rfl, -⟩
    · exact .inl (hl hq)
    · exact .inr (hr hq)

/-- The one End-of-Stream code of an injected tree is that of the leaf that injection split, and a bit more (R163). -/
theorem Tree.length_eos_code_inject {t : Tree} (ht : t.hasEos = false) {q : Bits} (hq : (Sym.eos, q) ∈ t.inject.codes) :
    q.length = t.height + 1 := by
  obtain ⟨before, b, p, after, hcodes, hinject, hp, -, -⟩ := Tree.inject_codes ht
  have hold : (Sym.eos, q) ∉ t.codes := fun h => by
    rw [Tree.hasEos_of_mem_codes h] at ht
    cases ht
  have hbefore : (Sym.eos, q) ∉ before := fun h => hold (by rw [hcodes]; exact List.mem_append_left _ h)
  have hafter : (Sym.eos, q) ∉ after := fun h =>
    hold (by rw [hcodes]; exact List.mem_append_right _ (List.mem_cons_of_mem _ h))
  have hsplit : q = p ++ [true] := by simpa [hinject, hbefore, hafter] using hq
  rw [hsplit, List.length_append, hp, List.length_singleton]

theorem Tree.exists_lutGet_of_mem_codes {t : Tree} {x : Sym} {p : Bits} (h : (x, p) ∈ t.codes) :
    ∃ q, lutGet (lutOf t) x = some q := by
  rw [lutGet_lutOf]
  exact Option.isSome_iff_exists.1 (Tree.lastCode_isSome h)

theorem Tree.mem_codes_of_lutGet {t : Tree} {x : Sym} {p : Bits} (h : lutGet (lutOf t) x = some p) : (x, p) ∈ t.codes :=
  Tree.mem_of_lastCode (lutGet_lutOf t x ▸ h)

theorem Tree.exists_lutGet_eos_inject {t : Tree} (ht : t.hasEos = false) :
    ∃ e, lutGet (lutOf t.inject) .eos = some e := by
  obtain ⟨before, b, p, after, -, hinject, -⟩ := Tree.inject_codes ht
  exact Tree.exists_lutGet_of_mem_codes (p := p ++ [true]) (by simp [hinject])

/-- Settles O38. The table holds codes of leaves, and no leaf's code begins another's. -/
theorem tableCodesArePrefixFree : Obligations.TableCodesArePrefixFree := by
  intro t ht
  refine ⟨fun x y p q hxy hx hy => ?_, ?_⟩
  · have hprefix : ¬ p <+: q :=
      Tree.not_prefix_of_mem_codes (Tree.mem_codes_of_lutGet hx) (Tree.mem_codes_of_lutGet hy)
        fun h => hxy (congrArg Prod.fst h)
    exact ⟨fun h => hprefix (h ▸ List.prefix_rfl), hprefix⟩
  · obtain ⟨e, he⟩ := Tree.exists_lutGet_eos_inject ht
    exact ⟨e, he, Tree.length_eos_code_inject ht (Tree.mem_codes_of_lutGet he)⟩

/-! ### What a session depends on (R202) -/

/-- The state CLR leaves, with nothing of the words waiting, the responses and the events before. -/
def State.freshSession (s : State) : State :=
  { regs := Regs.reset
    io := { s.io with cmd := [], responses := [.ok], events := [] } }

/-- What CLR leaves standing around the session it starts. -/
def State.beforeSession (s : State) : Around :=
  { cmd := s.io.cmd, responses := s.io.responses, events := s.io.events, later := [] }

theorem exec_clr_within (s : State) : exec .clr s = .next (s.freshSession.within s.beforeSession) := by
  rw [exec_clr]
  simp [State.within, State.freshSession, State.beforeSession, State.respond, clearCore, State.setRegs]

theorem runCmds_cons {i : Instr} {s t : State} (h : exec i s = .next t) (is : List Instr) :
    runCmds (i :: is) s = runCmds is t := by
  rw [runCmds, h]

/-- A session runs as the fresh one does, with the past around it. -/
theorem runCmds_session (cmds : List Instr) (s : State) :
    runCmds (.clr :: cmds) s = outcomeWithin s.beforeSession (runCmds cmds s.freshSession) := by
  rw [runCmds_cons (exec_clr_within s)]
  exact (within_runCmds s.freshSession s.beforeSession cmds).resolve_right fun h => h.1 rfl

theorem runCmds_cmd {cmds : List Instr} {s t : State} (h : runCmds cmds s = .next t) : t.io.cmd = s.io.cmd := by
  induction cmds generalizing s with
  | nil =>
    cases h
    rfl
  | cons i is ih =>
    rw [runCmds] at h
    cases hi : exec i s with
    | next u =>
      rw [hi] at h
      obtain ⟨-, -, -, hcmd⟩ := eventsStandAndInputsAreTakenInOrder i s u hi
      exact (ih h).trans hcmd
    | fault f => simp [hi] at h
    | refused r => simp [hi] at h

/-- Later items on BYTE_IN are items around the commands. -/
theorem State.within_later (s : State) (later : List ByteItem) :
    s.within { cmd := s.io.cmd, responses := [], events := [], later := later } =
      { s with io := { s.io with byteIn := s.io.byteIn ++ later } } := rfl

/-- Settles O54. Both runs are the run of one fresh session, with each state's own past around it; later items are a future
around it, which a run that ends has not needed. -/
theorem sessionsDoNotInteract : Obligations.SessionsDoNotInteract := by
  refine ⟨fun cmds s t hbyteIn hbitIn herrors => ?_, fun cmds s u later h => ?_⟩
  · have hfresh : t.freshSession = s.freshSession := by
      simp only [State.freshSession, hbyteIn, hbitIn, herrors]
    rw [runCmds_session, runCmds_session, hfresh]
    cases runCmds cmds s.freshSession with
    | next v =>
      exact ⟨rfl, rfl, rfl, rfl, rfl, rfl, v.io.events, v.io.responses, rfl, rfl, rfl, rfl⟩
    | fault f => rfl
    | refused r => rfl
  · rw [← s.within_later, ← u.within_later, runCmds_cmd h]
    rcases within_runCmds s { cmd := s.io.cmd, responses := [], events := [], later := later } (.clr :: cmds) with
      hsame | ⟨-, f, hfault⟩
    · rw [hsame, h]
      rfl
    · rw [h] at hfault
      cases hfault

end Sys2Proof.Machine

/-! PROOFS. The session ENCODE (30_encoding.md R86): what it writes for a packet (R92, R200) and for one byte value (R205). -/

namespace Sys2Proof.Machine

/-! ### Commands that all answer `OK` -/

/-- From `s` the commands all answer `OK`, lead to `t`, where any further commands go on, and leave no transfer that fails. -/
structure State.Completes (s : State) (cmds : List Instr) (t : State) : Prop where
  run : ∀ more, runCmds (cmds ++ more) s = runCmds more t
  responses : t.io.responses = s.io.responses ++ List.replicate cmds.length .ok
  quiet : t.io.errors.allQuiet

theorem State.Completes.single {s t : State} {i : Instr} (h : exec i s = .next t)
    (hr : t.io.responses = s.io.responses ++ [.ok]) (hq : t.io.errors.allQuiet) : s.Completes [i] t :=
  ⟨runCmds_cons h, hr, hq⟩

theorem State.Completes.append {s t u : State} {cmds cmds' : List Instr} (h : s.Completes cmds t)
    (h' : t.Completes cmds' u) : s.Completes (cmds ++ cmds') u where
  run more := by rw [List.append_assoc, h.run, h'.run]
  responses := by rw [h'.responses, h.responses, List.append_assoc, List.length_append, List.replicate_append_replicate]
  quiet := h'.quiet

theorem State.Completes.cons {s t u : State} {i : Instr} {cmds : List Instr} (h : s.Completes [i] t)
    (h' : t.Completes cmds u) : s.Completes (i :: cmds) u :=
  h.append h'

/-- CLR completes from every state. -/
theorem clr_completes {s : State} (hq : s.io.errors.allQuiet) : s.Completes [.clr] ((clearCore s).respond .ok) :=
  .single (exec_clr s) rfl hq

/-- What a command's events put on BIT_OUT. -/
theorem bitOut_of_events {s t : State} {es : List Event} (h : t.io.events = s.io.events ++ es) :
    t.bitOut = s.bitOut ++ es.filterMap Event.bitOut? := by
  rw [State.bitOut, h, List.filterMap_append]
  rfl

/-- A command that does not use BIT_OUT leaves what the host has there. -/
theorem exec_bitOut {i : Instr} {s t : State} (hi : i ≠ .clr) (hch : Channel.bitOut ∉ channelsOf i)
    (h : exec i s = .next t) : t.bitOut = s.bitOut := by
  obtain ⟨-, -, -, hbitOut, -⟩ := (exec_uses hi h).views
  exact hbitOut hch

/-! ### The counts of a packet (R113) -/

theorem toNat_occGet_occOf {bs : List Byte} (h : bs.length < 2 ^ 64) (b : Byte) :
    (occGet (occOf bs) b).toNat = bs.count b := by
  have hlt : bs.count b < 2 ^ 64 := List.count_le_length.trans_lt h
  simpa [occGet, occOf] using hlt

/-- Over different values that include all of a list's, the counts add up to its length. -/
theorem sum_count_of_nodup {values bs : List Byte} (hnodup : values.Nodup) (hall : ∀ b ∈ bs, b ∈ values) :
    (values.map bs.count).sum = bs.length := by
  rw [← List.sum_toFinset bs.count hnodup]
  simpa using Multiset.sum_count_eq_card (m := ↑bs) fun b hb => List.mem_toFinset.2 (hall b hb)

theorem sum_occOf {bs : List Byte} (h : bs.length < 2 ^ 64) :
    (allBytes.map fun b => (occGet (occOf bs) b).toNat).sum = bs.length := by
  simp only [toNat_occGet_occOf h]
  exact sum_count_of_nodup nodup_allBytes fun b _ => mem_allBytes b

theorem occGet_occOf_ne_zero {bs : List Byte} (h : bs.length < 2 ^ 64) {b : Byte} :
    occGet (occOf bs) b ≠ 0 ↔ b ∈ bs := by
  rw [← List.count_pos_iff, ← toNat_occGet_occOf h, Nat.pos_iff_ne_zero, ne_eq, ne_eq, ← BitVec.toNat_inj]
  rfl

/-- After CLR, COUNT leaves the counts of its packet. -/
theorem count_completes {s : State} {bs : List Byte} {rest : List ByteItem} (hregs : s.regs = Regs.reset)
    (hlen : bs.length < 2 ^ 64) (hq : s.io.errors.allQuiet) (hb : s.io.byteIn = packetItems bs ++ rest) :
    ∃ t, s.Completes [.count] t ∧ t.regs = { Regs.reset with occ := occOf bs, phase := .counted } ∧
      t.io.byteIn = rest ∧ t.bitOut = s.bitOut := by
  have hzero (b : Byte) : (occGet s.regs.occ b).toNat = 0 := by
    rw [hregs]
    exact congrArg BitVec.toNat (occGet_zero b)
  obtain ⟨o, ho, hexec⟩ := (countCountsOnePacket s (by rw [hregs]; rfl) (by rw [hregs]; rfl)).1 bs rest hb
    (hq.quiet _ _) fun b => by rw [hzero, Nat.zero_add]; exact List.count_le_length.trans_lt hlen
  obtain rfl : o = occOf bs := occ_ext fun b => BitVec.eq_of_toNat_eq <| by
    rw [ho, hzero, Nat.zero_add, toNat_occGet_occOf hlen]
  refine ⟨_, .single hexec rfl (hq.after _ _), ?_, rfl, exec_bitOut (by decide) (by decide) hexec⟩
  rw [hregs]

/-! ### The tree of a packet, and its codes (R121, R161, R171) -/

/-- Every byte of a packet has a code in the table of its tree (R182). -/
theorem exists_code_of_mem {bs : List Byte} {tree : Tree} (hlen : bs.length < 2 ^ 64)
    (htree : builtTree (occOf bs) = .root tree) {v : Byte} (hv : v ∈ bs) :
    ∃ q, lutGet (lutOf tree.inject) (.byte v) = some q := by
  have hleaf : (v, occGet (occOf bs) v) ∈ tree.chars := by
    rw [(chars_of_builtTree htree).mem_iff, chars_initialWork]
    exact List.mem_map_of_mem (List.mem_filter.2 ⟨mem_allBytes v, by simpa using (occGet_occOf_ne_zero hlen).2 hv⟩)
  rw [← Tree.inject_chars (Tree.hasEos_of_builtOk (builtOk_of_builtTree htree))] at hleaf
  obtain ⟨p, hp⟩ := Tree.mem_codes_of_mem_chars hleaf
  exact Tree.exists_lutGet_of_mem_codes hp

/-- The codes the table holds for the bytes of a packet. -/
def codesOf (t : Lut) (bs : List Byte) : List (Byte × Bits) :=
  bs.map fun v => (v, (lutGet t (.byte v)).getD [])

theorem map_fst_codesOf (t : Lut) (bs : List Byte) : (codesOf t bs).map Prod.fst = bs := by
  simp [codesOf, Function.comp_def]

theorem length_codesOf (t : Lut) (bs : List Byte) : (codesOf t bs).length = bs.length := by
  simp [codesOf]

theorem codesOf_take (t : Lut) (bs : List Byte) (j : Nat) : codesOf t (bs.take j) = (codesOf t bs).take j :=
  List.map_take

/-- The payload of a packet whose bytes all have codes (R92). -/
theorem payload_eq_bitsOf {t : Lut} {bs : List Byte} (h : ∀ v ∈ bs, ∃ q, lutGet t (.byte v) = some q) :
    payload t bs = some (bitsOf (codesOf t bs)) := by
  induction bs with
  | nil => rfl
  | cons v vs ih =>
    obtain ⟨⟨q, hq⟩, hvs⟩ := List.forall_mem_cons.1 h
    simp [payload, hq, ih hvs, codesOf, bitsOf]

theorem codesOf_mem_codes {t : Tree} {bs : List Byte} (h : ∀ v ∈ bs, ∃ q, lutGet (lutOf t) (.byte v) = some q) :
    ∀ x ∈ codesOf (lutOf t) bs, (Sym.byte x.1, x.2) ∈ t.codes := by
  refine List.forall_mem_map.2 fun v hv => ?_
  obtain ⟨q, hq⟩ := h v hv
  rw [hq]
  exact Tree.mem_codes_of_lutGet hq

/-! ### The session -/

/-- BUILD on the counts of a packet (R121, R131). -/
theorem build_completes {s : State} {bs : List Byte} (hne : bs ≠ []) (hlen : bs.length < 2 ^ 64)
    (hregs : s.regs = { Regs.reset with occ := occOf bs, phase := .counted }) (hq : s.io.errors.allQuiet) :
    ∃ t tree, builtTree (occOf bs) = .root tree ∧ s.Completes [.build] t ∧
      t.regs = { Regs.reset with occ := occOf bs, tree := some tree, phase := .tree } ∧
      t.io.byteIn = s.io.byteIn ∧ t.bitOut = s.bitOut := by
  have hocc : s.regs.occ = occOf bs := by rw [hregs]
  obtain ⟨v, hv⟩ := List.exists_mem_of_ne_nil bs hne
  obtain ⟨tree, htree, hexec, -⟩ := buildMakesTheGreedyTree s (by rw [hregs]; rfl) (by rw [hregs])
    ⟨v, by rw [hocc]; exact (occGet_occOf_ne_zero hlen).2 hv⟩ (by rw [hocc, sum_occOf hlen]; exact hlen)
  rw [hocc] at htree
  refine ⟨_, tree, htree, .single hexec rfl hq, ?_, rfl, rfl⟩
  rw [hregs]
  rfl

/-- SER writes the header of the tree (R141). -/
theorem ser_completes {s : State} {tree : Tree} (hf : s.regs.fault = none) (hp : s.regs.phase = .tree)
    (htree : s.regs.tree = some tree) (hEos : tree.hasEos = false) (hq : s.io.errors.allQuiet) :
    ∃ t, s.Completes [.ser] t ∧ t.regs = s.regs ∧ t.io.byteIn = s.io.byteIn ∧
      t.bitOut = s.bitOut ++ tree.ser.map .bit := by
  have hexec := (serWritesTheHeader s tree hf hp htree hEos).1 (hq.quiet _ _)
  refine ⟨_, .single hexec rfl (hq.after _ _), rfl, rfl, ?_⟩
  rw [bitOut_of_events rfl, filterMap_outBit]

/-- INJ stores the injected tree (R161). -/
theorem inj_completes {s : State} {tree : Tree} (hf : s.regs.fault = none) (hp : s.regs.phase = .tree)
    (htree : s.regs.tree = some tree) (hEos : tree.hasEos = false) (hq : s.io.errors.allQuiet) :
    ∃ t, s.Completes [.inj] t ∧ t.regs = { s.regs with tree := some tree.inject, phase := .injected } ∧
      t.io = { s.io with responses := s.io.responses ++ [.ok] } :=
  ⟨_, .single (injStoresTheInjectedTree.1 s tree hf hp htree hEos) rfl hq, rfl, rfl⟩

/-- ENC writes the payload, the End-of-Stream code and one flush (R181). -/
theorem enc_completes {s : State} {bs : List Byte} {rest : List ByteItem} {p e : Bits} (hf : s.regs.fault = none)
    (hphase : s.regs.phase = .tabled) (hb : s.io.byteIn = packetItems bs ++ rest) (hp : payload s.regs.lut bs = some p)
    (he : lutGet s.regs.lut .eos = some e) (hq : s.io.errors.allQuiet) :
    ∃ t, s.Completes [.enc] t ∧
      t.regs = { s.regs with occ := Occ.zero, tree := none, lut := Lut.empty, phase := .done } ∧
      t.io.byteIn = rest ∧ t.bitOut = s.bitOut ++ ((p ++ e).map .bit ++ [.flush]) := by
  have hexec := encWritesPayloadTerminatorFlush s bs rest p e hf hphase hb hp he (hq.quiet _ _) (hq.quiet _ _)
  refine ⟨_, .single hexec rfl ((hq.after _ _).after _ _), rfl, rfl, ?_⟩
  have hitems : (encEvents s.regs.lut bs ++ [Event.inEnd] ++ e.map Event.outBit ++ [Event.outFlush]).filterMap
      Event.bitOut? = (p ++ e).map .bit ++ [.flush] := by
    simp only [List.filterMap_append, encEvents_bitOut hp, filterMap_outBit, List.map_append]
    simp [Event.bitOut?]
  exact (bitOut_of_events rfl).trans (congrArg _ hitems)

/-- The session up to SER: the header of BUILD's tree is written, and the packet's second copy is unread. -/
theorem encode_header {s : State} {bs : List Byte} {rest : List ByteItem} (hne : bs ≠ []) (hlen : bs.length < 2 ^ 64)
    (hq : s.io.errors.allQuiet) (hb : s.io.byteIn = packetItems bs ++ rest) :
    ∃ t tree, builtTree (occOf bs) = .root tree ∧ s.Completes [.clr, .count, .build, .ser] t ∧
      t.regs = { Regs.reset with occ := occOf bs, tree := some tree, phase := .tree } ∧
      t.io.byteIn = rest ∧ t.bitOut = s.bitOut ++ tree.ser.map .bit := by
  obtain ⟨t₁, hcount, hregs₁, hbyteIn₁, hbits₁⟩ := count_completes (s := (clearCore s).respond .ok) rfl hlen hq hb
  obtain ⟨t₂, tree, htree, hbuild, hregs₂, hbyteIn₂, hbits₂⟩ := build_completes hne hlen hregs₁ hcount.quiet
  obtain ⟨t, hser, hregs, hbyteIn, hbits⟩ := ser_completes (by rw [hregs₂]; rfl) (by rw [hregs₂]) (by rw [hregs₂])
    (Tree.hasEos_of_builtOk (builtOk_of_builtTree htree)) hbuild.quiet
  refine ⟨t, tree, htree, (clr_completes hq).cons (hcount.cons (hbuild.cons hser)), hregs.trans hregs₂, ?_, ?_⟩
  · rw [hbyteIn, hbyteIn₂, hbyteIn₁]
  · rw [hbits, hbits₂, hbits₁]
    rfl

/-- INJ and LUT make the table of the injected tree. -/
theorem table_completes {s : State} {tree : Tree} (hf : s.regs.fault = none) (hp : s.regs.phase = .tree)
    (htree : s.regs.tree = some tree) (hEos : tree.hasEos = false) (hq : s.io.errors.allQuiet) :
    ∃ t, s.Completes [.inj, .lut] t ∧
      t.regs = { s.regs with tree := some tree.inject, lut := lutOf tree.inject, phase := .tabled } ∧
      t.io.byteIn = s.io.byteIn ∧ t.bitOut = s.bitOut := by
  obtain ⟨t₁, hinj, hregs₁, hio₁⟩ := inj_completes hf hp htree hEos hq
  have hlut := exec_lut_tree (s := t₁) (by rw [hregs₁]; exact hf) (by rw [hregs₁]) (by rw [hregs₁])
  refine ⟨_, hinj.cons (.single hlut rfl hinj.quiet), ?_, ?_, ?_⟩
  · rw [hregs₁]
  · rw [hio₁]
  · simp only [State.bitOut, hio₁]

/-- Settles O55. The header is written, then the table of its tree is made, which has a code for every byte counted, and ENC
writes the codes. -/
theorem encodeSessionWritesTheStream : Obligations.EncodeSessionWritesTheStream := by
  intro s bs rest hne hlen hq hb
  obtain ⟨t₁, tree, htree, hheader, hregs₁, hbyteIn₁, hbits₁⟩ := encode_header hne hlen hq hb
  have hEos : tree.hasEos = false := Tree.hasEos_of_builtOk (builtOk_of_builtTree htree)
  obtain ⟨t₂, htable, hregs₂, hbyteIn₂, hbits₂⟩ :=
    table_completes (by rw [hregs₁]; rfl) (by rw [hregs₁]) (by rw [hregs₁]) hEos hheader.quiet
  rw [hregs₁] at hregs₂
  have hpayload := payload_eq_bitsOf fun v => exists_code_of_mem hlen htree (v := v)
  obtain ⟨e, he⟩ := Tree.exists_lutGet_eos_inject hEos
  obtain ⟨t, henc, hregs, hbyteIn, hbits⟩ :=
    enc_completes (by rw [hregs₂]; rfl) (by rw [hregs₂]) (hbyteIn₂.trans hbyteIn₁) (by rw [hregs₂]; exact hpayload)
      (by rw [hregs₂]; exact he) htable.quiet
  have hall : s.Completes encodeSession t := hheader.append (htable.append henc)
  refine ⟨t, tree, _, e, htree, hpayload, he, hall.run [], ?_, ?_, hbyteIn, hall.responses⟩
  · rw [hregs, hregs₂]
    rfl
  · rw [hbits, hbits₂, hbits₁]
    simp

/-! ### One byte value (R205) -/

theorem payload_replicate {t : Lut} {b : Byte} {x : Bit} (h : lutGet t (.byte b) = some [x]) (n : Nat) :
    payload t (List.replicate n b) = some (List.replicate n x) := by
  induction n with
  | zero => rfl
  | succ n ih => simp [List.replicate_succ, payload, h, ih]

/-- The tree of one byte value, injected: its code is a 0 and the End-of-Stream code a 1 (R164). -/
theorem lutGet_lutOf_inject_char (b : Byte) (c : Count) :
    lutGet (lutOf (Tree.char b c).inject) (.byte b) = some [false] ∧
    lutGet (lutOf (Tree.char b c).inject) .eos = some [true] := by
  simp [lutGet_lutOf, Tree.lastCode, Tree.inject, Tree.codes]

/-- Settles O59. BUILD's tree is the one leaf, whose header and codes are then written out. -/
theorem oneByteValueStream : Obligations.OneByteValueStream := by
  intro s b n rest hpos hlt hq hb
  have hlen : (List.replicate n b).length < 2 ^ 64 := by rwa [List.length_replicate]
  have hocc (c : Byte) : occGet (occOf (List.replicate n b)) c ≠ 0 ↔ c = b := by
    rw [occGet_occOf_ne_zero hlen, List.mem_replicate]
    exact and_iff_right (by omega)
  obtain ⟨t, tree, p, e, htree, hp, he, hrun, -, hbits, -⟩ :=
    encodeSessionWritesTheStream s (List.replicate n b) rest (by simp; omega) hlen hq hb
  rw [builtTree_single ((hocc b).2 rfl) fun c => (hocc c).1] at htree
  cases htree
  obtain ⟨hbyte, heos⟩ := lutGet_lutOf_inject_char b (occGet (occOf (List.replicate n b)) b)
  rw [payload_replicate hbyte] at hp
  rw [heos] at he
  cases hp
  cases he
  exact ⟨t, hrun, hbits⟩

end Sys2Proof.Machine

/-! PROOFS. The session DECODE (30_encoding.md R86): what it makes of a stream that ENCODE writes, whole (R203, R210) or cut
(R209); and both sessions on the empty packet (R204). -/

namespace Sys2Proof.Machine

/-! ### The commands before DEC -/

theorem exec_byteOut {i : Instr} {s t : State} (hi : i ≠ .clr) (hch : Channel.byteOut ∉ channelsOf i)
    (h : exec i s = .next t) : t.byteOut = s.byteOut := by
  obtain ⟨-, -, hbyteOut, -, -⟩ := (exec_uses hi h).views
  exact hbyteOut hch

theorem Tree.leaves_le_of_builtOk {t : Tree} (h : t.builtOk = true) : t.leaves ≤ 256 := by
  simp only [Tree.builtOk, Bool.and_eq_true, decide_eq_true_eq] at h
  obtain ⟨⟨-, hleaves⟩, -⟩ := h
  exact hleaves

/-- After CLR, DESER on a header stores its tree without the counts (R149). -/
theorem deser_completes {s : State} {tree : Tree} {rest : Bits} (hregs : s.regs = Regs.reset) (hok : tree.builtOk = true)
    (hq : s.io.errors.allQuiet) (hb : s.io.bitIn = tree.ser ++ rest) :
    ∃ t, s.Completes [.deser] t ∧ t.regs = { Regs.reset with tree := some tree.zero, phase := .tree } ∧
      t.io.bitIn = rest ∧ t.byteOut = s.byteOut := by
  have hexec := deserInvertsSer.1 s tree rest (by rw [hregs]; rfl) (by rw [hregs]; rfl) (Tree.hasEos_of_builtOk hok)
    (Tree.leaves_le_of_builtOk hok) hb (hq.quiet _ _)
  exact ⟨_, .single hexec rfl (hq.after _ _), by rw [hregs], rfl, exec_byteOut (by decide) (by decide) hexec⟩

/-- The session up to DEC, on a stream that begins with a whole header. -/
theorem decode_to_payload {s : State} {tree : Tree} {rest : Bits} (hok : tree.builtOk = true)
    (hq : s.io.errors.allQuiet) (hb : s.io.bitIn = tree.ser ++ rest) :
    ∃ t, s.Completes [.clr, .deser, .inj] t ∧
      t.regs = { Regs.reset with tree := some tree.inject.zero, phase := .injected } ∧
      t.io.bitIn = rest ∧ t.byteOut = s.byteOut := by
  have hEos := Tree.hasEos_of_builtOk hok
  obtain ⟨t₁, hdeser, hregs₁, hbitIn₁, hbyteOut₁⟩ := deser_completes (s := (clearCore s).respond .ok) rfl hok hq hb
  obtain ⟨t, hinj, hregs, hio⟩ := inj_completes (tree := tree.zero) (by rw [hregs₁]; rfl) (by rw [hregs₁])
    (by rw [hregs₁]) (by rw [Tree.zero_hasEos, hEos]) hdeser.quiet
  rw [hregs₁, injectionIsTheSameOnBothSides tree hEos] at hregs
  exact ⟨t, (clr_completes hq).cons (hdeser.cons hinj), hregs, by rw [hio, hbitIn₁], by
    rw [State.byteOut, hio]; exact hbyteOut₁⟩

/-! ### A whole stream (R203, R210) -/

/-- The stream of a packet: the header of its tree, the codes of its bytes, the End-of-Stream code (R92). -/
theorem encode_stream {s : State} {bs : List Byte} {rest : List ByteItem} (hne : bs ≠ []) (hlen : bs.length < 2 ^ 64)
    (hq : s.io.errors.allQuiet) (hb : s.io.byteIn = packetItems bs ++ (packetItems bs ++ rest)) :
    ∃ (t : State) (tree : Tree) (e : Bits), builtTree (occOf bs) = .root tree ∧
      (Sym.eos, e) ∈ tree.inject.codes ∧
      (∀ x ∈ codesOf (lutOf tree.inject) bs, (Sym.byte x.1, x.2) ∈ tree.inject.codes) ∧
      runCmds encodeSession s = .next t ∧
      t.bitOut = s.bitOut ++ ((tree.ser ++ (bitsOf (codesOf (lutOf tree.inject) bs) ++ e)).map .bit ++ [.flush]) := by
  obtain ⟨t, tree, p, e, htree, hp, he, hrun, -, hbits, -⟩ := encodeSessionWritesTheStream s bs rest hne hlen hq hb
  have hcodes (v : Byte) (hv : v ∈ bs) : ∃ q, lutGet (lutOf tree.inject) (.byte v) = some q :=
    exists_code_of_mem hlen htree hv
  rw [payload_eq_bitsOf hcodes] at hp
  cases hp
  exact ⟨t, tree, e, htree, Tree.mem_codes_of_lutGet he, codesOf_mem_codes hcodes, hrun,
    by rw [hbits, List.append_assoc tree.ser]⟩

theorem Tree.isInner_inject_zero {t : Tree} (h : t.builtOk = true) : t.inject.zero.isInner = true := by
  rw [Tree.zero_isInner, Tree.inject_isInner (Tree.hasEos_of_builtOk h)]

/-- Settles O56. DESER reads the header and INJ makes ENCODE's tree of it but for the counts, so the payload is codes of
DEC's tree. -/
theorem roundTrip : Obligations.RoundTrip := by
  intro s bs rest hne hlen hq hb
  obtain ⟨t, tree, e, htree, he, hcodes, hrun, hbits⟩ := encode_stream hne hlen hq hb
  rw [← Tree.zero_codes] at he hcodes
  have hok := builtOk_of_builtTree htree
  refine ⟨t, _, hrun, hbits, fun u pad hqu hbu => ?_⟩
  rw [List.append_assoc] at hbu
  obtain ⟨v, hcompletes, hregs, hbitIn, hbyteOut⟩ := decode_to_payload hok hqu hbu
  have hexec := decEmitsTheBytesOfTheCodes v tree.inject.zero _ e pad (by rw [hregs]; rfl) (.inl (by rw [hregs]))
    (by rw [hregs]) (Tree.isInner_inject_zero hok) hcodes he hbitIn (hcompletes.quiet.quiet _ _)
    (hcompletes.quiet.quiet _ _)
  refine ⟨_, (hcompletes.run [.dec]).trans (runCmds_cons hexec []), ?_, rfl, ?_, ?_⟩
  · refine (byteOut_decoded v (codesOf (lutOf tree.inject) bs) e pad tree).trans ?_
    rw [hbyteOut, map_fst_codesOf]
  · rw [hregs]
    rfl
  · simp only [hcompletes.responses, List.append_assoc]
    rfl

/-! ### A cut stream (R209) -/

/-- The stream cut inside the header: DESER reports the cut, and the session's other commands are refused. -/
theorem decode_cut_header {s : State} {tree : Tree} {k : Nat} (hok : tree.builtOk = true) (hq : s.io.errors.allQuiet)
    (hk : k < tree.ser.length) (hb : s.io.bitIn = tree.ser.take k) :
    ∃ t, runCmds decodeSession s = .next t ∧ t.byteOut = s.byteOut ∧
      t.regs.fault = some
        { cause := .prematureEos (if k ∈ (tree.flags 0).map Prod.fst then .hdrFlag else .hdrByte), op := 0b0101#4 } := by
  have hlen : s.io.bitIn.length = k := by rw [hb, List.length_take_of_le hk.le]
  have hne : s.io.bitIn ≠ tree.ser := fun h => by rw [h] at hlen; omega
  obtain ⟨t, hexec, hflag, hbyte⟩ := deserOnACutHeaderFaults ((clearCore s).respond .ok) tree rfl rfl
    (Tree.hasEos_of_builtOk hok) (Tree.leaves_le_of_builtOk hok) (hb ▸ List.take_prefix k tree.ser) hne hq
  have hfault : t.regs.fault = some
      { cause := .prematureEos (if k ∈ (tree.flags 0).map Prod.fst then .hdrFlag else .hdrByte), op := 0b0101#4 } := by
    subst hlen
    split
    next hmem =>
      obtain ⟨hregs, -⟩ := hflag hmem
      rw [hregs]
    next hmem =>
      obtain ⟨hregs, -⟩ := hbyte hmem
      rw [hregs]
  have hbyteOut : t.byteOut = ((clearCore s).respond .ok).byteOut := exec_byteOut (by decide) (by decide) hexec
  exact ⟨_, (runCmds_cons (exec_clr s) _).trans ((runCmds_cons hexec _).trans
    (runCmds_refused (cmds := [.inj, .dec]) (by decide) hfault)), hbyteOut, hfault⟩

/-- The stream cut after the header: DEC reports the cut, and has emitted the bytes whose whole codes are kept. -/
theorem decode_cut_payload {s : State} {tree : Tree} {cs : List (Byte × Bits)} {e : Bits} {m : Nat}
    (hok : tree.builtOk = true) (hcs : ∀ x ∈ cs, (Sym.byte x.1, x.2) ∈ tree.inject.zero.codes)
    (he : (Sym.eos, e) ∈ tree.inject.zero.codes) (hq : s.io.errors.allQuiet) (hm : m < (bitsOf cs ++ e).length)
    (hb : s.io.bitIn = tree.ser ++ (bitsOf cs ++ e).take m) :
    ∃ t j, runCmds decodeSession s = .next t ∧ t.byteOut = s.byteOut ++ (cs.take j).map Prod.fst ∧
      t.regs.fault = some { cause := .prematureEos .payload, op := 0b1001#4 } ∧
      (bitsOf (cs.take j)).length ≤ m ∧ (j < cs.length → m < (bitsOf (cs.take (j + 1))).length) := by
  obtain ⟨v, hcompletes, hregs, hbitIn, hbyteOut⟩ := decode_to_payload hok hq hb
  obtain ⟨j, x, q, q', htake, hcode, hq', hnext⟩ := codes_cut hcs ⟨_, he, List.prefix_rfl⟩ hm
  rw [htake] at hbitIn
  have hexec := decOnACutPayloadFaults v tree.inject.zero (cs.take j) q (by rw [hregs]; rfl) (.inl (by rw [hregs]))
    (by rw [hregs]) (Tree.isInner_inject_zero hok) (fun y hy => hcs y (List.mem_of_mem_take hy))
    ⟨_, hcode, List.prefix_append q q', by simpa using hq'⟩ hbitIn (hcompletes.quiet.quiet _ _)
    (hcompletes.quiet.quiet _ _)
  have hlen : (bitsOf (cs.take j) ++ q).length = m := by rw [← htake, List.length_take_of_le hm.le]
  rw [List.length_append] at hlen
  refine ⟨_, j, (hcompletes.run [.dec]).trans (runCmds_cons hexec []), ?_, rfl, by omega, hnext⟩
  rw [← hbyteOut]
  exact byteOut_decoded v (cs.take j) q [] tree

/-- Settles O57. A cut before the header's end is met by DESER, a later one by DEC. -/
theorem truncatedStreamsAreReported : Obligations.TruncatedStreamsAreReported := by
  intro s bs rest hne hlen hq hb
  obtain ⟨t, tree, e, htree, he, hcodes, hrun, hbits⟩ := encode_stream hne hlen hq hb
  rw [← Tree.zero_codes] at he hcodes
  have hok := builtOk_of_builtTree htree
  refine ⟨t, tree, _, htree, hrun, hbits, fun u k hqu hk hbu => ?_⟩
  rw [List.length_append] at hk
  by_cases hheader : k < tree.ser.length
  · rw [List.take_append_of_le_length hheader.le] at hbu
    obtain ⟨v, hrunv, hbyteOut, hfault⟩ := decode_cut_header hok hqu hheader hbu
    exact ⟨v, hrunv, fun _ => ⟨hbyteOut, hfault⟩, fun h => by omega⟩
  · obtain ⟨m, rfl⟩ := Nat.exists_eq_add_of_le (Nat.le_of_not_lt hheader)
    rw [List.take_length_add_append] at hbu
    obtain ⟨v, j, hrunv, hbyteOut, hfault, hkept, hnext⟩ := decode_cut_payload hok hcodes he hqu (by omega) hbu
    have hpayload (n : Nat) : payload (lutOf tree.inject) (bs.take n) =
        some (bitsOf ((codesOf (lutOf tree.inject) bs).take n)) := by
      rw [← codesOf_take]
      exact payload_eq_bitsOf fun v hv => exists_code_of_mem hlen htree (List.mem_of_mem_take hv)
    refine ⟨v, hrunv, fun h => by omega, fun _ => ⟨hfault, j, _, ?_, hpayload j, by omega, fun hj q' hq' => ?_⟩⟩
    · rw [hbyteOut, List.map_take, map_fst_codesOf]
    · rw [hpayload] at hq'
      cases hq'
      have := hnext (by rwa [length_codesOf])
      omega

/-! ### The empty packet (R204) -/

/-- ENCODE of the empty packet: BUILD finds no byte counted, and the commands after it are refused. -/
theorem encode_empty {s : State} {rest : List ByteItem} (hq : s.io.errors.allQuiet)
    (hb : s.io.byteIn = packetItems [] ++ rest) :
    ∃ t, runCmds encodeSession s = .next t ∧ t.bitOut = s.bitOut ∧
      t.regs.fault = some { cause := .empty, op := 0b0011#4 } ∧ t.io.byteIn = rest ∧
      t.io.responses = s.io.responses ++ [.ok, .ok, .fault .empty, .fault .empty, .fault .empty, .fault .empty,
        .fault .empty] := by
  have hlen : ([] : List Byte).length < 2 ^ 64 := by decide
  obtain ⟨t, hcount, hregs, hbyteIn, hbitOut⟩ := count_completes (s := (clearCore s).respond .ok) rfl hlen hq hb
  have hzero (b : Byte) : occGet t.regs.occ b = 0 := by
    rw [hregs]
    exact not_not.1 fun h => absurd ((occGet_occOf_ne_zero hlen).1 h) (List.not_mem_nil)
  have hbuild := buildOnEmptyInputFaults t (by rw [hregs]; rfl) (by rw [hregs]) hzero
  have hsession := (clr_completes hq).cons hcount
  refine ⟨_, (hsession.run [.build, .ser, .inj, .lut, .enc]).trans ((runCmds_cons hbuild _).trans
    (runCmds_refused (by decide) rfl)), hbitOut, rfl, hbyteIn, ?_⟩
  simp only [hsession.responses, List.append_assoc]
  rfl

/-- DECODE of the empty packet: DESER finds no flag, and the commands after it are refused. -/
theorem decode_empty {s : State} (hb : s.io.bitIn = []) :
    ∃ t, runCmds decodeSession s = .next t ∧ t.byteOut = s.byteOut ∧
      t.regs.fault = some { cause := .prematureEos .hdrFlag, op := 0b0101#4 } ∧
      t.io.responses = s.io.responses ++ [.ok, .fault .prematureEos, .fault .prematureEos, .fault .prematureEos] := by
  have hrun : deserRun ((clearCore s).respond .ok) = .raised (.prematureEos .hdrFlag) ((clearCore s).respond .ok) := by
    rw [deserRun, parse_nil (s := (clearCore s).respond .ok) hb]
  have hdeser := exec_deser_raised rfl rfl hrun
  refine ⟨_, (runCmds_cons (exec_clr s) _).trans ((runCmds_cons hdeser _).trans (runCmds_refused (by decide) rfl)),
    rfl, rfl, ?_⟩
  simp only [faultEntry_io, State.respond_io_responses, List.append_assoc]
  rfl

/-- Settles O58. Neither session gets past the command that finds nothing. -/
theorem emptySequenceFaults : Obligations.EmptySequenceFaults :=
  fun _ hq => ⟨fun _ hb => encode_empty hq hb, decode_empty⟩

end Sys2Proof.Machine
